-- ==== Sys2Proof/Word.lean ====
section
/-! DEFINITION. The word types of HCC (00_scope.md R5, R6): registers and command words are 32 bits, symbols and buffer
bytes 8 bits, aperture offsets 26 bits (20_memory.md R80). All values are unsigned. -/

namespace Sys2Proof

/-- A register or command word: 32 bits, bit 0 least significant (R6, R21). -/
abbrev Word := BitVec 32

/-- A buffer byte, and a symbol: SYM_W = 8 (R5). -/
abbrev Byte := BitVec 8

/-- A byte offset in the 64 MiB aperture (R80). -/
abbrev Offset := BitVec 26

/-- The index of a tree node: NODE_IDX_W = 9 (R5). -/
abbrev NodeIdx := BitVec 9

/-- A node's frequency: FREQ_W = 40 (R5). -/
abbrev Freq := BitVec 40

end Sys2Proof
end

