-- ==== Sys2Proof/Syntax.lean ====
section
/-! DEFINITION. The command terms of 30_encoding.md R115 and R118, one constructor per row of opcode_table.json. -/

namespace Sys2Proof

/-- R115, R118: the thirteen commands; FC_ADD has one row for each number N of symbols (R113), its operands S0, S1, S2. -/
inductive Instr where
  | nop
  | clear
  | fcClear
  | fcAdd1 (s0 : Byte)
  | fcAdd2 (s0 s1 : Byte)
  | fcAdd3 (s0 s1 s2 : Byte)
  | fcScan
  | tbBuild
  | ctGen
  | encode
  | pack
  | unpack
  | decode
  | compress
  | decompress
  deriving DecidableEq, Repr

end Sys2Proof
end

