-- ==== Sys2Proof/WellFormed.lean ====
section
/-! DEFINITION. What counts as a well-formed command. R117's predicate on command words, written from R116 and R117 and
independent of the decoder; and the check on terms, which every term passes, because the operands of Instr are bytes by
type and R113 and R114 ask no more of a symbol field. -/

namespace Sys2Proof

/-- R111: OPC, bits 31:28. -/
def opcField (w : Word) : BitVec 4 := w.extractLsb' 28 4

/-- R112: bits 27:0, reserved and zero in format Z. -/
def zField (w : Word) : BitVec 28 := w.extractLsb' 0 28

/-- R116, R117: a format Z word has bits 27:0 zero. -/
def legalZ (w : Word) : Bool := zField w == 0#28

/-- R116, R117: a format A word has bits 27:26 zero, N from 1 to 3, and zero symbol fields beyond N. -/
def legalA (w : Word) : Bool :=
  if w.extractLsb' 26 2 != 0#2 then false
  else if w.extractLsb' 24 2 == 0#2 then false
  else if w.extractLsb' 24 2 == 1#2 then w.extractLsb' 8 16 == 0#16
  else if w.extractLsb' 24 2 == 2#2 then w.extractLsb' 16 8 == 0#8
  else true

/-- R117: the legality predicate, total on all 2^32 words. -/
def legalWord (w : Word) : Bool :=
  if opcField w == 3#4 then legalA w
  else if (opcField w).ult 0xD#4 then legalZ w
  else false

/-- Every term is well-formed: the operand types already say what R113 and R114 require. -/
def Instr.wellFormed : Instr → Bool
  | .nop => true
  | .clear => true
  | .fcClear => true
  | .fcAdd1 _ => true
  | .fcAdd2 _ _ => true
  | .fcAdd3 _ _ _ => true
  | .fcScan => true
  | .tbBuild => true
  | .ctGen => true
  | .encode => true
  | .pack => true
  | .unpack => true
  | .decode => true
  | .compress => true
  | .decompress => true

end Sys2Proof
end

