-- ==== Sys2Proof/Decode.lean ====
section
/-! DEFINITION. Decoding of command words (30_encoding.md R110 to R118), total on all 2^32 words, and the encoder, both
written from the opcode map R115. A command is one 32-bit word written to CMD; it has no bytes in memory (R98). -/

namespace Sys2Proof

/-- R114: the symbol fields S0, S1, S2. -/
def s0Field (w : Word) : Byte := w.extractLsb' 0 8
def s1Field (w : Word) : Byte := w.extractLsb' 8 8
def s2Field (w : Word) : Byte := w.extractLsb' 16 8

/-- R112: a format Z word is its opcode with bits 27:0 zero, and illegal otherwise. -/
def decodeZ (i : Instr) (w : Word) : Option Instr :=
  if zField w = 0#28 then some i else none

/-- R113: format A, by the fixed bits of the three FC_ADD rows of R115 (bits 31:8, 31:16 and 31:24). -/
def decodeA (w : Word) : Option Instr :=
  if w.extractLsb' 8 24 = 0x310000#24 then some (.fcAdd1 (s0Field w))
  else if w.extractLsb' 16 16 = 0x3200#16 then some (.fcAdd2 (s0Field w) (s1Field w))
  else if w.extractLsb' 24 8 = 0x33#8 then some (.fcAdd3 (s0Field w) (s1Field w) (s2Field w))
  else none

/-- R111, R115: the command a word selects; none for an illegal word (R116), which the engine reports as
ILLEGAL_COMMAND (R276). -/
def decode (w : Word) : Option Instr :=
  match (opcField w).toNat with
  | 0x0 => decodeZ .nop w
  | 0x1 => decodeZ .clear w
  | 0x2 => decodeZ .fcClear w
  | 0x3 => decodeA w
  | 0x4 => decodeZ .fcScan w
  | 0x5 => decodeZ .tbBuild w
  | 0x6 => decodeZ .ctGen w
  | 0x7 => decodeZ .encode w
  | 0x8 => decodeZ .pack w
  | 0x9 => decodeZ .unpack w
  | 0xA => decodeZ .decode w
  | 0xB => decodeZ .compress w
  | 0xC => decodeZ .decompress w
  | _ => none

/-- R112: the word of a format Z command. -/
def encodeZ (opc : BitVec 4) : Word := opc ++ 0#28

/-- R113: the word of a format A command; fields beyond N are zero. -/
def encodeA (n : BitVec 2) (s2 s1 s0 : Byte) : Word := 0x3#4 ++ 0#2 ++ n ++ s2 ++ s1 ++ s0

/-- R115, R118: the word of a command. -/
def encode : Instr → Word
  | .nop => encodeZ 0x0#4
  | .clear => encodeZ 0x1#4
  | .fcClear => encodeZ 0x2#4
  | .fcAdd1 s0 => encodeA 1#2 0#8 0#8 s0
  | .fcAdd2 s0 s1 => encodeA 2#2 0#8 s1 s0
  | .fcAdd3 s0 s1 s2 => encodeA 3#2 s2 s1 s0
  | .fcScan => encodeZ 0x4#4
  | .tbBuild => encodeZ 0x5#4
  | .ctGen => encodeZ 0x6#4
  | .encode => encodeZ 0x7#4
  | .pack => encodeZ 0x8#4
  | .unpack => encodeZ 0x9#4
  | .decode => encodeZ 0xA#4
  | .compress => encodeZ 0xB#4
  | .decompress => encodeZ 0xC#4

/-- The command word of an instruction of `nbits` bits whose bits are `w`: one 32-bit word (R110), the bits above
`nbits` zero. -/
def tableWord (nbits w : Nat) : Word := BitVec.ofNat 32 (w % 2 ^ nbits)

/-- The instruction the decoder reads from an instruction whose bits are `w`, numbered as opcode_table.json numbers them. -/
def decodeTableWord (nbits w : Nat) : Option Instr := decode (tableWord nbits w)

/-- R115: the source mnemonic of a command (R120's spelling), used in host scripts. -/
def Instr.mnemonic : Instr → String
  | .nop => "nop"
  | .clear => "clear"
  | .fcClear => "fc.clear"
  | .fcAdd1 _ => "fc.add"
  | .fcAdd2 _ _ => "fc.add"
  | .fcAdd3 _ _ _ => "fc.add"
  | .fcScan => "fc.scan"
  | .tbBuild => "tb.build"
  | .ctGen => "ct.gen"
  | .encode => "encode"
  | .pack => "pack"
  | .unpack => "unpack"
  | .decode => "decode"
  | .compress => "compress"
  | .decompress => "decompress"

end Sys2Proof
end

