-- ==== Sys2Proof/Config.lean ====
section
/-! DEFINITION. The implementation parameters of 00_scope.md R5, their constraints and defaults, and the one free value of
the spec (the data of a read that is not busy-safe, 20_memory.md R90 and 93_implementation_defined.md entry 5). -/

namespace Sys2Proof

/-- The parameters an implementation of HCC fixes (R5). No step of the machine changes them. -/
structure Params where
  /-- SYM_CAP: capacity of SYMBUF in bytes. -/
  symCap : Nat
  /-- BIT_CAP: capacity of BITBUF in bits. -/
  bitCap : Nat
  /-- PK_CAP: capacity of PKBUF in bytes. -/
  pkCap : Nat
  /-- BASE: bus address of the aperture. -/
  base : Nat
  deriving DecidableEq, Repr

/-- The defaults of R5. R5 gives BASE no default: 0 is a DESIGN CHOICE (log 3). -/
def Params.default : Params :=
  { symCap := 65536, bitCap := 1048576, pkCap := 131074, base := 0 }

/-- R5: 1 <= SYM_CAP <= 2^24. -/
def Params.symCapOk (p : Params) : Bool := decide (1 ≤ p.symCap ∧ p.symCap ≤ 2 ^ 24)

/-- R5: BIT_CAP is a multiple of 8 and 8 <= BIT_CAP <= 2^27. -/
def Params.bitCapOk (p : Params) : Bool := decide (p.bitCap % 8 = 0 ∧ 8 ≤ p.bitCap ∧ p.bitCap ≤ 2 ^ 27)

/-- R5: BIT_CAP/8 + 2 <= PK_CAP <= 2^24. -/
def Params.pkCapOk (p : Params) : Bool := decide (p.bitCap / 8 + 2 ≤ p.pkCap ∧ p.pkCap ≤ 2 ^ 24)

/-- R5: BASE is aligned to 2^26. -/
def Params.baseOk (p : Params) : Bool := decide (p.base % 2 ^ 26 = 0)

/-- The constraints of R5 together. -/
def Params.wf (p : Params) : Bool := p.symCapOk && p.bitCapOk && p.pkCapOk && p.baseOk

/-- R80: the offset a bus address names in HCC's aperture at BASE, if it lies in the aperture. -/
def Params.offsetOf (p : Params) (busAddr : Nat) : Option Offset :=
  if p.base ≤ busAddr ∧ busAddr < p.base + 2 ^ 26 then some (BitVec.ofNat 26 (busAddr - p.base)) else none

/-- R22: the constant the ID register reads, the ASCII bytes "HUFF". -/
def Config.idWord : Word := 0x48554646#32

/-- FREE VALUE (log 5): the data of the n-th read outside the busy-safe set while BUSY = 1. R90: "a read returns a value
no rule fixes (a model draws it)". Nothing constrains it. -/
opaque Config.freeWord : Nat → Word

end Sys2Proof
end

