-- ==== Sys2Proof/Machine/State.lean ====
section
/-! DEFINITION. The state of HCC (10_state.md R53), the inputs and the output of its bus port (R9, 20_memory.md R80, R90),
the reset state (70_reset_and_hazards.md R300) and the reasons a step can stop. Plain data throughout. -/

namespace Sys2Proof.Machine

/-- The three buffers (R45, R46, R47). -/
inductive Buf where
  | symbuf
  | bitbuf
  | pkbuf
  deriving DecidableEq, Repr

/-- The conditions STATUS.ERRCODE names (R270). -/
inductive ErrCode where
  | noError
  | malformedStream
  | unknownSymbol
  | resource
  | illegalCommand
  | sequence
  | emptyHistogram
  | countOverflow
  | protocol
  deriving DecidableEq, Repr

/-- A tree node in use (R41): FC's Leaf or Internal. -/
inductive Node where
  | leaf (sym : Byte) (freq : Freq)
  | internal (freq : Freq) (left right : NodeIdx)
  deriving DecidableEq, Repr

/-- The width of a host access (R80): 1, 2 or 4 bytes. -/
inductive Width where
  | byte
  | half
  | word
  deriving DecidableEq, Repr

/-- One turn of an agent (R9): the host's access of the bus, the engine's turn, or a change of the reset input. -/
inductive Input where
  | read (off : Offset) (w : Width)
  | write (off : Offset) (w : Width) (v : Word)
  | engine
  | assertReset
  | releaseReset
  deriving DecidableEq, Repr

/-- What the bus answers to one host access (R92, R93): a bus error or not, and for a read its data. -/
structure BusResponse where
  berr : Bool
  data : Option Word
  deriving DecidableEq, Repr

/-- The content of one buffer: the bytes whose WRITTEN mark is set (R51), with their offsets, in strictly rising order of
offset. An offset that is not listed has its mark clear and no value (R286). -/
abbrev Memory := List Host.Cell

/-- COUNT (R40): one 32-bit counter for each of the 256 symbol values. -/
abbrev Counts := Vector (BitVec 32) 256

/-- CODE (R43): CODE_BITS[s] for each symbol; CODE_LEN[s] is its length, and an empty entry is no entry. -/
abbrev Codes := Vector (List Bool) 256

/-- NODE (R41): 511 entries, each empty or in use. -/
abbrev Arena := Vector (Option Node) 511

/-- The machine: the architectural state of R53, the level of the reset input (R300, R301), the turns the agents are still
to take, the last answer on the bus, and the model's own counter of free values. -/
@[ext]
structure State where
  /-- The implementation parameters (R5, R23). -/
  par : Params
  /-- LAST_CMD (R24). -/
  lastCmd : Word
  /-- PENDING (R48). -/
  pending : Word
  /-- STATUS.BUSY (R25). -/
  busy : Bool
  /-- STATUS.ERR (R25). -/
  err : Bool
  /-- STATUS.OVF (R25). -/
  ovf : Bool
  /-- STATUS.TREE_VALID (R25). -/
  treeValid : Bool
  /-- STATUS.TABLE_VALID (R25). -/
  tableValid : Bool
  /-- STATUS.ERRCODE (R25, R270). -/
  errCode : ErrCode
  /-- ERR_INFO (R26). -/
  errInfo : Word
  /-- INT_EN bits 1:0, ERR_EN and DONE_EN (R28). -/
  intEn : BitVec 2
  /-- INT_STAT bits 1:0, ERRI and DONE (R29). -/
  intStat : BitVec 2
  /-- SYM_LEN (R30). -/
  symLen : Word
  /-- BIT_LEN (R31). -/
  bitLen : Word
  /-- PK_LEN (R32). -/
  pkLen : Word
  /-- TREE_ROOT bits 8:0 (R36). -/
  treeRoot : NodeIdx
  /-- NODE_COUNT (R37). -/
  nodeCount : BitVec 9
  /-- MAX_CODE_LEN (R38). -/
  maxCodeLen : BitVec 8
  /-- PAD bits 3:0 (R39). -/
  pad : BitVec 4
  /-- COUNT (R40). -/
  count : Counts
  /-- NODE (R41). -/
  node : Arena
  /-- CODE (R43). -/
  code : Codes
  /-- SYMBUF with its WRITTEN marks (R45, R51). -/
  symbuf : Memory
  /-- BITBUF with its WRITTEN marks (R46, R51). -/
  bitbuf : Memory
  /-- PKBUF with its WRITTEN marks (R47, R51). -/
  pkbuf : Memory
  /-- The reset input: true while asserted (R300, R301). -/
  resetPin : Bool
  /-- The turns still to come, first one next; when none is listed, only the engine can move (log 1). -/
  inputs : List Input
  /-- The answer to the latest host access, if any (R92, R93). -/
  bus : Option BusResponse
  /-- The number of free values drawn so far; the model's own field (log 5). -/
  freeCtr : Nat
  deriving DecidableEq, Repr

/-- R300: every register and array at its reset value, every buffer with no mark set, for an implementation with
parameters `p`. PENDING, which R300 leaves unspecified, is 0 (log 4); the model's own fields are empty. -/
def State.resetOf (p : Params) : State :=
  { par := p
    lastCmd := 0#32, pending := 0#32
    busy := false, err := false, ovf := false, treeValid := false, tableValid := false
    errCode := .noError, errInfo := 0#32
    intEn := 0#2, intStat := 0#2
    symLen := 0#32, bitLen := 0#32, pkLen := 0#32
    treeRoot := 0#9, nodeCount := 0#9, maxCodeLen := 0#8, pad := 0#4
    count := Vector.replicate 256 0#32
    node := Vector.replicate 511 none
    code := Vector.replicate 256 []
    symbuf := [], bitbuf := [], pkbuf := []
    resetPin := false, inputs := [], bus := none, freeCtr := 0 }

/-- The machine right after reset, the reset input released, with the default parameters of R5. -/
def State.reset : State := State.resetOf Params.default

/-- Why a step stops with a fault. -/
inductive Fault where
  /-- UNWRITTEN_READ (R286): raised by a command or a host read that reads a buffer byte whose WRITTEN mark is clear. The
  spec gives the read no value and says the state is not a valid final state. Safe: the hardware goes on, the model stops. -/
  | unwrittenRead (b : Buf) (off : Nat)
  /-- Raised by a host access while the reset input is asserted: R301 gives the host no step then and leaves the response
  unspecified (93_implementation_defined.md entry 9: stuck). Safe: the model stops. -/
  | accessInReset
  deriving DecidableEq, Repr

/-- Why a step is refused. -/
inductive Refusal where
  /-- An instruction without a meaning yet, raised in Dispatch.lean only; no arm uses it. Safe. -/
  | notModelled (mnemonic : String)
  deriving DecidableEq, Repr

end Sys2Proof.Machine
end

