-- ==== Sys2Proof/Machine/Flags.lean ====
section
/-! DEFINITION. The flag-like state of HCC: STATUS (10_state.md R25), the error codes (60_exceptions.md R270), INT_EN and
INT_STAT (R28, R29) and the interrupt output (R50, R284). -/

namespace Sys2Proof.Machine

/-- R270: the number STATUS.ERRCODE holds. -/
def ErrCode.code : ErrCode → BitVec 4
  | .noError => 0#4
  | .malformedStream => 1#4
  | .unknownSymbol => 2#4
  | .resource => 3#4
  | .illegalCommand => 4#4
  | .sequence => 5#4
  | .emptyHistogram => 6#4
  | .countOverflow => 7#4
  | .protocol => 8#4

/-- R25: the word a read of STATUS returns; bits 31:12 and 7:5 read 0. -/
def statusWord (s : State) : Word :=
  0#20 ++ s.errCode.code ++ 0#3 ++ BitVec.ofBool s.tableValid ++ BitVec.ofBool s.treeValid ++ BitVec.ofBool s.ovf
    ++ BitVec.ofBool s.err ++ BitVec.ofBool s.busy

/-- R29: INT_STAT.DONE, bit 0. -/
def doneBit : BitVec 2 := 1#2

/-- R29: INT_STAT.ERRI, bit 1. -/
def erriBit : BitVec 2 := 2#2

/-- R29: INT_STAT.DONE <- 1. -/
def setDone (v : BitVec 2) : BitVec 2 := v ||| doneBit

/-- R29: INT_STAT.ERRI <- 1. -/
def setErri (v : BitVec 2) : BitVec 2 := v ||| erriBit

/-- R29: a host write of w sets INT_STAT <- INT_STAT AND NOT (w AND 0x3). -/
def clearOnes (v : BitVec 2) (w : Word) : BitVec 2 := v &&& ~~~ w.extractLsb' 0 2

/-- R28: a host write of INT_EN keeps bits 1:0; the reserved bits 31:2 are ignored. -/
def intEnOf (w : Word) : BitVec 2 := w.extractLsb' 0 2

/-- R50, R284: the interrupt output, a function of INT_STAT and INT_EN. -/
def irq (s : State) : Bool := (s.intStat &&& s.intEn) != 0#2

end Sys2Proof.Machine
end

