-- ==== Sys2Proof/Machine/Ops.lean ====
section
/-! DEFINITION. The named operations of HCC: buffer bytes and bits (00_scope.md R7, R8; 20_memory.md R84, R85, R100), the
register arrays (10_state.md R34, R35, R40 to R43), recording an error and acknowledging it (60_exceptions.md R280, R281,
R283), and the end of a command (45_sequencer.md R230). -/

namespace Sys2Proof.Machine

/-! ### Buffers (R45 to R47, R51) -/

/-- The byte at an offset; none when its WRITTEN mark is clear (R51, R286). -/
def Memory.read : Memory → Nat → Option Byte
  | [], _ => none
  | (a, b) :: m, k => if a = k then some b else Memory.read m k

/-- R51, R87: store a byte and set its WRITTEN mark, keeping the listing in rising order of offset. -/
def Memory.write : Memory → Nat → Byte → Memory
  | [], k, v => [(k, v)]
  | (a, b) :: m, k, v =>
    if k < a then (k, v) :: (a, b) :: m
    else if k = a then (k, v) :: m
    else (a, b) :: Memory.write m k v

/-- Store bytes at consecutive offsets, one by one (R100). -/
def Memory.writeBytes : Memory → Nat → List Byte → Memory
  | m, _, [] => m
  | m, k, b :: bs => Memory.writeBytes (Memory.write m k b) (k + 1) bs

/-- The `n` bytes from offset `k`, each none when its mark is clear. -/
def Memory.readBytes (m : Memory) (k n : Nat) : List (Option Byte) :=
  (List.range n).map fun i => Memory.read m (k + i)

/-- The canonical form: offsets strictly rising. An unlisted offset reads as no value, so no listed entry can equal it. -/
def Memory.wf : Memory → Bool
  | [] => true
  | [_] => true
  | (a, _) :: (k, v) :: m => decide (a < k) && Memory.wf ((k, v) :: m)

/-- Every listed offset lies below the buffer's capacity (R100). -/
def Memory.below (cap : Nat) (m : Memory) : Bool := m.all fun c => decide (c.1 < cap)

/-! ### Bit sequences (R7, R82, R83, R85) -/

/-- R7: `zeros(k)`. -/
def zeros (k : Nat) : List Bool := List.replicate k false

/-- R7: `bits8(v)`, most significant bit first. -/
def bits8 (b : Byte) : List Bool :=
  [b.getLsbD 7, b.getLsbD 6, b.getLsbD 5, b.getLsbD 4, b.getLsbD 3, b.getLsbD 2, b.getLsbD 1, b.getLsbD 0]

/-- R7: the number a bit sequence spells, first bit most significant. -/
def bitsNat (x : List Bool) : Nat := x.foldl (fun v b => 2 * v + b.toNat) 0

/-- R7: `byte(x)` of an 8-bit sequence. -/
def byteOf (x : List Bool) : Byte := BitVec.ofNat 8 (bitsNat x)

/-- The first eight bits of a sequence, with zeros after its end (the zero tail of R85). -/
def firstEight (x : List Bool) : List Bool := x.take 8 ++ zeros (8 - x.length)

/-- The first `n` bytes of a bit sequence, eight bits each, most significant bit first (R83, R212). -/
def chunkBytes : Nat → List Bool → List Byte
  | 0, _ => []
  | n + 1, x => byteOf (firstEight x) :: chunkBytes n (x.drop 8)

/-- R85: the bytes that hold a bit sequence, ceil(L/8) of them, the unused tail bits zero. -/
def bitsToBytes (x : List Bool) : List Byte := chunkBytes ((x.length + 7) / 8) x

/-- R85: `BitRead(i)`, bit 7 - (i mod 8) of byte i div 8. -/
def Memory.bitRead (m : Memory) (i : Nat) : Option Bool :=
  (Memory.read m (i / 8)).map fun b => b.getLsbD (7 - i % 8)

/-- The first `n` bits of the sequence in a buffer. -/
def Memory.readBits (m : Memory) (n : Nat) : List (Option Bool) :=
  (List.range n).map (Memory.bitRead m)

/-- R85: a command writes a bit sequence from bit 0, with the zero tail of its last byte. -/
def Memory.writeBitSeq (m : Memory) (x : List Bool) : Memory := Memory.writeBytes m 0 (bitsToBytes x)

/-! ### Multi-byte values (R84) -/

/-- R84: the value of bytes in rising order of offset, the lowest offset least significant. -/
def leNat (bs : List Byte) : Nat := bs.foldr (fun b v => b.toNat + 256 * v) 0

/-- R84: the `n` bytes of a value, the least significant one first. DESIGN CHOICE (log 19): where the value does not fit `n` bytes,
which no rule speaks of, its higher bits are dropped. -/
def leBytes (n : Nat) (v : Word) : List Byte := (List.range n).map fun i => v.extractLsb' (8 * i) 8

/-- All values of a list of optional ones; otherwise the position of the first missing one, counted from `pos`. -/
def gather {α : Type} : Nat → List (Option α) → Except Nat (List α)
  | _, [] => .ok []
  | pos, none :: _ => .error pos
  | pos, some x :: r =>
    match gather (pos + 1) r with
    | .ok xs => .ok (x :: xs)
    | .error p => .error p

/-! ### Register arrays (R34, R35, R40 to R43) -/

/-- COUNT[s] (R40). -/
def countAt (cs : Counts) (s : Byte) : BitVec 32 := cs[s.toNat]'(s.isLt)

/-- COUNT[s] <- v (R40). -/
def countPut (cs : Counts) (s : Byte) (v : BitVec 32) : Counts := cs.set s.toNat v s.isLt

/-- The empty frequency map (R140). -/
def noCounts : Counts := Vector.replicate 256 0#32

/-- R34: NUM_SYMS, the number of symbols with COUNT[s] > 0. -/
def numSyms (cs : Counts) : Nat := cs.toList.countP fun v => v != 0#32

/-- R35: FC_TOTAL, the sum of all counters. -/
def fcTotal (cs : Counts) : Nat := (cs.toList.map BitVec.toNat).sum

/-- CODE_BITS[s] (R43). -/
def codeAt (t : Codes) (s : Byte) : List Bool := t[s.toNat]'(s.isLt)

/-- CODE_LEN[s] (R43); 0 means no entry. -/
def codeLen (t : Codes) (s : Byte) : Nat := (codeAt t s).length

/-- CODE_BITS[s] <- x, CODE_LEN[s] <- len(x). -/
def codePut (t : Codes) (s : Byte) (x : List Bool) : Codes := t.set s.toNat x s.isLt

/-- The empty code table (R43). -/
def noCodes : Codes := Vector.replicate 256 []

/-- NODE[i] (R41); index 511 names no entry. -/
def nodeAt (a : Arena) (i : NodeIdx) : Option Node := if h : i.toNat < 511 then a[i.toNat]'h else none

/-- The empty arena (R41). -/
def noNodes : Arena := Vector.replicate 511 none

/-! ### Errors (R280, R281, R283) -/

/-- R280, R281: recording error `e` with information word `info`. The first error wins, and sets INT_STAT.ERRI; while one is
recorded a further one only sets OVF. -/
def recordError (e : ErrCode) (info : Word) (s : State) : State :=
  if s.err then { s with ovf := true }
  else { s with err := true, errCode := e, errInfo := info, intStat := setErri s.intStat }

/-- R280: a failed output: its length register 0 and every WRITTEN mark of its buffer cleared. -/
def clearOutput (b : Buf) (s : State) : State :=
  match b with
  | .symbuf => { s with symbuf := [], symLen := 0#32 }
  | .bitbuf => { s with bitbuf := [], bitLen := 0#32 }
  | .pkbuf => { s with pkbuf := [], pkLen := 0#32 }

/-- R280: `clearOutput` for each buffer listed. -/
def clearOutputs : List Buf → State → State
  | [], s => s
  | b :: bs, s => clearOutputs bs (clearOutput b s)

/-- R280: `raise E(info)` in a command, the way HCC takes an exception: the error is recorded, the outputs named are cleared,
and STATUS.BUSY becomes 0 without INT_STAT.DONE. R285: no control is transferred and nothing is saved. -/
def raiseError (e : ErrCode) (info : Word) (outs : List Buf) (s : State) : State :=
  { clearOutputs outs (recordError e info s) with busy := false }

/-- R283, R288: acknowledging the recorded error (ERRACK), the return from one; INT_STAT is not touched. -/
def ackError (s : State) : State :=
  { s with err := false, errCode := .noError, ovf := false, errInfo := 0#32 }

/-- R230: a command completes without error: BUSY <- 0, INT_STAT.DONE <- 1. -/
def complete (s : State) : State := { s with busy := false, intStat := setDone s.intStat }

/-! ### The course of a command (R8, R230, R235, R280, R286) -/

/-- Why a loop of a command stops early. -/
inductive Stop where
  | raise (e : ErrCode) (info : Word)
  | unwritten (b : Buf) (off : Nat)
  deriving DecidableEq, Repr

/-- What performing a command, or one step of a macro, comes to: done, an error with the outputs R280 clears for it and the
state the command has reached, or a read of an unwritten byte (R286). -/
inductive Perf where
  | done (s : State)
  | raised (e : ErrCode) (info : Word) (outs : List Buf) (s : State)
  | unwritten (b : Buf) (off : Nat)
  deriving DecidableEq, Repr

/-- A stopped loop, in a command with the outputs `outs` that has reached state `s`. -/
def Stop.toPerf (outs : List Buf) (s : State) : Stop → Perf
  | .raise e info => .raised e info outs s
  | .unwritten b off => .unwritten b off

/-- R235: the next step of a macro, run only when the steps before it were done. -/
def Perf.andThen (p : Perf) (f : State → Perf) : Perf :=
  match p with
  | .done s => f s
  | .raised e info outs s => .raised e info outs s
  | .unwritten b off => .unwritten b off

/-- R235: on an error of a step, the macro's final output is cleared as well. -/
def Perf.withFinalOutput (b : Buf) (p : Perf) : Perf :=
  match p with
  | .done s => .done s
  | .raised e info outs s => .raised e info (outs ++ [b]) s
  | .unwritten b' off => .unwritten b' off

/-- R230, R280, R286: the end of the engine step. -/
def Perf.finish (p : Perf) : Host.Outcome State Fault Refusal :=
  match p with
  | .done s => .next (complete s)
  | .raised e info outs s => .next (raiseError e info outs s)
  | .unwritten b off => .fault (.unwrittenRead b off)

end Sys2Proof.Machine
end

