-- ==== Sys2Proof/Machine/Operands.lean ====
section
/-! DEFINITION. The operands of commands (30_encoding.md R114; 20_memory.md R100) and of host accesses: widths, alignment,
the aperture map and the busy-safe set (20_memory.md R81, R86 to R91). -/

namespace Sys2Proof.Machine

/-! ### Command operands -/

/-- R114, R142: the first N lanes of FC_ADD, in ascending lane order; a lane's symbol is always there. -/
def lanes (syms : List Byte) : List (Option Byte) := syms.map some

/-- R144, R200: SYMBUF[0..SYM_LEN). -/
def symInput (s : State) : List (Option Byte) := Memory.readBytes s.symbuf 0 s.symLen.toNat

/-- R212, R250: the bits BitRead(0), ..., BitRead(BIT_LEN - 1). -/
def bitInput (s : State) : List (Option Bool) := Memory.readBits s.bitbuf s.bitLen.toNat

/-- R215: the payload bytes PKBUF[1..PK_LEN). -/
def payloadInput (s : State) : List (Option Byte) := Memory.readBytes s.pkbuf 1 (s.pkLen.toNat - 1)

/-! ### Buffers as the bus sees them -/

/-- R45 to R47: a buffer's capacity in bytes. -/
def Buf.capacity (p : Params) : Buf → Nat
  | .symbuf => p.symCap
  | .bitbuf => p.bitCap / 8
  | .pkbuf => p.pkCap

/-- A buffer's content. -/
def Buf.content (s : State) : Buf → Memory
  | .symbuf => s.symbuf
  | .bitbuf => s.bitbuf
  | .pkbuf => s.pkbuf

/-- The state with a buffer's content replaced. -/
def Buf.put (s : State) (m : Memory) : Buf → State
  | .symbuf => { s with symbuf := m }
  | .bitbuf => { s with bitbuf := m }
  | .pkbuf => { s with pkbuf := m }

/-! ### Access widths -/

/-- R80: 1, 2 or 4 bytes. -/
def Width.bytes : Width → Nat
  | .byte => 1
  | .half => 2
  | .word => 4

/-! ### The aperture map (R81) -/

/-- The registers of the register page (R21). -/
inductive Reg where
  | id | symCapR | bitCapR | pkCapR | cmd | status | errInfo | errAck | intEn | intStat
  | symLen | bitLen | pkLen | numSyms | fcTotalLo | fcTotalHi | treeRoot | nodeCount | maxCodeLen | pad
  deriving DecidableEq, Repr

/-- R21: the offset of each register. -/
def regMap : List (Nat × Reg) :=
  [(0x000, .id), (0x004, .symCapR), (0x008, .bitCapR), (0x00C, .pkCapR), (0x010, .cmd), (0x014, .status),
   (0x018, .errInfo), (0x01C, .errAck), (0x020, .intEn), (0x024, .intStat)] ++
  [(0x028, .symLen), (0x02C, .bitLen), (0x030, .pkLen), (0x034, .numSyms), (0x038, .fcTotalLo), (0x03C, .fcTotalHi),
   (0x040, .treeRoot), (0x044, .nodeCount), (0x048, .maxCodeLen), (0x04C, .pad)]

/-- What an access reaches (R81): a register, a counter, a word of a code entry, a word of a node entry, a reserved
(RAZ/WI) offset, or bytes of a buffer from a byte index. -/
inductive Target where
  | reg (r : Reg)
  | count (s : Byte)
  | code (s : Byte) (k : Nat)
  | node (i : NodeIdx) (k : Nat)
  | reserved
  | buffer (b : Buf) (idx : Nat)
  deriving DecidableEq, Repr

/-- R21, R89: the register at an offset of the register page; 0x050 to 0x0FF are reserved. -/
def regTarget (off : Nat) : Target :=
  match regMap.lookup off with
  | some r => .reg r
  | none => .reserved

/-- R81: the rows below offset 0x0001_0000, for a word-aligned offset. -/
def lowTarget (off : Nat) : Target :=
  if off < 0x100 then regTarget off
  else if off < 0x400 then .reserved
  else if off < 0x800 then .count (BitVec.ofNat 8 ((off - 0x400) / 4))
  else if off < 0x1000 then .reserved
  else if off < 0x5000 then .code (BitVec.ofNat 8 ((off - 0x1000) / 64)) (off / 4 % 16)
  else if off < 0x8000 then .reserved
  else if off < 0x9FF0 then .node (BitVec.ofNat 9 ((off - 0x8000) / 16)) (off / 4 % 4)
  else .reserved

/-- R81: the buffer at the 16 MiB block of an offset. -/
def blockBuf (off : Nat) : Option Buf :=
  if off < 0x1000000 then none
  else if off < 0x2000000 then some .symbuf
  else if off < 0x3000000 then some .bitbuf
  else some .pkbuf

/-- R81, R86, R88: what an access reaches; none is a bus error. A misaligned access, an access of the registers and windows
that is not a word, and an access any byte of which is unmapped reach nothing. -/
def target (p : Params) (off : Offset) (w : Width) : Option Target :=
  if off.toNat % w.bytes ≠ 0 then none
  else if off.toNat < 0x10000 then
    (if w = .word then some (lowTarget off.toNat) else none)
  else
    match blockBuf off.toNat with
    | none => none
    | some b =>
      if off.toNat % 0x1000000 + w.bytes ≤ b.capacity p then some (.buffer b (off.toNat % 0x1000000)) else none

/-- R91: the reads served while BUSY = 1. -/
def busySafeRead : Target → Bool
  | .reg .id => true
  | .reg .symCapR => true
  | .reg .bitCapR => true
  | .reg .pkCapR => true
  | .reg .cmd => true
  | .reg .status => true
  | .reg .errInfo => true
  | .reg .intEn => true
  | .reg .intStat => true
  | .reserved => true
  | _ => false

/-- R91: the writes served while BUSY = 1. -/
def busySafeWrite : Target → Bool
  | .reg .intEn => true
  | .reg .intStat => true
  | .reg .errAck => true
  | .reserved => true
  | _ => false

end Sys2Proof.Machine
end

