-- ==== Sys2Proof/Machine/Counter.lean ====
section
/-! DEFINITION. The frequency counter: FC_CLEAR, FC_ADD, FC_SCAN (40_frequency_counter.md R140 to R151). -/

namespace Sys2Proof.Machine

/-- R141: the largest value of a counter, which no increment passes. -/
def countMax : BitVec 32 := 0xFFFFFFFF#32

/-- R141: one increment, when the counter is below `countMax`. -/
def countBump (cs : Counts) (s : Byte) : Counts := countPut cs s (countAt cs s + 1#32)

/-- R141, R142, R144: the increments for symbols in order, from position (or lane) `pos` on. It stops at the first symbol whose
counter is at 2^32 - 1, with the increments before it applied, and at the first unwritten byte of SYMBUF. -/
def countSymbols : Counts → Nat → List (Option Byte) → Counts × Option Stop
  | cs, _, [] => (cs, none)
  | cs, pos, none :: _ => (cs, some (.unwritten .symbuf pos))
  | cs, pos, some s :: r =>
    if countAt cs s = countMax then (cs, some (.raise .countOverflow (BitVec.ofNat 32 pos)))
    else countSymbols (countBump cs s) (pos + 1) r

/-- R142, R144: counting symbols into COUNT; these commands have no output that R280 clears. -/
def perfCount (syms : List (Option Byte)) (s : State) : Perf :=
  match countSymbols s.count 0 syms with
  | (cs, none) => .done { s with count := cs }
  | (cs, some st) => st.toPerf [] { s with count := cs }

/-- R140: FC_CLEAR. -/
def perfFcClear (s : State) : Perf := .done { s with count := noCounts }

/-- R144: FC_SCAN. -/
def perfFcScan (s : State) : Perf := perfCount (symInput s) s

/-- FC_CLEAR (R140). -/
def execFcClear (s : State) : Host.Outcome State Fault Refusal := (perfFcClear s).finish

/-- FC_ADD with N = 1 (R142). -/
def execFcAdd1 (s0 : Byte) (s : State) : Host.Outcome State Fault Refusal := (perfCount (lanes [s0]) s).finish

/-- FC_ADD with N = 2 (R142, R143). -/
def execFcAdd2 (s0 s1 : Byte) (s : State) : Host.Outcome State Fault Refusal := (perfCount (lanes [s0, s1]) s).finish

/-- FC_ADD with N = 3 (R142, R143). -/
def execFcAdd3 (s0 s1 s2 : Byte) (s : State) : Host.Outcome State Fault Refusal :=
  (perfCount (lanes [s0, s1, s2]) s).finish

/-- FC_SCAN (R144). -/
def execFcScan (s : State) : Host.Outcome State Fault Refusal := (perfFcScan s).finish

end Sys2Proof.Machine
end

