-- ==== Sys2Proof/Machine/CodeTable.lean ====
section
/-! DEFINITION. The code table generator: CT_GEN (42_code_table.md R180 to R188), and the reverse mapping REV (R181). -/

namespace Sys2Proof.Machine

/-- R183: the walk from a node reached by `path`, "0" on the way left and "1" on the way right; a leaf's symbol gets the path.
The spec's explicit stack and this recursion visit the same leaves, left before right, and "the result does not depend on the
visiting order" (R183). `fuel` bounds the depth: 256 levels hold every path of a built tree (R168), and an empty entry or a
deeper path, which no built tree has (R164), assigns nothing (log 9). -/
def walk (a : Arena) : Nat → NodeIdx → List Bool → Codes → Codes
  | 0, _, _, t => t
  | fuel + 1, i, path, t =>
    match nodeAt a i with
    | none => t
    | some (.leaf sym _) => codePut t sym path
    | some (.internal _ l r) => walk a fuel r (path ++ [true]) (walk a fuel l (path ++ [false]) t)

/-- R182, R184: the table of a tree. A root that is a leaf gives its symbol the code "0". -/
def codeTable (a : Arena) (root : NodeIdx) : Codes :=
  match nodeAt a root with
  | some (.leaf sym _) => codePut noCodes sym [false]
  | _ => walk a 256 root [] noCodes

/-- R182, R38: the largest CODE_LEN[s] over all s. -/
def maxLen (t : Codes) : Nat := (t.toList.map List.length).foldl max 0

/-- R181: REV(x), the symbol whose code is `x`. In a generated table no two symbols share a code (R185). -/
def rev (t : Codes) (x : List Bool) : Option Byte :=
  if x = [] then none else (t.toList.findIdx? fun y => y == x).map (BitVec.ofNat 8)

/-- R182: the table of the current tree, entered into CODE. -/
def installTable (s : State) : State :=
  { s with
    code := codeTable s.node s.treeRoot
    maxCodeLen := BitVec.ofNat 8 (maxLen (codeTable s.node s.treeRoot))
    tableValid := true }

/-- R182, R275: CT_GEN; its word is the information of SEQUENCE, and nothing else changes then. -/
def perfCtGen (s : State) : Perf :=
  if s.treeValid then .done (installTable s) else .raised .sequence 0x60000000#32 [] s

/-- CT_GEN (R182). -/
def execCtGen (s : State) : Host.Outcome State Fault Refusal := (perfCtGen s).finish

end Sys2Proof.Machine
end

