-- ==== Sys2Proof/Machine/Decoder.lean ====
section
/-! DEFINITION. Decoding: DECODE (46_decoding_unit.md R250 to R255). -/

namespace Sys2Proof.Machine

/-- R250, R251: the loop over bits from position `pos`: `buf` is the current code, begun at bit `start`, and `out` the symbols
emitted. The first match is taken. -/
def decodeFrom (t : Codes) (symCap : Nat) :
    Nat → Nat → List Bool → List Byte → List (Option Bool) → Except Stop (List Byte)
  | _, start, buf, out, [] =>
    if buf = [] then .ok out else .error (.raise .malformedStream (BitVec.ofNat 32 start))
  | pos, _, _, _, none :: _ => .error (.unwritten .bitbuf (pos / 8))
  | pos, start, buf, out, some b :: r =>
    let start' := if buf = [] then pos else start
    match rev t (buf ++ [b]) with
    | none => decodeFrom t symCap (pos + 1) start' (buf ++ [b]) out r
    | some sym =>
      if out.length = symCap then .error (.raise .resource (BitVec.ofNat 32 pos))
      else decodeFrom t symCap (pos + 1) start' [] (out ++ [sym]) r

/-- R250: the decoded symbols become the content of SYMBUF from byte 0, and SYM_LEN their number. -/
def putSymbols (syms : List Byte) (s : State) : State :=
  { s with symbuf := Memory.writeBytes s.symbuf 0 syms, symLen := BitVec.ofNat 32 syms.length }

/-- R250, R275, R280: DECODE; SEQUENCE comes before anything changes; every error clears SYMBUF and SYM_LEN (log 6). -/
def perfDecode (s : State) : Perf :=
  if s.tableValid then
    match decodeFrom s.code s.par.symCap 0 0 [] [] (bitInput s) with
    | .ok syms => .done (putSymbols syms s)
    | .error st => st.toPerf [.symbuf] s
  else .raised .sequence 0xA0000000#32 [.symbuf] s

/-- DECODE (R250). -/
def execDecode (s : State) : Host.Outcome State Fault Refusal := (perfDecode s).finish

end Sys2Proof.Machine
end

