-- ==== Sys2Proof/Machine/Encoder.lean ====
section
/-! DEFINITION. Encoding: ENCODE (43_encoding_unit.md R200 to R203). -/

namespace Sys2Proof.Machine

/-- R200: the loop over symbols from position `pos`, with the bits `out` written so far. -/
def encodeFrom (t : Codes) (bitCap : Nat) : Nat → List Bool → List (Option Byte) → Except Stop (List Bool)
  | _, out, [] => .ok out
  | pos, _, none :: _ => .error (.unwritten .symbuf pos)
  | pos, out, some s :: r =>
    if codeLen t s = 0 then .error (.raise .unknownSymbol (BitVec.ofNat 32 pos))
    else if bitCap < out.length + codeLen t s then .error (.raise .resource (BitVec.ofNat 32 pos))
    else encodeFrom t bitCap (pos + 1) (out ++ codeAt t s) r

/-- R85, R200, R215: a bit sequence becomes the content of BITBUF from bit 0, and BIT_LEN its length. -/
def putBits (x : List Bool) (s : State) : State :=
  { s with bitbuf := Memory.writeBitSeq s.bitbuf x, bitLen := BitVec.ofNat 32 x.length }

/-- R200, R275, R280: ENCODE; SEQUENCE comes before anything changes; every error clears BITBUF and BIT_LEN (log 6). -/
def perfEncode (s : State) : Perf :=
  if s.tableValid then
    match encodeFrom s.code s.par.bitCap 0 [] (symInput s) with
    | .ok x => .done (putBits x s)
    | .error st => st.toPerf [.bitbuf] s
  else .raised .sequence 0x70000000#32 [.bitbuf] s

/-- ENCODE (R200). -/
def execEncode (s : State) : Host.Outcome State Fault Refusal := (perfEncode s).finish

end Sys2Proof.Machine
end

