-- ==== Sys2Proof/Machine/Packer.lean ====
section
/-! DEFINITION. The bit packer: PACK and UNPACK (44_bit_packer.md R210 to R219). -/

namespace Sys2Proof.Machine

/-- R210: pad(L) = 8 - (L mod 8), from 1 to 8. -/
def padCount (len : Nat) : Nat := 8 - len % 8

/-- R212: the length in bytes of the packed stream of `len` bits, with its header. -/
def packedLen (len : Nat) : Nat := 1 + (len + padCount len) / 8

/-- R212: the packed stream of a bit sequence: the header byte, then the bits and their zero padding, most significant bit
first. -/
def packedStream (x : List Bool) : List Byte :=
  BitVec.ofNat 8 (padCount x.length)
    :: chunkBytes (packedLen x.length - 1) (x ++ zeros (padCount x.length))

/-- R212: the packed stream enters PKBUF. -/
def putPacked (x : List Bool) (s : State) : State :=
  { s with
    pkbuf := Memory.writeBytes s.pkbuf 0 (packedStream x)
    pkLen := BitVec.ofNat 32 (packedLen x.length)
    pad := BitVec.ofNat 4 (padCount x.length) }

/-- R212, R280: PACK. -/
def perfPack (s : State) : Perf :=
  if s.par.pkCap < packedLen s.bitLen.toNat then
    .raised .resource (BitVec.ofNat 32 (packedLen s.bitLen.toNat)) [.pkbuf] s
  else
    match gather 0 (bitInput s) with
    | .error i => .unwritten .bitbuf (i / 8)
    | .ok x => .done (putPacked x s)

/-- PACK (R212). -/
def execPack (s : State) : Host.Outcome State Fault Refusal := (perfPack s).finish

/-- R215: what UNPACK makes of the payload bytes: the first `len` of their bits, and the header as PAD. -/
def putUnpacked (header : Byte) (len : Nat) (payload : List Byte) (s : State) : State :=
  { putBits ((payload.flatMap bits8).take len) s with pad := BitVec.ofNat 4 header.toNat }

/-- R215: MALFORMED_STREAM and RESOURCE of UNPACK clear BITBUF and BIT_LEN (R280). -/
def unpackError (e : ErrCode) (info : Nat) (s : State) : Perf := .raised e (BitVec.ofNat 32 info) [.bitbuf] s

/-- R214, R215: UNPACK past the check for an empty stream, with the header byte read. -/
def unpackWith (header : Byte) (s : State) : Perf :=
  let rem := 8 * (s.pkLen.toNat - 1)
  if 8 < header.toNat then unpackError .malformedStream header.toNat s
  else if rem < header.toNat then unpackError .malformedStream header.toNat s
  else if s.par.bitCap < rem - header.toNat then unpackError .resource (rem - header.toNat) s
  else
    match gather 1 (payloadInput s) with
    | .error i => .unwritten .pkbuf i
    | .ok payload => .done (putUnpacked header (rem - header.toNat) payload s)

/-- R214, R215: UNPACK. -/
def perfUnpack (s : State) : Perf :=
  if s.pkLen.toNat = 0 then unpackError .malformedStream 0 s
  else
    match Memory.read s.pkbuf 0 with
    | none => .unwritten .pkbuf 0
    | some header => unpackWith header s

/-- UNPACK (R215). -/
def execUnpack (s : State) : Host.Outcome State Fault Refusal := (perfUnpack s).finish

end Sys2Proof.Machine
end

