-- ==== Sys2Proof/Machine/Tree.lean ====
section
/-! DEFINITION. The tree builder: TB_BUILD (41_tree_builder.md R160 to R170). -/

namespace Sys2Proof.Machine

/-- A member of the priority set Q (R162): a node's frequency and its arena index. -/
structure QEntry where
  freq : Freq
  idx : Nat
  deriving DecidableEq, Repr

/-- R162, R163, R169: key(a) < key(b), the frequency first and the arena index between equal frequencies. -/
def keyLt (a b : QEntry) : Bool := a.freq.toNat < b.freq.toNat || (a.freq.toNat == b.freq.toNat && a.idx < b.idx)

/-- R162: the argmin of key over `best` and a list, and what is left of the set without it. -/
def extractMin : QEntry → List QEntry → QEntry × List QEntry
  | best, [] => (best, [])
  | best, x :: xs =>
    if keyLt x best then ((extractMin x xs).1, best :: (extractMin x xs).2)
    else ((extractMin best xs).1, x :: (extractMin best xs).2)

/-- R162: the leaves, in ascending symbol order, of the counters from symbol `sym` on. -/
def leavesFrom : Nat → List (BitVec 32) → List Node
  | _, [] => []
  | sym, c :: r =>
    if c = 0#32 then leavesFrom (sym + 1) r
    else .leaf (BitVec.ofNat 8 sym) (c.setWidth 40) :: leavesFrom (sym + 1) r

/-- A node's FREQ (R41). -/
def Node.freq : Node → Freq
  | .leaf _ f => f
  | .internal f _ _ => f

/-- R162: the set Q of nodes at arena indices from `i` on. -/
def queueFrom : Nat → List Node → List QEntry
  | _, [] => []
  | i, n :: r => { freq := n.freq, idx := i } :: queueFrom (i + 1) r

/-- R162: the merge loop, at most `fuel` merges. While Q has two members, the two of smallest key become the children, the
first extracted LEFT and the second RIGHT, of a new node at the next arena index, which joins Q. The answer is the arena and
the index of the last member of Q, the root. -/
def mergeLoop : Nat → QEntry → List QEntry → List Node → List Node × Nat
  | 0, q, _, nodes => (nodes, q.idx)
  | fuel + 1, q, qs, nodes =>
    match extractMin q qs with
    | (a, []) => (nodes, a.idx)
    | (a, x :: xs) =>
      let b := (extractMin x xs).1
      let rest := (extractMin x xs).2
      let sum := a.freq + b.freq
      mergeLoop fuel { freq := sum, idx := nodes.length } rest
        (nodes ++ [.internal sum (BitVec.ofNat 9 a.idx) (BitVec.ofNat 9 b.idx)])

/-- R162: `build(COUNT)`: the nodes by arena index, and the root's index. -/
def build (cs : Counts) : List Node × Nat :=
  match queueFrom 0 (leavesFrom 0 cs.toList) with
  | [] => ([], 0)
  | q :: qs => mergeLoop qs.length q qs (leavesFrom 0 cs.toList)

/-- R161: NODE[0..2n-1) <- nodes, the entries above empty. -/
def arenaOf (nodes : List Node) : Arena :=
  ⟨((List.range 511).map fun i => nodes[i]?).toArray, by simp⟩

/-- R161: the clearing TB_BUILD starts with, which stays when it raises EMPTY_HISTOGRAM. -/
def clearTables (s : State) : State :=
  { s with
    treeValid := false, tableValid := false, code := noCodes, maxCodeLen := 0#8
    nodeCount := 0#9, treeRoot := 0#9, node := noNodes }

/-- R161: the tree of a frequency map, entered into the arena. -/
def installTree (cs : Counts) (s : State) : State :=
  { s with
    node := arenaOf (build cs).1
    nodeCount := BitVec.ofNat 9 (2 * numSyms cs - 1)
    treeRoot := BitVec.ofNat 9 (build cs).2
    treeValid := true }

/-- R161: TB_BUILD. -/
def perfTbBuild (s : State) : Perf :=
  if numSyms s.count = 0 then .raised .emptyHistogram 0#32 [] (clearTables s)
  else .done (installTree s.count (clearTables s))

/-- TB_BUILD (R161). -/
def execTbBuild (s : State) : Host.Outcome State Fault Refusal := (perfTbBuild s).finish

end Sys2Proof.Machine
end

