-- ==== Sys2Proof/Machine/Sequencer.lean ====
section
/-! DEFINITION. The command sequencer: NOP, CLEAR, COMPRESS, DECOMPRESS (45_sequencer.md R233 to R240), command issue (R231),
the command the engine's step performs (R230), an illegal word (R116, R276), whose turn is next (00_scope.md R9) and reset
(70_reset_and_hazards.md R300, R301). -/

namespace Sys2Proof.Machine

/-- NOP (R233). -/
def execNop (s : State) : Host.Outcome State Fault Refusal := (Perf.done s).finish

/-- R234: every register of R21 but INT_EN at its reset value, the tables empty; the buffers keep their bytes and marks. -/
def cleared (s : State) : State :=
  { s with
    lastCmd := 0#32
    busy := false, err := false, ovf := false, treeValid := false, tableValid := false
    errCode := .noError, errInfo := 0#32, intStat := 0#2
    symLen := 0#32, bitLen := 0#32, pkLen := 0#32
    treeRoot := 0#9, nodeCount := 0#9, maxCodeLen := 0#8, pad := 0#4
    count := noCounts, node := noNodes, code := noCodes }

/-- CLEAR (R234). -/
def execClear (s : State) : Host.Outcome State Fault Refusal := (Perf.done (cleared s)).finish

/-- R236: the six steps of COMPRESS, each run when those before it were done. -/
def compressSteps (s : State) : Perf :=
  (((((perfFcClear s).andThen perfFcScan).andThen perfTbBuild).andThen perfCtGen).andThen perfEncode).andThen perfPack

/-- R235, R236: COMPRESS. -/
def perfCompress (s : State) : Perf := (compressSteps s).withFinalOutput .pkbuf

/-- COMPRESS (R236). -/
def execCompress (s : State) : Host.Outcome State Fault Refusal := (perfCompress s).finish

/-- R238: the two steps of DECOMPRESS. -/
def decompressSteps (s : State) : Perf := (perfUnpack s).andThen perfDecode

/-- R238, R235, R280: DECOMPRESS. The table is checked before the steps, and SEQUENCE, which no step raised, changes nothing else; an
error of a step clears SYMBUF and SYM_LEN, the final output, as well. -/
def perfDecompress (s : State) : Perf :=
  if s.tableValid then (decompressSteps s).withFinalOutput .symbuf else .raised .sequence 0xC0000000#32 [] s

/-- DECOMPRESS (R238). -/
def execDecompress (s : State) : Host.Outcome State Fault Refusal := (perfDecompress s).finish

/-- R116, R230, R276: the engine's step for a word that is not legal. -/
def illegalCommand (w : Word) (s : State) : Host.Outcome State Fault Refusal :=
  (Perf.raised .illegalCommand w [] s).finish

/-- R231: only CLEAR passes a recorded error. -/
def clearWord : Word := 0x10000000#32

/-- R231: a write of CMD that reaches the register. -/
def issue (w : Word) (s : State) : State :=
  if s.err = true ∧ w ≠ clearWord then { s with ovf := true }
  else { s with pending := w, lastCmd := w, busy := true }

/-- R230: the word the engine performs at its turn: PENDING while BUSY = 1. It has no step while BUSY = 0, nor while the reset
input is asserted (R300). -/
def fetch (s : State) : Option Word := if s.busy = true ∧ s.resetPin = false then some s.pending else none

/-- R9: the turn that is taken next, and the turns left after it. When none is listed it is the engine's, so that a command in
flight is performed eventually (R311). -/
def nextTurn (s : State) : Input × List Input :=
  match s.inputs with
  | [] => (.engine, [])
  | i :: rest => (i, rest)

/-- R300: asserting the reset input, whatever HCC was doing. The turns still to come and the model's counter of free values
are not HCC's, and stay. -/
def assertReset (s : State) : State :=
  { State.resetOf s.par with resetPin := true, inputs := s.inputs, freeCtr := s.freeCtr }

/-- R301: the platform ends the reset. -/
def releaseReset (s : State) : State := { s with resetPin := false }

/-- The state whose next turn is the engine's with command word `w` in flight, as an accepted issue of `w` leaves it (R231). -/
def loadCommand (w : Word) (s : State) : State :=
  { s with pending := w, lastCmd := w, busy := true, resetPin := false, inputs := .engine :: s.inputs }

end Sys2Proof.Machine
end

