-- ==== Sys2Proof/Machine/Bus.lean ====
section
/-! DEFINITION. Host accesses (20_memory.md R80 to R94): their resolution (R90), what reads return and what writes do
(10_state.md R21 to R47). -/

namespace Sys2Proof.Machine

/-! ### What a read returns -/

/-- R21 to R39: the value of a register. -/
def readReg (s : State) : Reg → Word
  | .id => Config.idWord
  | .symCapR => BitVec.ofNat 32 s.par.symCap
  | .bitCapR => BitVec.ofNat 32 s.par.bitCap
  | .pkCapR => BitVec.ofNat 32 s.par.pkCap
  | .cmd => s.lastCmd
  | .status => statusWord s
  | .errInfo => s.errInfo
  | .errAck => 0#32
  | .intEn => s.intEn.setWidth 32
  | .intStat => s.intStat.setWidth 32
  | .symLen => s.symLen
  | .bitLen => s.bitLen
  | .pkLen => s.pkLen
  | .numSyms => BitVec.ofNat 32 (numSyms s.count)
  | .fcTotalLo => BitVec.ofNat 32 (fcTotal s.count)
  | .fcTotalHi => BitVec.ofNat 32 (fcTotal s.count % 2 ^ 40 / 2 ^ 32)
  | .treeRoot => s.treeRoot.setWidth 32
  | .nodeCount => s.nodeCount.setWidth 32
  | .maxCodeLen => s.maxCodeLen.setWidth 32
  | .pad => s.pad.setWidth 32

/-- R44: the 32 bits of a code from bit `32 k` on, first bit most significant, zeros after the code's end. -/
def codeBitsWord (x : List Bool) (k : Nat) : Word :=
  BitVec.ofNat 32 (bitsNat ((x.drop (32 * k)).take 32 ++ zeros (32 - (x.drop (32 * k)).length)))

/-- R44: word `k` of the CODE entry of a symbol. -/
def codeWord (x : List Bool) (k : Nat) : Word :=
  if k = 0 then BitVec.ofNat 32 (x.length % 256)
  else if k ≤ 8 then codeBitsWord x (k - 1)
  else 0#32

/-- R42: word `k` of a NODE entry; an empty entry reads 0. INUSE says whether the index is below NODE_COUNT. -/
def nodeWord (inUse : Bool) (n : Option Node) (k : Nat) : Word :=
  match n with
  | none => 0#32
  | some (.leaf sym f) =>
    if k = 0 then f.extractLsb' 0 32
    else if k = 1 then BitVec.ofBool inUse ++ 0#1 ++ 0#22 ++ f.extractLsb' 32 8
    else if k = 2 then sym.setWidth 32
    else 0#32
  | some (.internal f l r) =>
    if k = 0 then f.extractLsb' 0 32
    else if k = 1 then BitVec.ofBool inUse ++ 1#1 ++ 0#22 ++ f.extractLsb' 32 8
    else if k = 2 then l.setWidth 32
    else r.setWidth 32

/-- R84, R87, R286: the bytes of a buffer as a little-endian value. An unwritten byte has none: the first one's buffer and
offset are the fault. -/
def readBuf (s : State) (b : Buf) (idx : Nat) (w : Width) : Except Fault Word :=
  match gather idx (Memory.readBytes (b.content s) idx w.bytes) with
  | .ok bs => .ok (BitVec.ofNat 32 (leNat bs))
  | .error i => .error (.unwrittenRead b i)

/-- R90 case 3, R93: what a read that is performed returns; it changes nothing. -/
def readTarget (s : State) (w : Width) : Target → Except Fault Word
  | .reg r => .ok (readReg s r)
  | .count sym => .ok (countAt s.count sym)
  | .code sym k => .ok (codeWord (codeAt s.code sym) k)
  | .node i k => .ok (nodeWord (i.ult s.nodeCount) (nodeAt s.node i) k)
  | .reserved => .ok 0#32
  | .buffer b idx => readBuf s b idx w

/-! ### What a write does -/

/-- R33: a write of a length register: stored when at most the capacity, otherwise RESOURCE with the value. -/
def writeLen (cap : Nat) (v : Word) (s t : State) : State :=
  if v.toNat ≤ cap then t else recordError .resource v s

/-- R21 to R33, R89: a write of a register; read-only ones ignore it. -/
def writeReg (v : Word) (s : State) : Reg → State
  | .id => s
  | .symCapR => s
  | .bitCapR => s
  | .pkCapR => s
  | .cmd => issue v s
  | .status => s
  | .errInfo => s
  | .errAck => if v.getLsbD 0 then ackError s else s
  | .intEn => { s with intEn := intEnOf v }
  | .intStat => { s with intStat := clearOnes s.intStat v }
  | .symLen => writeLen s.par.symCap v s { s with symLen := v }
  | .bitLen => writeLen s.par.bitCap v s { s with bitLen := v }
  | .pkLen => writeLen s.par.pkCap v s { s with pkLen := v }
  | .numSyms => s
  | .fcTotalLo => s
  | .fcTotalHi => s
  | .treeRoot => s
  | .nodeCount => s
  | .maxCodeLen => s
  | .pad => s

/-- R90 case 3: a write that is performed. The CODE and NODE windows and reserved offsets ignore it (R89). DESIGN CHOICE (log 19): the
value of every write is a 32-bit word, and a buffer write of 1 or 2 bytes takes its low bytes; R80 does not size the value. -/
def writeTarget (w : Width) (v : Word) (s : State) : Target → State
  | .reg r => writeReg v s r
  | .count sym => { s with count := countPut s.count sym v }
  | .code _ _ => s
  | .node _ _ => s
  | .reserved => s
  | .buffer b idx => b.put s (Memory.writeBytes (b.content s) idx (leBytes w.bytes v))

/-! ### The answer on the bus -/

/-- R92: the answer to a read that gets BERR has data 0. -/
def berrRead : BusResponse := { berr := true, data := some 0#32 }
def berrWrite : BusResponse := { berr := true, data := none }
def readAnswer (v : Word) : BusResponse := { berr := false, data := some v }
def writeAnswer : BusResponse := { berr := false, data := none }

/-- The state with the answer to an access on the bus. -/
def answer (r : BusResponse) (s : State) : State := { s with bus := some r }

/-- R90 case 2, R278: an access outside the busy-safe set while BUSY = 1 records PROTOCOL with its offset. -/
def protocolError (off : Offset) (s : State) : State := recordError .protocol (off.setWidth 32) s

/-- R90: a host read. While the reset input is asserted the host has no step (R301). -/
def hostRead (off : Offset) (w : Width) (s : State) : Host.Outcome State Fault Refusal :=
  if s.resetPin then .fault .accessInReset
  else
    match target s.par off w with
    | none => .next (answer berrRead s)
    | some t =>
      if s.busy = true ∧ busySafeRead t = false then
        .next (answer (readAnswer (Config.freeWord s.freeCtr))
          { protocolError off s with freeCtr := s.freeCtr + 1 })
      else
        match readTarget s w t with
        | .ok v => .next (answer (readAnswer v) s)
        | .error f => .fault f

/-- R90: a host write. While the reset input is asserted the host has no step (R301). -/
def hostWrite (off : Offset) (w : Width) (v : Word) (s : State) : Host.Outcome State Fault Refusal :=
  if s.resetPin then .fault .accessInReset
  else
    match target s.par off w with
    | none => .next (answer berrWrite s)
    | some t =>
      if s.busy = true ∧ busySafeWrite t = false then .next (answer writeAnswer (protocolError off s))
      else .next (answer writeAnswer (writeTarget w v s t))

end Sys2Proof.Machine
end

