-- ==== Sys2Proof/Machine/Dispatch.lean ====
section
/-! DEFINITION. The meaning of each command, by constructor (30_encoding.md R115). -/

namespace Sys2Proof.Machine

def exec (i : Instr) (s : State) : Host.Outcome State Fault Refusal :=
  match i with
  | .nop => Sys2Proof.Machine.execNop s
  | .clear => Sys2Proof.Machine.execClear s
  | .fcClear => Sys2Proof.Machine.execFcClear s
  | .fcAdd1 s0 => Sys2Proof.Machine.execFcAdd1 s0 s
  | .fcAdd2 s0 s1 => Sys2Proof.Machine.execFcAdd2 s0 s1 s
  | .fcAdd3 s0 s1 s2 => Sys2Proof.Machine.execFcAdd3 s0 s1 s2 s
  | .fcScan => Sys2Proof.Machine.execFcScan s
  | .tbBuild => Sys2Proof.Machine.execTbBuild s
  | .ctGen => Sys2Proof.Machine.execCtGen s
  | .encode => Sys2Proof.Machine.execEncode s
  | .pack => Sys2Proof.Machine.execPack s
  | .unpack => Sys2Proof.Machine.execUnpack s
  | .decode => Sys2Proof.Machine.execDecode s
  | .compress => Sys2Proof.Machine.execCompress s
  | .decompress => Sys2Proof.Machine.execDecompress s

end Sys2Proof.Machine
end

