-- ==== Sys2Proof/Machine/Step.lean ====
section
/-! DEFINITION. One step of HCC: the next turn of the host, the engine or the reset input (00_scope.md R9; 45_sequencer.md
R230; 20_memory.md R90; 70_reset_and_hazards.md R300). -/

namespace Sys2Proof.Machine

/-- R230: the engine's turn. It performs the command in flight; without one it has no step, and nothing changes. -/
def engineStep (s : State) : Host.Outcome State Fault Refusal :=
  match fetch s with
  | none => .next s
  | some w =>
    match decode w with
    | some i => exec i s
    | none => illegalCommand w s

/-- R9: one turn of an agent. -/
def runTurn (i : Input) (s : State) : Host.Outcome State Fault Refusal :=
  match i with
  | .read off w => hostRead off w s
  | .write off w v => hostWrite off w v s
  | .engine => engineStep s
  | .assertReset => .next (assertReset s)
  | .releaseReset => .next (releaseReset s)

/-- R9: one step: the turn that is next, taken in the state without it. -/
def step (s : State) : Host.Outcome State Fault Refusal :=
  runTurn (nextTurn s).1 { s with inputs := (nextTurn s).2 }

/-- The state whose next step performs the command word with bits `w` (log 2). -/
def State.withFetchWord (s : State) (nbits w : Nat) : State := loadCommand (tableWord nbits w) s

end Sys2Proof.Machine
end

