-- ==== Sys2Proof/Machine/Script.lean ====
section
/-! DEFINITION. Host scripts (30_encoding.md R119 to R121): the operations a host writes, what they expand to, the offsets its
symbolic names stand for, and the turns they take. A script is how a program comes to run on HCC from reset. -/

namespace Sys2Proof.Machine

/-- R119: a host write, a host read with the value expected, if stated; and R121: `wait`. The value of `wr8` and `wr16` may be any word,
of which the low bytes are stored (log 19). -/
inductive HostOp where
  | wr (w : Width) (off : Offset) (v : Word)
  | rd (w : Width) (off : Offset) (expected : Option Word)
  | wait
  deriving DecidableEq, Repr

/-- R119: a register name stands for its offset (R21). -/
def Reg.offset (r : Reg) : Offset :=
  match regMap.find? fun e => e.2 == r with
  | some e => BitVec.ofNat 26 e.1
  | none => 0#26

/-- R119: `COUNT[s]`. -/
def countOffset (s : Byte) : Offset := BitVec.ofNat 26 (0x400 + 4 * s.toNat)

/-- R119: `CODE[s].w<k>`. -/
def codeOffset (s : Byte) (k : Nat) : Offset := BitVec.ofNat 26 (0x1000 + 64 * s.toNat + 4 * k)

/-- R119: `NODE[i].w<k>`. -/
def nodeOffset (i : NodeIdx) (k : Nat) : Offset := BitVec.ofNat 26 (0x8000 + 16 * i.toNat + 4 * k)

/-- R81, R119: the offset of a buffer's first byte. -/
def Buf.base : Buf → Nat
  | .symbuf => 0x1000000
  | .bitbuf => 0x2000000
  | .pkbuf => 0x3000000

/-- R119: `SYMBUF+<n>`, `BITBUF+<n>`, `PKBUF+<n>`. -/
def bufOffset (b : Buf) (n : Nat) : Offset := BitVec.ofNat 26 (b.base + n)

/-- R121: `issue <mnemonic>`: the write alone; the engine's turn comes at a later `wait` (`HostOp.turns`, log 20). -/
def opIssue (i : Instr) : List HostOp := [.wr .word Reg.cmd.offset (encode i)]

/-- R120: a mnemonic: the write of CMD, then `wait`. -/
def opCommand (i : Instr) : List HostOp := opIssue i ++ [.wait]

/-- R121: `ack`. -/
def opAck : List HostOp := [.wr .word Reg.errAck.offset 1#32]

/-- R121: the byte writes of a `load`, from byte `n` on. -/
def opBytes (b : Buf) : Nat → List Byte → List HostOp
  | _, [] => []
  | n, v :: vs => .wr .byte (bufOffset b n) (v.setWidth 32) :: opBytes b (n + 1) vs

/-- R121: `load SYMBUF`. -/
def opLoadSymbols (t : List Byte) : List HostOp :=
  opBytes .symbuf 0 t ++ [.wr .word Reg.symLen.offset (BitVec.ofNat 32 t.length)]

/-- R121: `load PKBUF`. -/
def opLoadPacked (t : List Byte) : List HostOp :=
  opBytes .pkbuf 0 t ++ [.wr .word Reg.pkLen.offset (BitVec.ofNat 32 t.length)]

/-- R121: `load BITBUF`, its bytes packed by R85. -/
def opLoadBits (x : List Bool) : List HostOp :=
  opBytes .bitbuf 0 (bitsToBytes x) ++ [.wr .word Reg.bitLen.offset (BitVec.ofNat 32 x.length)]

/-- The turns an operation takes. R121's `wait` ends with the read of STATUS that finds BUSY = 0; the engine's turn comes before
that read, and the reads before the engine's turn find BUSY = 1 and change nothing (R93), so they are left out.
DESIGN CHOICE (log 20): the engine's turn is at `wait` and nowhere else in a script. R95 and R311 let it come between any two
accesses after `issue`, so accesses that a script puts between `issue` and `wait` find BUSY = 1 here (where the write of CMD was
accepted), while HCC may have performed the command before any of them. -/
def HostOp.turns : HostOp → List Input
  | .wr w off v => [.write off w v]
  | .rd w off _ => [.read off w]
  | .wait => [.engine, .read Reg.status.offset .word]

/-- The turns of a script, in its order (R95), with the engine's turns where `HostOp.turns` puts them (log 20). -/
def scriptTurns (ops : List HostOp) : List Input := ops.flatMap HostOp.turns

/-- Whether the answer on the bus is the one an operation expects (R119); an operation without an expectation takes any. DESIGN
CHOICE (log 17): an expectation is not met by a read that gets BERR, though its data is 0 (R92); R119 does not say. -/
def HostOp.met (s : State) : HostOp → Bool
  | .rd _ _ (some v) => s.bus == some (readAnswer v)
  | .rd _ _ none => true
  | .wr _ _ _ => true
  | .wait => true

/-- A script given to the machine: its turns come after those already listed. -/
def State.withScript (s : State) (ops : List HostOp) : State := { s with inputs := s.inputs ++ scriptTurns ops }

/-- `n` steps, as far as they answer a next state. -/
def stepMany : Nat → State → Option State
  | 0, s => some s
  | n + 1, s =>
    match step s with
    | .next t => stepMany n t
    | .fault _ => none
    | .refused _ => none

/-- Run a script on a machine with no other turns listed; none when a step stops or an expectation is not met. One of the runs R95
and R311 allow where a script accesses HCC between `issue` and `wait`: the one in which the engine moves at `wait` (log 20). -/
def runScript : List HostOp → State → Option State
  | [], s => some s
  | op :: ops, s =>
    match stepMany op.turns.length { s with inputs := op.turns } with
    | none => none
    | some t => if op.met t then runScript ops t else none

end Sys2Proof.Machine
end

