-- ==== Sys2Proof/Safety.lean ====
section
/-! DEFINITION. The terms claims use: the invariants of 10_state.md R52 with the ranges of R30 to R39, what it means for input
bytes to be written, and the reading of a tree and a table that 41_tree_builder.md and 42_code_table.md speak of. -/

namespace Sys2Proof.Machine

/-- A step that does not stop. -/
def StepGoesOn (s : State) : Prop := ∃ t, step s = .next t

/-- The byte of a buffer at an offset, none while its WRITTEN mark is clear (R51). -/
def bufRead (s : State) (b : Buf) (off : Nat) : Option Byte := Memory.read (b.content s) off

/-- A sequence of inputs all of which are written: their values are `xs`. -/
def Written {α : Type} (l : List (Option α)) (xs : List α) : Prop := l = xs.map some

/-- R81, R89: the reserved (RAZ/WI) offsets: 0x050 to 0x0FF of the register page and the holes between the windows. -/
def ReservedOffset (off : Nat) : Prop :=
  (0x050 ≤ off ∧ off < 0x400) ∨ (0x800 ≤ off ∧ off < 0x1000) ∨ (0x5000 ≤ off ∧ off < 0x8000) ∨
    (0x9FF0 ≤ off ∧ off < 0x10000)

/-- The length register of a buffer. -/
def bufLen (s : State) : Buf → Word
  | .symbuf => s.symLen
  | .bitbuf => s.bitLen
  | .pkbuf => s.pkLen

/-- R52, with the ranges R30 to R39 and R48 give, R100's capacities and the canonical form of the buffers. -/
structure StateInv (s : State) : Prop where
  params : s.par.wf = true
  symLenFits : s.symLen.toNat ≤ s.par.symCap
  bitLenFits : s.bitLen.toNat ≤ s.par.bitCap
  pkLenFits : s.pkLen.toNat ≤ s.par.pkCap
  bufWf : ∀ b : Buf, Memory.wf (b.content s) = true
  bufBelow : ∀ b : Buf, Memory.below (b.capacity s.par) (b.content s) = true
  padRange : s.pad.toNat ≤ 8
  noTree : s.treeValid = false → s.nodeCount = 0#9 ∧ s.treeRoot = 0#9 ∧ ∀ i, nodeAt s.node i = none
  tree : s.treeValid = true → ∃ cs : Counts, numSyms cs ≠ 0 ∧ s.node = arenaOf (build cs).1 ∧
    s.nodeCount = BitVec.ofNat 9 (2 * numSyms cs - 1) ∧ s.treeRoot = BitVec.ofNat 9 (build cs).2
  noTable : s.tableValid = false → (∀ x, codeAt s.code x = []) ∧ s.maxCodeLen = 0#8
  table : s.tableValid = true → s.treeValid = true ∧ s.code = codeTable s.node s.treeRoot ∧
    s.maxCodeLen = BitVec.ofNat 8 (maxLen s.code)
  noError : s.err = false → s.errCode = .noError ∧ s.ovf = false ∧ s.errInfo = 0#32
  errorNamed : s.err = true → s.errCode ≠ .noError
  pendingHeld : s.busy = true → s.pending = s.lastCmd
  idleInReset : s.resetPin = true → s.busy = false

/-- R185: no code is a prefix of another symbol's code. -/
def PrefixFree (t : Codes) : Prop :=
  ∀ x y, x ≠ y → codeAt t x ≠ [] → codeAt t y ≠ [] → ¬ (codeAt t x <+: codeAt t y)

/-- R183: the node reached from node `i` along a path, LEFT on 0 and RIGHT on 1. -/
def follow (a : Arena) (i : NodeIdx) : List Bool → Option NodeIdx
  | [] => some i
  | b :: path =>
    match nodeAt a i with
    | some (.internal _ l r) => follow a (if b then r else l) path
    | _ => none

/-- A node's children (R41). -/
def Node.children : Node → List NodeIdx
  | .leaf _ _ => []
  | .internal _ l r => [l, r]

/-- R162: the nodes below index `k` that no node below `k` has as a child: the priority set when node `k` is made. -/
def Waiting (nodes : List Node) (k i : Nat) : Prop :=
  i < k ∧ ∀ j n, j < k → nodes[j]? = some n → BitVec.ofNat 9 i ∉ n.children

/-- R163, R169: the key of node `i` is smaller than that of node `j`. -/
def KeyBefore (nodes : List Node) (i j : Nat) : Prop :=
  ∃ m n, nodes[i]? = some m ∧ nodes[j]? = some n ∧
    (m.freq.toNat < n.freq.toNat ∨ (m.freq = n.freq ∧ i < j))

/-- The code table of a frequency map: the tree of R162 walked by R182. -/
def tableOf (cs : Counts) : Codes := codeTable (arenaOf (build cs).1) (BitVec.ofNat 9 (build cs).2)

/-- R146: a frequency map that counts a symbol sequence. -/
def Counted (cs : Counts) (syms : List Byte) : Prop := ∀ x, (countAt cs x).toNat = syms.count x

/-- Every symbol of a sequence has an entry in the table (R180). -/
def AllCoded (t : Codes) (syms : List Byte) : Prop := ∀ x ∈ syms, codeAt t x ≠ []

/-- R113, R142: the symbols an FC_ADD command adds, in lane order; none for every other command. -/
def addedSymbols : Instr → Option (List Byte)
  | .fcAdd1 s0 => some [s0]
  | .fcAdd2 s0 s1 => some [s0, s1]
  | .fcAdd3 s0 s1 s2 => some [s0, s1, s2]
  | _ => none

/-- R146, R141: the frequency map `cs` is `old` with a symbol sequence added, no counter passing 2^32 - 1. -/
def CountsAdded (old cs : Counts) (syms : List Byte) : Prop :=
  ∀ x, (countAt cs x).toNat = (countAt old x).toNat + syms.count x

/-- R201: the concatenated codes of a symbol sequence. -/
def codesOf (t : Codes) (syms : List Byte) : List Bool := syms.flatMap (codeAt t)

end Sys2Proof.Machine
end

