-- ==== Sys2Proof/Certificates/Slice0/Obligations.lean ====
section
/-! DEFINITION. The statements for the provers, from the numbered rules of the spec. `.next t` is a step or a command that
answers the next state `t`. -/

open Sys2Proof Sys2Proof.Machine

/-! ### Encoding -/

/-- R118 (and the legality of R116, R117): decoding is the inverse of encoding in both directions, and exactly the legal words
decode. -/
def Obligations.DecodeInvertsEncode : Prop :=
  (∀ i : Instr, i.wellFormed = true → decode (encode i) = some i) ∧
  (∀ w i, decode w = some i → encode i = w) ∧
  (∀ w, legalWord w = true ↔ ∃ i, decode w = some i)

/-- Words written out from R113 and R115, and illegal ones from R116. -/
def Obligations.SampleWordsDecode : Prop :=
  decode 0x00000000#32 = some .nop ∧ decode 0x10000000#32 = some .clear ∧ decode 0x20000000#32 = some .fcClear ∧
  decode 0x31000061#32 = some (.fcAdd1 0x61#8) ∧ decode 0x32006261#32 = some (.fcAdd2 0x61#8 0x62#8) ∧
  decode 0x33626160#32 = some (.fcAdd3 0x60#8 0x61#8 0x62#8) ∧ decode 0x50000000#32 = some .tbBuild ∧
  decode 0xC0000000#32 = some .decompress ∧ decode 0xD0000000#32 = none ∧ decode 0x30000061#32 = none ∧
  decode 0x31006261#32 = none ∧ decode 0x37000061#32 = none ∧ decode 0x10000001#32 = none

/-! ### The engine's step -/

/-- R230, R295: at the engine's turn, which it has when it is listed first or no turn is listed, a step performs the command that
the word in flight decodes to. With no command in flight the engine has no step and HCC stays as it is. R90: one host access is
one step: a read or a write listed first is that access, in the state without its turn. R301: releasing the reset input changes
nothing else. (The list of turns is the model's choice, log 1; the reset input as a level, log 8.) -/
def Obligations.StepRunsNextTurn : Prop :=
  (∀ (s : State) (i : Instr), s.inputs = [] ∨ s.inputs.head? = some .engine →
    (s.busy = true → s.resetPin = false → decode s.pending = some i →
      step s = exec i { s with inputs := s.inputs.tail }) ∧
    (s.busy = false → step s = .next { s with inputs := s.inputs.tail })) ∧
  ∀ (s : State) (rest : List Input),
    (∀ off w, s.inputs = .read off w :: rest → step s = hostRead off w { s with inputs := rest }) ∧
    (∀ off w v, s.inputs = .write off w v :: rest → step s = hostWrite off w v { s with inputs := rest }) ∧
    (s.inputs = .releaseReset :: rest → step s = .next { s with resetPin := false, inputs := rest })

/-- R276: a word that is not legal records ILLEGAL_COMMAND (code 4) with the word, ends the command and changes nothing else. -/
def Obligations.IllegalWordRecordsItself : Prop :=
  ErrCode.illegalCommand.code = 4#4 ∧ ∀ s : State, s.busy = true → s.resetPin = false → (s.inputs = [] ∨ s.inputs.head? = some .engine) →
    legalWord s.pending = false →
    step s = .next { recordError .illegalCommand s.pending { s with inputs := s.inputs.tail } with busy := false }

/-! ### Invariants and reset -/

/-- R52 with the ranges of R30 to R39: every step from every state that meets the invariant keeps it. -/
def Obligations.StepKeepsInvariant : Prop :=
  ∀ s t : State, StateInv s → step s = .next t → StateInv t

/-- R52: the reset state meets the invariant. -/
def Obligations.ResetMeetsInvariant : Prop := StateInv State.reset

/-- R300: asserting the reset input abandons the command in flight, puts every register and array at its reset value and clears
every WRITTEN mark, whatever HCC was doing. (PENDING, which R300 leaves unspecified, is not spoken of.) -/
def Obligations.AssertedResetClearsEverything : Prop :=
  ∀ (s : State) (rest : List Input), s.inputs = .assertReset :: rest → ∃ t, step s = .next t ∧
    t.busy = false ∧ statusWord t = 0#32 ∧ t.lastCmd = 0#32 ∧ t.errCode = .noError ∧ t.errInfo = 0#32 ∧
    t.intEn = 0#2 ∧ t.intStat = 0#2 ∧ t.symLen = 0#32 ∧ t.bitLen = 0#32 ∧ t.pkLen = 0#32 ∧
    t.treeRoot = 0#9 ∧ t.nodeCount = 0#9 ∧ t.maxCodeLen = 0#8 ∧ t.pad = 0#4 ∧
    (∀ x, countAt t.count x = 0#32) ∧ (∀ x, codeAt t.code x = []) ∧ (∀ i, nodeAt t.node i = none) ∧
    (∀ b off, bufRead t b off = none) ∧ numSyms t.count = 0 ∧ fcTotal t.count = 0 ∧ irq t = false ∧
    readReg t .id = 0x48554646#32 ∧ readReg t .symCapR = BitVec.ofNat 32 s.par.symCap ∧
    readReg t .bitCapR = BitVec.ofNat 32 s.par.bitCap ∧ readReg t .pkCapR = BitVec.ofNat 32 s.par.pkCap ∧
    t.par = s.par ∧ t.inputs = rest

/-- R301: while the reset input is asserted a host access is no step (it stops). -/
def Obligations.AccessDuringResetStops : Prop :=
  ∀ (s : State) (off : Offset) (w : Width) (v : Word), s.resetPin = true →
    hostRead off w s = .fault .accessInReset ∧ hostWrite off w v s = .fault .accessInReset

/-! ### Errors -/

/-- R281, R280: the first error is recorded and sets ERRI; a later one changes neither ERRCODE nor ERR_INFO and sets OVF. -/
def Obligations.FirstErrorWins : Prop :=
  ∀ (e : ErrCode) (v : Word) (s : State),
    (s.err = false → recordError e v s =
      { s with err := true, errCode := e, errInfo := v, intStat := s.intStat ||| 2#2 }) ∧
    (s.err = true → recordError e v s = { s with ovf := true })

/-- R280: a raise in a command with the outputs `outs` records the error as R280 and R281 say (FirstErrorWins), makes each output's
length 0 and its bytes unwritten, ends the command without DONE, and leaves the other buffers and every other register alone. -/
def Obligations.RaiseClearsOutput : Prop :=
  ∀ (e : ErrCode) (v : Word) (outs : List Buf) (s : State), ∃ t r, t = raiseError e v outs s ∧ r = recordError e v s ∧
    t.busy = false ∧ t.err = true ∧ t.intStat.getLsbD 0 = s.intStat.getLsbD 0 ∧
    t.err = r.err ∧ t.errCode = r.errCode ∧ t.errInfo = r.errInfo ∧ t.ovf = r.ovf ∧ t.intStat = r.intStat ∧
    (∀ b, b ∈ outs → bufLen t b = 0#32 ∧ ∀ off, bufRead t b off = none) ∧
    (∀ b, b ∉ outs → bufLen t b = bufLen s b ∧ ∀ off, bufRead t b off = bufRead s b off) ∧
    t.count = s.count ∧ t.node = s.node ∧ t.code = s.code ∧ t.treeValid = s.treeValid ∧ t.tableValid = s.tableValid ∧
    t.treeRoot = s.treeRoot ∧ t.nodeCount = s.nodeCount ∧ t.maxCodeLen = s.maxCodeLen ∧ t.pad = s.pad ∧
    t.lastCmd = s.lastCmd ∧ t.pending = s.pending ∧ t.intEn = s.intEn ∧ t.par = s.par ∧ t.inputs = s.inputs ∧
    t.resetPin = s.resetPin ∧ t.bus = s.bus ∧ t.freeCtr = s.freeCtr

/-- R275: CT_GEN without a tree, and ENCODE, DECODE and DECOMPRESS without a table, raise SEQUENCE with the command word before
anything changes. CT_GEN has no output, and no step of DECOMPRESS has run (R238, R235), so nothing else changes there. That the raise
clears the output of ENCODE and of DECODE (BITBUF, SYMBUF; RaiseClearsOutput), as R280 says of every raise, where R275, R200 and R250
say that nothing changes, is the model's reading (log 6). -/
def Obligations.MissingStateRaisesSequence : Prop :=
  ErrCode.sequence.code = 5#4 ∧ ∀ s : State,
    (s.treeValid = false → exec .ctGen s = .next { recordError .sequence (encode .ctGen) s with busy := false }) ∧
    (s.tableValid = false → exec .encode s = .next (raiseError .sequence (encode .encode) [.bitbuf] s) ∧
      exec .decode s = .next (raiseError .sequence (encode .decode) [.symbuf] s) ∧
      exec .decompress s = .next { recordError .sequence (encode .decompress) s with busy := false })

/-- R283: a write of ERRACK with bit 0 set clears ERR, ERRCODE, OVF and ERR_INFO and nothing else, also while BUSY = 1; with
bit 0 clear it has no effect (R27). A read of ERRACK returns 0 (R27); it is not busy-safe (R91). -/
def Obligations.ErrAckClearsError : Prop :=
  ∀ (s : State) (v : Word), s.resetPin = false →
    hostWrite 0x01C#26 .word v s = .next
      (if v.getLsbD 0 then
        { s with err := false, errCode := .noError, ovf := false, errInfo := 0#32, bus := some writeAnswer }
       else { s with bus := some writeAnswer }) ∧
    (s.busy = false → hostRead 0x01C#26 .word s = .next { s with bus := some { berr := false, data := some 0#32 } })

/-- R281, R287: no command but CLEAR changes a recorded error. -/
def Obligations.OnlyClearForgetsError : Prop :=
  ∀ (i : Instr) (s t : State), i ≠ .clear → s.err = true → exec i s = .next t →
    t.err = true ∧ t.errCode = s.errCode ∧ t.errInfo = s.errInfo

/-- R280, R235, R315: when a command with an output ends without DONE, its output's length is 0 and no byte of it is readable,
whatever the error was (that SEQUENCE is no exception for ENCODE and DECODE is the model's reading, log 6). DECOMPRESS without a
table, which fails before its first step, keeps its output (R238): MissingStateRaisesSequence says so. -/
def Obligations.FailedCommandKeepsNoOutput : Prop :=
  ∀ (i : Instr) (b : Buf) (s t : State),
    (i, b) ∈ [(Instr.encode, Buf.bitbuf), (.pack, .pkbuf), (.unpack, .bitbuf), (.decode, .symbuf), (.compress, .pkbuf),
      (.decompress, .symbuf)] →
    (i = .decompress → s.tableValid = true) →
    s.intStat.getLsbD 0 = false → exec i s = .next t → t.intStat.getLsbD 0 = false →
    t.busy = false ∧ t.err = true ∧ bufLen t b = 0#32 ∧ ∀ off, bufRead t b off = none

/-! ### NOP and CLEAR -/

/-- R233: NOP ends with BUSY = 0 and DONE = 1 and nothing else changes. -/
def Obligations.NopCompletes : Prop :=
  ∀ s : State, exec .nop s = .next { s with busy := false, intStat := s.intStat ||| 1#2 }

/-- R234: CLEAR returns every register but INT_EN and every array to its reset value, keeps the buffers, and reads DONE. -/
def Obligations.ClearRestoresResetValues : Prop :=
  ∀ s : State, exec .clear s = .next
    { State.resetOf s.par with
      intEn := s.intEn, intStat := 1#2, symbuf := s.symbuf, bitbuf := s.bitbuf, pkbuf := s.pkbuf
      pending := s.pending, resetPin := s.resetPin, inputs := s.inputs, bus := s.bus, freeCtr := s.freeCtr }

/-! ### The frequency counter -/

/-- R140: FC_CLEAR makes every counter 0, so that NUM_SYMS and FC_TOTAL read 0, and keeps tree and table. -/
def Obligations.FcClearEmptiesMap : Prop :=
  ∀ s : State, ∃ cs, exec .fcClear s = .next { s with count := cs, busy := false, intStat := s.intStat ||| 1#2 } ∧
    (∀ x, countAt cs x = 0#32) ∧ numSyms cs = 0 ∧ fcTotal cs = 0

/-- R142, R143: FC_ADD with one, two or three symbols completes when no counter would pass 2^32 - 1, and every counter receives
every increment of a lane that names it; nothing but COUNT changes. At the first lane `k` whose counter is at 2^32 - 1 it raises
COUNT_OVERFLOW(k), with the lanes before it applied and no other. -/
def Obligations.FcAddAddsEveryLane : Prop :=
  ∀ (s : State) (i : Instr) (syms : List Byte), addedSymbols i = some syms →
    ((∀ x, (countAt s.count x).toNat + syms.count x < 2 ^ 32) →
      ∃ cs, exec i s = .next { s with count := cs, busy := false, intStat := s.intStat ||| 1#2 } ∧
        CountsAdded s.count cs syms) ∧
    (∀ (k : Nat) (x : Byte), syms[k]? = some x →
      (∀ y, (countAt s.count y).toNat + (syms.take k).count y < 2 ^ 32) →
      (countAt s.count x).toNat + (syms.take k).count x = 2 ^ 32 - 1 →
      ∃ cs, exec i s = .next
          { recordError .countOverflow (BitVec.ofNat 32 k) { s with count := cs } with busy := false } ∧
        CountsAdded s.count cs (syms.take k))

/-- R144: FC_SCAN of written symbols adds each of them to COUNT when no counter would pass 2^32 - 1; nothing else changes. At the
first position whose counter is at 2^32 - 1 it raises COUNT_OVERFLOW with the position, with the increments before it applied and
no other, whatever follows in SYMBUF. At a first byte that is not written, whatever follows it, it stops (R286) with a fault that
names that byte (which byte the fault names is the model's choice, log 7). -/
def Obligations.FcScanAddsEverySymbol : Prop :=
  ∀ (s : State) (syms : List Byte), (∀ x, (countAt s.count x).toNat + syms.count x < 2 ^ 32) →
    (Written (symInput s) syms →
      ∃ cs, exec .fcScan s = .next { s with count := cs, busy := false, intStat := s.intStat ||| 1#2 } ∧
        CountsAdded s.count cs syms) ∧
    (∀ (x : Byte) (rest : List (Option Byte)), symInput s = syms.map some ++ some x :: rest →
      (countAt s.count x).toNat + syms.count x = 2 ^ 32 - 1 →
      ∃ cs, exec .fcScan s = .next
          { recordError .countOverflow (BitVec.ofNat 32 syms.length) { s with count := cs } with busy := false } ∧
        CountsAdded s.count cs syms) ∧
    (∀ rest : List (Option Byte), symInput s = syms.map some ++ none :: rest →
      exec .fcScan s = .fault (.unwrittenRead .symbuf syms.length))

/-- R146: after FC_CLEAR and FC_SCAN, COUNT[s] is the number of positions holding s, NUM_SYMS the number of distinct symbols and
FC_TOTAL the number of symbols. -/
def Obligations.ClearThenScanCountsInput : Prop :=
  ∀ (s : State) (syms : List Byte), Written (symInput s) syms →
    ∃ t u, exec .fcClear s = .next t ∧ exec .fcScan t = .next u ∧ Counted u.count syms ∧
      numSyms u.count = syms.toFinset.card ∧ fcTotal u.count = syms.length

/-- R150, R35: NUM_SYMS is at most 256, the sum of the counters is below 2^40, and FC_TOTAL_HI and FC_TOTAL_LO read its two
halves. -/
def Obligations.TotalsFitTheirRegisters : Prop :=
  ∀ s : State, numSyms s.count ≤ 256 ∧ fcTotal s.count < 2 ^ 40 ∧
    (readReg s .fcTotalHi).toNat * 2 ^ 32 + (readReg s .fcTotalLo).toNat = fcTotal s.count ∧
    (readReg s .numSyms).toNat = numSyms s.count

/-! ### The tree builder -/

/-- R161: TB_BUILD on a non-empty map installs the tree of R162 and empties the code table; COUNT and all else stay. With
NUM_SYMS = 0 it raises EMPTY_HISTOGRAM (code 6) with ERR_INFO 0, after the clearing it starts with. -/
def Obligations.TbBuildInstallsTree : Prop :=
  ErrCode.emptyHistogram.code = 6#4 ∧ ∀ s : State,
    (numSyms s.count ≠ 0 → exec .tbBuild s = .next
      { s with
        treeValid := true, tableValid := false, code := Vector.replicate 256 [], maxCodeLen := 0#8
        node := arenaOf (build s.count).1, nodeCount := BitVec.ofNat 9 (2 * numSyms s.count - 1)
        treeRoot := BitVec.ofNat 9 (build s.count).2, busy := false, intStat := s.intStat ||| 1#2 }) ∧
    (numSyms s.count = 0 → ∃ t, exec .tbBuild s = .next { recordError .emptyHistogram 0#32 t with busy := false } ∧
      t = { s with
        treeValid := false, tableValid := false, code := Vector.replicate 256 [], maxCodeLen := 0#8
        node := Vector.replicate 511 none, nodeCount := 0#9, treeRoot := 0#9 })

/-- R160, R166, R162: the arena of a map of n symbols: 2n - 1 nodes, the root the last, leaves at 0 to n - 1 in ascending symbol
order, one for each symbol with a count, holding that count, and internal nodes at n to 2n - 2. -/
def Obligations.BuiltArenaLayout : Prop :=
  ∀ (cs : Counts) (n : Nat), numSyms cs = n → n ≠ 0 → ∃ nodes root, build cs = (nodes, root) ∧
    nodes.length = 2 * n - 1 ∧ nodes.length ≤ 511 ∧ root = 2 * n - 2 ∧
    (∀ i, i < n → ∃ x, nodes[i]? = some (.leaf x ((countAt cs x).setWidth 40)) ∧ countAt cs x ≠ 0#32) ∧
    (∀ (i j : Nat) (x y : Byte) (f g : Freq), i < j → nodes[i]? = some (.leaf x f) → nodes[j]? = some (.leaf y g) → x.toNat < y.toNat) ∧
    (∀ x, countAt cs x ≠ 0#32 → ∃ i, i < n ∧ nodes[i]? = some (.leaf x ((countAt cs x).setWidth 40))) ∧
    (∀ k, n ≤ k → k < 2 * n - 1 → ∃ f l r, nodes[k]? = some (.internal f l r))

/-- R164: in a built tree every leaf holds a symbol of its own with a count, and that count as FREQ; every internal node has two
different children of smaller index, its FREQ is the sum of theirs without overflow, every node but the root is the child of exactly one node, and the root's FREQ is FC_TOTAL. -/
def Obligations.BuiltTreeIsBinary : Prop :=
  ∀ (cs : Counts) (nodes : List Node) (root : Nat), build cs = (nodes, root) → numSyms cs ≠ 0 →
    (∀ (i : Nat) (x : Byte) (f : Freq), nodes[i]? = some (.leaf x f) → countAt cs x ≠ 0#32 ∧ f.toNat = (countAt cs x).toNat ∧
      ∀ (j : Nat) (g : Freq), nodes[j]? = some (.leaf x g) → j = i) ∧
    (∀ (k : Nat) (f : Freq) (l r : NodeIdx), nodes[k]? = some (.internal f l r) → l ≠ r ∧ l.toNat < k ∧ r.toNat < k ∧
      ∃ a b, nodes[l.toNat]? = some a ∧ nodes[r.toNat]? = some b ∧ f.toNat = a.freq.toNat + b.freq.toNat) ∧
    (∀ i, i < nodes.length → i ≠ root → ∃! k : Nat, ∃ n : Node, nodes[k]? = some n ∧ BitVec.ofNat 9 i ∈ n.children) ∧
    (∃ n : Node, nodes[root]? = some n ∧ n.freq.toNat = fcTotal cs)

/-- R162, R163: each internal node merges the two waiting nodes of smallest key (FREQ, index), the smaller as LEFT and the next
as RIGHT. -/
def Obligations.MergesTakeSmallestKeys : Prop :=
  ∀ (cs : Counts) (nodes : List Node) (root k : Nat) (f : Freq) (l r : NodeIdx), build cs = (nodes, root) →
    nodes[k]? = some (.internal f l r) →
    Waiting nodes k l.toNat ∧ Waiting nodes k r.toNat ∧ l ≠ r ∧
    (∀ i, Waiting nodes k i → i = l.toNat ∨ KeyBefore nodes l.toNat i) ∧
    (∀ i, Waiting nodes k i → i = l.toNat ∨ i = r.toNat ∨ KeyBefore nodes r.toNat i)

/-! ### The code table -/

/-- R182: CT_GEN with a valid tree fills CODE from it and sets MAX_CODE_LEN and TABLE_VALID; nothing else changes. -/
def Obligations.CtGenInstallsTable : Prop :=
  ∀ s : State, s.treeValid = true → ∃ t, exec .ctGen s = .next t ∧
    t = { s with
      code := codeTable s.node s.treeRoot, maxCodeLen := t.maxCodeLen, tableValid := true, busy := false
      intStat := s.intStat ||| 1#2 } ∧
    (∀ x, codeLen t.code x ≤ t.maxCodeLen.toNat) ∧ (∃ x, codeLen t.code x = t.maxCodeLen.toNat)

/-- R187, R183, R168: for two or more symbols, the code of each counted symbol leads from the root to its leaf, LEFT on 0 and
RIGHT on 1, and is 1 to 255 bits long. -/
def Obligations.CodesAreLeafPaths : Prop :=
  ∀ (cs : Counts) (x : Byte), 2 ≤ numSyms cs → countAt cs x ≠ 0#32 →
    1 ≤ codeLen (tableOf cs) x ∧ codeLen (tableOf cs) x ≤ 255 ∧
    ∃ i, follow (arenaOf (build cs).1) (BitVec.ofNat 9 (build cs).2) (codeAt (tableOf cs) x) = some i ∧
      nodeAt (arenaOf (build cs).1) i = some (.leaf x ((countAt cs x).setWidth 40))

/-- R185: a generated table is prefix-free, has an entry for exactly the counted symbols, and for two or more symbols is
complete: the sum of 2^(-CODE_LEN) is 1 (here times 2^255); for one symbol the sum is 1/2. -/
def Obligations.TableIsPrefixFreeAndComplete : Prop :=
  ∀ cs : Counts, numSyms cs ≠ 0 →
    PrefixFree (tableOf cs) ∧ (∀ x, codeAt (tableOf cs) x ≠ [] ↔ countAt cs x ≠ 0#32) ∧
    (2 ≤ numSyms cs →
      ∑ x : Byte, (if codeLen (tableOf cs) x = 0 then 0 else 2 ^ (255 - codeLen (tableOf cs) x)) = 2 ^ 255) ∧
    (numSyms cs = 1 →
      ∑ x : Byte, (if codeLen (tableOf cs) x = 0 then 0 else 2 ^ (255 - codeLen (tableOf cs) x)) = 2 ^ 254)

/-- R184: with a single symbol, its code is "0", and no other symbol has a code. -/
def Obligations.SingleSymbolGetsZero : Prop :=
  ∀ (cs : Counts) (x : Byte), numSyms cs = 1 → countAt cs x ≠ 0#32 →
    codeAt (tableOf cs) x = [false] ∧ ∀ y, y ≠ x → codeAt (tableOf cs) y = []

/-! ### Encoding -/

/-- R201: ENCODE of written symbols that all have entries and whose codes fit BITBUF completes: BITBUF holds the concatenation of
their codes, in order, BIT_LEN its length, the tail of the last byte is zero, and the bytes after it and all else stay. -/
def Obligations.EncodeConcatenatesCodes : Prop :=
  ∀ (s : State) (syms : List Byte) (x : List Bool), s.par.wf = true → s.tableValid = true → Written (symInput s) syms →
    AllCoded s.code syms → x = codesOf s.code syms → x.length ≤ s.par.bitCap →
    ∃ m len, exec .encode s = .next
        { s with bitbuf := m, bitLen := len, busy := false, intStat := s.intStat ||| 1#2 } ∧
      len.toNat = (syms.map (codeLen s.code)).sum ∧ Written (Memory.readBits m len.toNat) x ∧
      (∀ i, x.length ≤ i → i < 8 * ((x.length + 7) / 8) → Memory.bitRead m i = some false) ∧
      (∀ off, (x.length + 7) / 8 ≤ off → Memory.read m off = Memory.read s.bitbuf off)

/-- R200, R272, R274: at the first position that fails, ENCODE raises UNKNOWN_SYMBOL with the position when the symbol has no
entry, otherwise RESOURCE with the position when its code would end beyond BIT_CAP; BITBUF and BIT_LEN are cleared. -/
def Obligations.EncodeReportsFirstFailure : Prop :=
  ∀ (s : State) (pre : List Byte) (x : Byte) (rest : List (Option Byte)), s.tableValid = true →
    symInput s = pre.map some ++ some x :: rest → AllCoded s.code pre →
    (codesOf s.code pre).length ≤ s.par.bitCap →
    (codeAt s.code x = [] →
      exec .encode s = .next (raiseError .unknownSymbol (BitVec.ofNat 32 pre.length) [.bitbuf] s)) ∧
    (codeAt s.code x ≠ [] → s.par.bitCap < (codesOf s.code pre).length + codeLen s.code x →
      exec .encode s = .next (raiseError .resource (BitVec.ofNat 32 pre.length) [.bitbuf] s))

/-! ### The bit packer -/

/-- R213: PACK of L written bits completes: the header byte is the padding count 8 - (L mod 8), whole bytes of BITBUF follow it,
the last byte holds the remaining bits and zeros, PK_LEN = L div 8 + 2 and PAD is the padding count; the bytes after the stream
and all else stay. R212: a stream that does not fit PK_CAP, which legal parameters and lengths rule out, raises RESOURCE with its
byte count. -/
def Obligations.PackWritesStream : Prop :=
  (∀ s : State, s.par.pkCap < s.bitLen.toNat / 8 + 2 →
    exec .pack s = .next (raiseError .resource (BitVec.ofNat 32 (s.bitLen.toNat / 8 + 2)) [.pkbuf] s)) ∧
  ∀ (s : State) (x : List Bool), s.par.wf = true → s.bitLen.toNat ≤ s.par.bitCap → Written (bitInput s) x →
    ∃ m len pad, exec .pack s = .next
        { s with pkbuf := m, pkLen := len, pad := pad, busy := false, intStat := s.intStat ||| 1#2 } ∧
      len.toNat = s.bitLen.toNat / 8 + 2 ∧ pad.toNat = 8 - s.bitLen.toNat % 8 ∧
      (∃ h, Memory.read m 0 = some h ∧ h.toNat = 8 - s.bitLen.toNat % 8) ∧
      (∀ j, j < s.bitLen.toNat / 8 → Memory.read m (1 + j) = Memory.read s.bitbuf j) ∧
      (∃ b, Memory.read m (s.bitLen.toNat / 8 + 1) = some b ∧
        bits8 b = x.drop (8 * (s.bitLen.toNat / 8)) ++ zeros (8 - s.bitLen.toNat % 8)) ∧
      (∀ off, s.bitLen.toNat / 8 + 2 ≤ off → Memory.read m off = Memory.read s.pkbuf off)

/-- R214: the checks of UNPACK in order: an empty stream, a header above 8, a header above the payload bits. -/
def Obligations.UnpackRejectsMalformed : Prop :=
  ∀ (s : State) (p : Byte),
    (s.pkLen = 0#32 → exec .unpack s = .next (raiseError .malformedStream 0#32 [.bitbuf] s)) ∧
    (s.pkLen ≠ 0#32 → Memory.read s.pkbuf 0 = some p → 8 < p.toNat →
      exec .unpack s = .next (raiseError .malformedStream (p.setWidth 32) [.bitbuf] s)) ∧
    (s.pkLen ≠ 0#32 → Memory.read s.pkbuf 0 = some p → p.toNat ≤ 8 → 8 * (s.pkLen.toNat - 1) < p.toNat →
      exec .unpack s = .next (raiseError .malformedStream (p.setWidth 32) [.bitbuf] s))

/-- R215, R216, R217: UNPACK of a stream with an accepted header p and written payload gives the payload's bits without the last
p, whatever those are; the tail of the last byte is zero, the bytes of BITBUF after it and all else stay. A sequence longer than
BIT_CAP raises RESOURCE with its length. -/
def Obligations.UnpackDropsPadding : Prop :=
  ∀ (s : State) (p : Byte) (payload : List Byte), s.par.wf = true → s.pkLen.toNat ≤ s.par.pkCap → s.pkLen ≠ 0#32 →
    Memory.read s.pkbuf 0 = some p → p.toNat ≤ 8 → p.toNat ≤ 8 * (s.pkLen.toNat - 1) →
    (s.par.bitCap < 8 * (s.pkLen.toNat - 1) - p.toNat →
      exec .unpack s = .next
        (raiseError .resource (BitVec.ofNat 32 (8 * (s.pkLen.toNat - 1) - p.toNat)) [.bitbuf] s)) ∧
    (Written (payloadInput s) payload → 8 * (s.pkLen.toNat - 1) - p.toNat ≤ s.par.bitCap →
      ∃ m len pad, exec .unpack s = .next
          { s with bitbuf := m, bitLen := len, pad := pad, busy := false, intStat := s.intStat ||| 1#2 } ∧
        len.toNat = 8 * (s.pkLen.toNat - 1) - p.toNat ∧ pad.toNat = p.toNat ∧
        Written (Memory.readBits m len.toNat) ((payload.flatMap bits8).take len.toNat) ∧
        (∀ i, len.toNat ≤ i → i < 8 * ((len.toNat + 7) / 8) → Memory.bitRead m i = some false) ∧
        (∀ off, (len.toNat + 7) / 8 ≤ off → Memory.read m off = Memory.read s.bitbuf off))

/-- R218: PACK followed by UNPACK gives back the bit sequence, its length, and the padding count. -/
def Obligations.PackUnpackRoundTrip : Prop :=
  ∀ (s : State) (x : List Bool), s.par.wf = true → s.bitLen.toNat ≤ s.par.bitCap → Written (bitInput s) x →
    ∃ t u, exec .pack s = .next t ∧ exec .unpack t = .next u ∧ u.bitLen = s.bitLen ∧ Written (bitInput u) x ∧
      t.pad.toNat = 8 - x.length % 8 ∧ u.pad = t.pad

/-! ### Decoding -/

/-- R254: DECODE of the concatenated codes of symbols that all have entries, in a prefix-free table and within SYM_CAP,
completes with those symbols; the bytes of SYMBUF after them and all else stay. -/
def Obligations.DecodeRecoversSymbols : Prop :=
  ∀ (s : State) (syms : List Byte), s.par.wf = true → s.tableValid = true → PrefixFree s.code → AllCoded s.code syms →
    Written (bitInput s) (codesOf s.code syms) → syms.length ≤ s.par.symCap →
    ∃ m len, exec .decode s = .next
        { s with symbuf := m, symLen := len, busy := false, intStat := s.intStat ||| 1#2 } ∧
      len.toNat = syms.length ∧ (∀ i, i < syms.length → Memory.read m i = syms[i]?) ∧
      (∀ off, syms.length ≤ off → Memory.read m off = Memory.read s.symbuf off)

/-- R250, R271, R252, R253: bits that run out in a code not finished raise MALFORMED_STREAM with the position of its first bit.
`part` is what follows the codes of `syms`; no beginning of it is a code. A symbol completed when SYM_CAP symbols are out raises
RESOURCE with the position of its last bit, whatever follows (R274). -/
def Obligations.DecodeReportsFailures : Prop :=
  ∀ (s : State) (syms : List Byte), s.tableValid = true → PrefixFree s.code → AllCoded s.code syms →
    (∀ part : List Bool, Written (bitInput s) (codesOf s.code syms ++ part) → syms.length ≤ s.par.symCap → part ≠ [] →
      (∀ y, codeAt s.code y ≠ [] → ¬ (codeAt s.code y <+: part)) →
      exec .decode s = .next
        (raiseError .malformedStream (BitVec.ofNat 32 (codesOf s.code syms).length) [.symbuf] s)) ∧
    (∀ (x : Byte) (rest : List (Option Bool)), codeAt s.code x ≠ [] →
      bitInput s = (codesOf s.code (syms ++ [x])).map some ++ rest → syms.length = s.par.symCap →
      exec .decode s = .next
        (raiseError .resource (BitVec.ofNat 32 ((codesOf s.code (syms ++ [x])).length - 1)) [.symbuf] s))

/-! ### The pipelines -/

/-- R236: COMPRESS of written symbols whose codes fit BITBUF completes: COUNT counts them, NODE and CODE are the tree and the
table of that map, MAX_CODE_LEN its largest code length (R182), BITBUF holds their codes, with the tail of the last byte zero (R85,
R200), and PKBUF the packed stream of those; SYMBUF, SYM_LEN and INT_EN stay. -/
def Obligations.CompressPacksEncodedText : Prop :=
  ∀ (s : State) (syms : List Byte) (cs : Counts) (x : List Bool), s.par.wf = true → s.symLen.toNat ≤ s.par.symCap →
    Written (symInput s) syms → syms ≠ [] → Counted cs syms → x = codesOf (tableOf cs) syms →
    x.length ≤ s.par.bitCap →
    ∃ t, exec .compress s = .next t ∧
      t = { s with
        count := cs, node := arenaOf (build cs).1, nodeCount := BitVec.ofNat 9 (2 * numSyms cs - 1)
        treeRoot := BitVec.ofNat 9 (build cs).2, treeValid := true, code := tableOf cs, tableValid := true
        maxCodeLen := t.maxCodeLen, bitbuf := t.bitbuf, bitLen := BitVec.ofNat 32 x.length, pkbuf := t.pkbuf
        pkLen := BitVec.ofNat 32 (x.length / 8 + 2), pad := BitVec.ofNat 4 (8 - x.length % 8)
        busy := false, intStat := s.intStat ||| 1#2 } ∧
      (∀ y, codeLen (tableOf cs) y ≤ t.maxCodeLen.toNat) ∧ (∃ y, codeLen (tableOf cs) y = t.maxCodeLen.toNat) ∧
      Written (bitInput t) x ∧ Written (Memory.readBytes t.pkbuf 0 (x.length / 8 + 2)) (packedStream x) ∧
      (∀ i, x.length ≤ i → i < 8 * ((x.length + 7) / 8) → Memory.bitRead t.bitbuf i = some false) ∧
      (∀ off, (x.length + 7) / 8 ≤ off → Memory.read t.bitbuf off = Memory.read s.bitbuf off) ∧
      (∀ off, x.length / 8 + 2 ≤ off → Memory.read t.pkbuf off = Memory.read s.pkbuf off)

/-- R237, R236: COMPRESS with SYM_LEN = 0 raises EMPTY_HISTOGRAM; the map, the tree, the table and the output are empty. R238,
R235, R271: DECOMPRESS with a table reports what UNPACK reports, for an empty stream, a header above 8 or above the payload bits,
and bits that exceed BIT_CAP, and clears BITBUF, BIT_LEN, SYMBUF and SYM_LEN. Past UNPACK it reports what DECODE reports of the
bits `x`, and clears SYMBUF and SYM_LEN: BITBUF, BIT_LEN and PAD are as UNPACK leaves them. -/
def Obligations.PipelinesReportFailures : Prop :=
  (∀ s : State, s.symLen = 0#32 → ∃ t, exec .compress s = .next (raiseError .emptyHistogram 0#32 [.pkbuf] t) ∧
    t = { s with
      count := Vector.replicate 256 0#32, treeValid := false, tableValid := false, code := Vector.replicate 256 []
      maxCodeLen := 0#8, node := Vector.replicate 511 none, nodeCount := 0#9, treeRoot := 0#9 }) ∧
  (∀ s : State, s.tableValid = true → s.pkLen = 0#32 →
    exec .decompress s = .next (raiseError .malformedStream 0#32 [.bitbuf, .symbuf] s)) ∧
  (∀ (s : State) (p : Byte), s.tableValid = true → s.pkLen ≠ 0#32 → Memory.read s.pkbuf 0 = some p →
    (8 < p.toNat ∨ 8 * (s.pkLen.toNat - 1) < p.toNat →
      exec .decompress s = .next (raiseError .malformedStream (p.setWidth 32) [.bitbuf, .symbuf] s)) ∧
    (p.toNat ≤ 8 → s.par.bitCap < 8 * (s.pkLen.toNat - 1) - p.toNat →
      exec .decompress s = .next
        (raiseError .resource (BitVec.ofNat 32 (8 * (s.pkLen.toNat - 1) - p.toNat)) [.bitbuf, .symbuf] s))) ∧
  (∀ (s : State) (p : Byte) (payload syms : List Byte) (x : List Bool), s.par.wf = true → s.pkLen.toNat ≤ s.par.pkCap →
    s.tableValid = true → PrefixFree s.code → AllCoded s.code syms → s.pkLen ≠ 0#32 →
    Memory.read s.pkbuf 0 = some p → p.toNat ≤ 8 → p.toNat ≤ 8 * (s.pkLen.toNat - 1) →
    Written (payloadInput s) payload →
    x = (payload.flatMap bits8).take (8 * (s.pkLen.toNat - 1) - p.toNat) → x.length ≤ s.par.bitCap →
    ∃ u, u = { s with bitbuf := u.bitbuf, bitLen := BitVec.ofNat 32 x.length, pad := BitVec.ofNat 4 p.toNat } ∧
      Written (bitInput u) x ∧
      (∀ i, x.length ≤ i → i < 8 * ((x.length + 7) / 8) → Memory.bitRead u.bitbuf i = some false) ∧
      (∀ off, (x.length + 7) / 8 ≤ off → Memory.read u.bitbuf off = Memory.read s.bitbuf off) ∧
      (∀ part : List Bool, x = codesOf s.code syms ++ part → syms.length ≤ s.par.symCap → part ≠ [] →
        (∀ y, codeAt s.code y ≠ [] → ¬ (codeAt s.code y <+: part)) →
        exec .decompress s = .next
          (raiseError .malformedStream (BitVec.ofNat 32 (codesOf s.code syms).length) [.symbuf] u)) ∧
      (∀ (y : Byte) (rest : List Bool), codeAt s.code y ≠ [] → x = codesOf s.code (syms ++ [y]) ++ rest →
        syms.length = s.par.symCap →
        exec .decompress s = .next
          (raiseError .resource (BitVec.ofNat 32 ((codesOf s.code (syms ++ [y])).length - 1)) [.symbuf] u)))

/-- R235, R236: COMPRESS whose codes exceed BIT_CAP ends with ENCODE's RESOURCE, its information the position of the first symbol
whose code does not fit: BIT_LEN and PK_LEN are 0 and BITBUF and PKBUF unwritten, while COUNT, the tree and the table of the
input stay, and SYMBUF, SYM_LEN and PAD are as before. -/
def Obligations.CompressTooLongKeepsTable : Prop :=
  ∀ (s : State) (pre post : List Byte) (x : Byte) (cs : Counts), s.par.wf = true → s.symLen.toNat ≤ s.par.symCap →
    Written (symInput s) (pre ++ x :: post) → Counted cs (pre ++ x :: post) →
    (codesOf (tableOf cs) pre).length ≤ s.par.bitCap →
    s.par.bitCap < (codesOf (tableOf cs) pre).length + codeLen (tableOf cs) x →
    ∃ t u, exec .compress s = .next t ∧ t = raiseError .resource (BitVec.ofNat 32 pre.length) [.bitbuf, .pkbuf] u ∧
      u = { s with
        count := cs, node := arenaOf (build cs).1, nodeCount := BitVec.ofNat 9 (2 * numSyms cs - 1)
        treeRoot := BitVec.ofNat 9 (build cs).2, treeValid := true, code := tableOf cs, tableValid := true
        maxCodeLen := t.maxCodeLen } ∧
      (∀ y, codeLen (tableOf cs) y ≤ t.maxCodeLen.toNat) ∧ (∃ y, codeLen (tableOf cs) y = t.maxCodeLen.toNat) ∧
      (s.err = false → t.err = true ∧ t.errCode = .resource ∧ t.errInfo = BitVec.ofNat 32 pre.length) ∧ t.busy = false ∧
      t.bitLen = 0#32 ∧ t.pkLen = 0#32 ∧ (∀ off, bufRead t .bitbuf off = none ∧ bufRead t .pkbuf off = none) ∧
      t.count = cs ∧ t.node = u.node ∧ t.nodeCount = u.nodeCount ∧ t.treeRoot = u.treeRoot ∧ t.code = tableOf cs ∧
      t.treeValid = true ∧ t.tableValid = true ∧ t.symbuf = s.symbuf ∧ t.symLen = s.symLen ∧ t.pad = s.pad

/-- R238: DECOMPRESS of a stream whose payload without its padding is the codes of `syms` completes with those symbols, with
BITBUF, BIT_LEN and PAD as UNPACK leaves them; COUNT, the tree, the table and PKBUF stay. -/
def Obligations.DecompressRecoversText : Prop :=
  ∀ (s : State) (p : Byte) (payload syms : List Byte) (x : List Bool), s.par.wf = true → s.pkLen.toNat ≤ s.par.pkCap →
    s.tableValid = true → PrefixFree s.code → AllCoded s.code syms → s.pkLen ≠ 0#32 →
    Memory.read s.pkbuf 0 = some p → p.toNat ≤ 8 → p.toNat ≤ 8 * (s.pkLen.toNat - 1) →
    Written (payloadInput s) payload → x = codesOf s.code syms →
    x = (payload.flatMap bits8).take (8 * (s.pkLen.toNat - 1) - p.toNat) → x.length ≤ s.par.bitCap →
    syms.length ≤ s.par.symCap →
    ∃ t, exec .decompress s = .next t ∧
      t = { s with
        symbuf := t.symbuf, symLen := BitVec.ofNat 32 syms.length, bitbuf := t.bitbuf
        bitLen := BitVec.ofNat 32 x.length, pad := BitVec.ofNat 4 p.toNat, busy := false
        intStat := s.intStat ||| 1#2 } ∧
      Written (symInput t) syms ∧ Written (bitInput t) x ∧
      (∀ i, x.length ≤ i → i < 8 * ((x.length + 7) / 8) → Memory.bitRead t.bitbuf i = some false) ∧
      (∀ off, syms.length ≤ off → Memory.read t.symbuf off = Memory.read s.symbuf off) ∧
      (∀ off, (x.length + 7) / 8 ≤ off → Memory.read t.bitbuf off = Memory.read s.bitbuf off)

/-- R239: if COMPRESS succeeds, then on any later state with the same table and the same packed stream in PKBUF, DECOMPRESS gives
back the text. -/
def Obligations.CompressDecompressRoundTrip : Prop :=
  ∀ (s t u : State) (syms : List Byte), s.par.wf = true → s.symLen.toNat ≤ s.par.symCap → Written (symInput s) syms →
    s.intStat.getLsbD 0 = false → exec .compress s = .next t → t.intStat.getLsbD 0 = true →
    u.par = s.par → u.tableValid = true → u.code = t.code → u.pkLen = t.pkLen →
    (∀ off, off < t.pkLen.toNat → bufRead u .pkbuf off = bufRead t .pkbuf off) →
    ∃ v, exec .decompress u = .next v ∧ v.intStat.getLsbD 0 = true ∧ v.symLen = s.symLen ∧ Written (symInput v) syms

/-! ### Frames -/

/-- R24, R28, R48, R300: what no command changes: the parameters, INT_EN, PENDING, the reset input, the turns to come, the last
answer on the bus and the free values; every command that answers a next state ends with BUSY = 0, and only CLEAR changes
LAST_CMD. -/
def Obligations.CommandsKeepHostSide : Prop :=
  ∀ (i : Instr) (s t : State), exec i s = .next t →
    t.par = s.par ∧ t.intEn = s.intEn ∧ t.pending = s.pending ∧ t.resetPin = s.resetPin ∧ t.inputs = s.inputs ∧
    t.bus = s.bus ∧ t.freeCtr = s.freeCtr ∧ t.busy = false ∧ (i ≠ .clear → t.lastCmd = s.lastCmd)

/-- R142, R144, R161, R182, R233: the commands without an output leave every byte of every buffer, every length and PAD alone,
and of COUNT, the tree and the table change only what their own rules name. -/
def Obligations.RegisterCommandsKeepBuffers : Prop :=
  ∀ (i : Instr) (s t : State),
    (i = .nop ∨ i = .fcClear ∨ (addedSymbols i).isSome ∨ i = .fcScan ∨ i = .tbBuild ∨ i = .ctGen) → exec i s = .next t →
    (∀ b off, bufRead t b off = bufRead s b off) ∧ (∀ b, bufLen t b = bufLen s b) ∧ t.pad = s.pad ∧
    ((i = .nop ∨ i = .tbBuild ∨ i = .ctGen) → t.count = s.count) ∧
    (∀ syms, addedSymbols i = some syms → ∀ x, x ∉ syms → countAt t.count x = countAt s.count x) ∧
    (i ≠ .tbBuild → t.node = s.node ∧ t.nodeCount = s.nodeCount ∧ t.treeRoot = s.treeRoot ∧ t.treeValid = s.treeValid) ∧
    (i ≠ .tbBuild ∧ i ≠ .ctGen → t.code = s.code ∧ t.maxCodeLen = s.maxCodeLen ∧ t.tableValid = s.tableValid)

/-- R200, R212, R215, R250, R238, R280: the commands that read the table leave COUNT, the tree and the table alone, and change no
buffer and no length but their outputs': BITBUF for ENCODE and UNPACK, PKBUF for PACK, SYMBUF for DECODE, BITBUF and SYMBUF for
DECOMPRESS. ENCODE and DECODE leave PAD. COMPRESS leaves SYMBUF and SYM_LEN alone (R236), also when it fails. -/
def Obligations.CodecCommandsKeepTables : Prop :=
  ∀ (i : Instr) (outs : List Buf) (s t : State),
    (i, outs) ∈ [(Instr.encode, [Buf.bitbuf]), (.unpack, [.bitbuf]), (.pack, [.pkbuf]), (.decode, [.symbuf]),
      (.decompress, [.bitbuf, .symbuf])] → exec i s = .next t →
    t.count = s.count ∧ t.node = s.node ∧ t.nodeCount = s.nodeCount ∧ t.treeRoot = s.treeRoot ∧
    t.treeValid = s.treeValid ∧ t.code = s.code ∧ t.maxCodeLen = s.maxCodeLen ∧ t.tableValid = s.tableValid ∧
    (∀ b, b ∉ outs → bufLen t b = bufLen s b ∧ ∀ off, bufRead t b off = bufRead s b off) ∧
    ((i = .encode ∨ i = .decode) → t.pad = s.pad) ∧
    (∀ u, exec .compress s = .next u → u.symLen = s.symLen ∧ ∀ off, bufRead u .symbuf off = bufRead s .symbuf off)

/-- R41, R43: no host access that goes on changes the tree, the table, their registers or valid bits, or PAD; the host cannot
write them. R89: a word write of a read-only register, of the CODE window or of the NODE window, with BUSY = 0, changes nothing.
A word access of a reserved offset, busy or not, reads 0, ignores its write and gets no BERR. -/
def Obligations.HostCannotWriteReadOnlyState : Prop :=
  (∀ (off : Offset) (w : Width) (v : Word) (s t : State), (hostRead off w s = .next t ∨ hostWrite off w v s = .next t) →
    t.node = s.node ∧ t.code = s.code ∧ t.nodeCount = s.nodeCount ∧ t.treeRoot = s.treeRoot ∧
    t.maxCodeLen = s.maxCodeLen ∧ t.treeValid = s.treeValid ∧ t.tableValid = s.tableValid ∧ t.pad = s.pad ∧
    t.par = s.par) ∧
  ∀ (s : State) (off : Offset) (v : Word), s.resetPin = false → off.toNat % 4 = 0 →
    (s.busy = false →
      off.toNat ∈ [0x000, 0x004, 0x008, 0x00C, 0x014, 0x018, 0x034, 0x038, 0x03C, 0x040, 0x044, 0x048, 0x04C] ∨
      (0x1000 ≤ off.toNat ∧ off.toNat < 0x5000) ∨ (0x8000 ≤ off.toNat ∧ off.toNat < 0x9FF0) →
      hostWrite off .word v s = .next { s with bus := some { berr := false, data := none } }) ∧
    (ReservedOffset off.toNat →
      hostRead off .word s = .next { s with bus := some { berr := false, data := some 0#32 } } ∧
      hostWrite off .word v s = .next { s with bus := some { berr := false, data := none } })

/-! ### Host accesses -/

/-- R231: a write of CMD while BUSY = 0 puts the word in flight, legal or not; while an error is recorded every word but CLEAR's is
dropped and only OVF changes. -/
def Obligations.CommandIssue : Prop :=
  ∀ (s : State) (w : Word), s.resetPin = false → s.busy = false →
    (s.err = false ∨ w = 0x10000000#32 → hostWrite 0x010#26 .word w s =
      .next { s with pending := w, lastCmd := w, busy := true, bus := some writeAnswer }) ∧
    (s.err = true → w ≠ 0x10000000#32 → hostWrite 0x010#26 .word w s =
      .next { s with ovf := true, bus := some writeAnswer })

/-- R278 (PROTOCOL is code 8), R232, R91: while BUSY = 1, an access that reaches something outside the busy-safe set records PROTOCOL
with its offset and has no other effect on HCC: a write is dropped, a read answers a free value (log 5). The busy-safe set is
written out: reads of nine registers, writes of three, and every access of a reserved offset, so that a second command is not
issued. The model's choices, not rules: the dropped access gets no BERR (log 10), and words 9 to 15 of a CODE entry and writes of
read-only registers are not in the set (log 11). -/
def Obligations.BusyAccessRecordsProtocol : Prop :=
  ErrCode.protocol.code = 8#4 ∧ ∀ (s : State) (off : Offset) (w : Width) (v : Word) (g : Target), s.resetPin = false → s.busy = true →
    target s.par off w = some g →
    (busySafeRead g = true ↔
      off.toNat ∈ [0x000, 0x004, 0x008, 0x00C, 0x010, 0x014, 0x018, 0x020, 0x024] ∨ ReservedOffset off.toNat) ∧
    (busySafeWrite g = true ↔ off.toNat ∈ [0x01C, 0x020, 0x024] ∨ ReservedOffset off.toNat) ∧
    (busySafeWrite g = false → hostWrite off w v s =
      .next { recordError .protocol (off.setWidth 32) s with bus := some writeAnswer }) ∧
    (busySafeRead g = false → ∃ x, hostRead off w s =
      .next { recordError .protocol (off.setWidth 32) s with
        bus := some (readAnswer x), freeCtr := s.freeCtr + 1 }) ∧
    (off = 0x010#26 → busySafeWrite g = false)

/-- R92, R86, R88, R81: a misaligned access, an access of the registers and windows that is not a word, one of an unmapped offset
and one that ends beyond a buffer get BERR; a read returns 0, and nothing of HCC changes. -/
def Obligations.BusErrorChangesNothing : Prop :=
  ∀ (s : State) (off : Offset) (w : Width) (v : Word), s.resetPin = false →
    (off.toNat % w.bytes ≠ 0 ∨ (off.toNat < 0x10000 ∧ w ≠ .word) ∨ (0x10000 ≤ off.toNat ∧ off.toNat < 0x1000000) ∨
      (∃ b : Buf, b.base ≤ off.toNat ∧ off.toNat < b.base + 0x1000000 ∧ b.base + b.capacity s.par < off.toNat + w.bytes)) →
    hostRead off w s = .next { s with bus := some { berr := true, data := some 0#32 } } ∧
    hostWrite off w v s = .next { s with bus := some { berr := true, data := none } }

/-- R93: a read that is performed changes nothing but the answer on the bus. -/
def Obligations.ReadsHaveNoSideEffects : Prop :=
  ∀ (s t : State) (off : Offset) (w : Width), hostRead off w s = .next t →
    (s.busy = false ∨ ∀ g, target s.par off w = some g → busySafeRead g = true) → t = { s with bus := t.bus }

/-- R33: a write of SYM_LEN, BIT_LEN or PK_LEN is stored when at most the capacity, and otherwise leaves the register and records
RESOURCE with the value. -/
def Obligations.LengthWritesCheckCapacity : Prop :=
  ∀ (s : State) (v : Word), s.resetPin = false → s.busy = false →
    hostWrite 0x028#26 .word v s = .next (if v.toNat ≤ s.par.symCap then { s with symLen := v, bus := some writeAnswer }
      else { recordError .resource v s with bus := some writeAnswer }) ∧
    hostWrite 0x02C#26 .word v s = .next (if v.toNat ≤ s.par.bitCap then { s with bitLen := v, bus := some writeAnswer }
      else { recordError .resource v s with bus := some writeAnswer }) ∧
    hostWrite 0x030#26 .word v s = .next (if v.toNat ≤ s.par.pkCap then { s with pkLen := v, bus := some writeAnswer }
      else { recordError .resource v s with bus := some writeAnswer })

/-- R40: a write of the COUNT window sets that counter to any value and changes nothing else, and reads it back. -/
def Obligations.CountWindowReadsBack : Prop :=
  ∀ (s : State) (x : Byte) (v : Word), s.resetPin = false → s.busy = false →
    ∃ cs, hostWrite (countOffset x) .word v s = .next { s with count := cs, bus := some writeAnswer } ∧
      countAt cs x = v ∧ (∀ y, y ≠ x → countAt cs y = countAt s.count y) ∧
      hostRead (countOffset x) .word { s with count := cs } =
        .next { s with count := cs, bus := some { berr := false, data := some v } }

/-- R84, R87: a buffer write stores its bytes, the least significant first, and leaves every other byte alone; a read of the same
width at the same offset returns them as one little-endian value. That a narrow write takes the low bytes of a value that does not
fit, and that a narrow read has zeros above its bytes, are the model's choices (logs 19 and 15). -/
def Obligations.BufferWritesReadBack : Prop :=
  ∀ (s : State) (b : Buf) (idx : Nat) (w : Width) (v : Word), s.par.wf = true → s.resetPin = false → s.busy = false →
    idx % w.bytes = 0 → idx + w.bytes ≤ b.capacity s.par →
    ∃ t, hostWrite (bufOffset b idx) w v s = .next t ∧ t = { b.put s (b.content t) with bus := some writeAnswer } ∧
      (∀ i, i < w.bytes → bufRead t b (idx + i) = some (v.extractLsb' (8 * i) 8)) ∧
      (∀ off, off < idx ∨ idx + w.bytes ≤ off → bufRead t b off = bufRead s b off) ∧
      hostRead (bufOffset b idx) w t =
        .next { t with bus := some { berr := false, data := some (BitVec.ofNat 32 (v.toNat % 2 ^ (8 * w.bytes))) } }

/-- R286: a command that reads a byte that is not written stops with UNWRITTEN_READ at the first such byte that its pseudocode reads
(which byte the fault names is the model's choice, log 7): COMPRESS and ENCODE at a symbol, PACK at a byte of BITBUF, UNPACK and
DECOMPRESS at the header or at a payload byte, DECODE at a byte of BITBUF, after complete codes and the beginning `part` of the
next one, if any. (FcScanAddsEverySymbol says so of FC_SCAN.) -/
def Obligations.UnwrittenCommandReadStops : Prop :=
  ∀ s : State,
    (∀ (pre : List Byte) (rest : List (Option Byte)), symInput s = pre.map some ++ none :: rest →
      exec .compress s = .fault (.unwrittenRead .symbuf pre.length) ∧
      (s.tableValid = true → AllCoded s.code pre → (codesOf s.code pre).length ≤ s.par.bitCap →
        exec .encode s = .fault (.unwrittenRead .symbuf pre.length))) ∧
    (∀ i, s.bitLen.toNat / 8 + 2 ≤ s.par.pkCap → i < (s.bitLen.toNat + 7) / 8 → Memory.read s.bitbuf i = none →
      (∀ j, j < i → Memory.read s.bitbuf j ≠ none) → exec .pack s = .fault (.unwrittenRead .bitbuf i)) ∧
    (∀ c : Instr, c = .unpack ∨ (c = .decompress ∧ s.tableValid = true) →
      (s.pkLen ≠ 0#32 → Memory.read s.pkbuf 0 = none → exec c s = .fault (.unwrittenRead .pkbuf 0)) ∧
      (∀ (p : Byte) (i : Nat), Memory.read s.pkbuf 0 = some p → p.toNat ≤ 8 → p.toNat ≤ 8 * (s.pkLen.toNat - 1) →
        8 * (s.pkLen.toNat - 1) - p.toNat ≤ s.par.bitCap → i < s.pkLen.toNat → Memory.read s.pkbuf i = none →
        (∀ j, j < i → Memory.read s.pkbuf j ≠ none) → exec c s = .fault (.unwrittenRead .pkbuf i))) ∧
    (∀ (syms : List Byte) (part : List Bool) (rest : List (Option Bool)), s.tableValid = true → PrefixFree s.code →
      AllCoded s.code syms → bitInput s = (codesOf s.code syms ++ part).map some ++ none :: rest →
      syms.length ≤ s.par.symCap → (∀ y, codeAt s.code y ≠ [] → ¬ (codeAt s.code y <+: part)) →
      exec .decode s = .fault (.unwrittenRead .bitbuf ((codesOf s.code syms ++ part).length / 8)))

/-- R286: a host read of a buffer, any byte of which is unwritten, stops with UNWRITTEN_READ. That the fault names the lowest such
offset, where several bytes are unwritten, is the model's choice (log 7). -/
def Obligations.UnwrittenHostReadStops : Prop :=
  ∀ (s : State) (b : Buf) (idx i : Nat) (w : Width), s.par.wf = true → s.resetPin = false → s.busy = false →
    idx % w.bytes = 0 → idx + w.bytes ≤ b.capacity s.par → i < w.bytes → bufRead s b (idx + i) = none →
    (∀ j, j < i → bufRead s b (idx + j) ≠ none) →
    hostRead (bufOffset b idx) w s = .fault (.unwrittenRead b (idx + i))

/-- R29, R28: a write of INT_STAT clears the bits written 1; a write of INT_EN keeps its two bits. Both are served while
BUSY = 1. -/
def Obligations.InterruptRegisterWrites : Prop :=
  ∀ (s : State) (v : Word), s.resetPin = false →
    hostWrite 0x024#26 .word v s =
      .next { s with intStat := s.intStat &&& ~~~ v.setWidth 2, bus := some writeAnswer } ∧
    hostWrite 0x020#26 .word v s = .next { s with intEn := v.setWidth 2, bus := some writeAnswer }

/-- R50, R284: IRQ is 1 exactly when DONE is pending and enabled or ERRI is pending and enabled. -/
def Obligations.IrqIsPendingAndEnabled : Prop :=
  ∀ s : State, irq s = true ↔
    (s.intStat.getLsbD 0 = true ∧ s.intEn.getLsbD 0 = true) ∨ (s.intStat.getLsbD 1 = true ∧ s.intEn.getLsbD 1 = true)

/-- R44: a read of the CODE window returns CODE_LEN in word 0 and the code bits, first bit most significant, in words 1 to 8,
zeros after the code's end, and 0 in words 9 to 15; a write anywhere in it is ignored. -/
def Obligations.CodeWindowShowsCode : Prop :=
  ∀ (s : State) (x : Byte) (k : Nat), s.resetPin = false → s.busy = false → codeLen s.code x ≤ 255 → k < 16 →
    ∃ v, hostRead (codeOffset x k) .word s = .next { s with bus := some { berr := false, data := some v } } ∧
      (k = 0 → v.toNat = codeLen s.code x) ∧
      (∀ j, 1 ≤ k → k ≤ 8 → j < 32 → v.getLsbD (31 - j) = (codeAt s.code x).getD (32 * (k - 1) + j) false) ∧
      (9 ≤ k → v = 0#32) ∧
      ∀ u : Word, hostWrite (codeOffset x k) .word u s = .next { s with bus := some writeAnswer }

/-- R42: a read of the NODE window returns the four words of an entry in use, and 0 for an empty one. -/
def Obligations.NodeWindowShowsEntry : Prop :=
  ∀ (s : State) (i : NodeIdx) (k : Nat), s.resetPin = false → s.busy = false → i.toNat < 511 → k < 4 →
    ∃ v, hostRead (nodeOffset i k) .word s = .next { s with bus := some { berr := false, data := some v } } ∧
      (nodeAt s.node i = none → v = 0#32) ∧
      (∀ n, nodeAt s.node i = some n → (k = 0 → v.toNat = n.freq.toNat % 2 ^ 32) ∧
        (k = 1 → v.toNat % 2 ^ 30 = n.freq.toNat / 2 ^ 32 ∧ (v.getLsbD 30 = true ↔ n.children ≠ []) ∧
          (v.getLsbD 31 = true ↔ i.toNat < s.nodeCount.toNat))) ∧
      (∀ sym f, nodeAt s.node i = some (.leaf sym f) →
        (k = 2 → v.toNat = sym.toNat) ∧ (k = 3 → v = 0#32)) ∧
      (∀ f l r, nodeAt s.node i = some (.internal f l r) →
        (k = 2 → v.toNat = l.toNat) ∧ (k = 3 → v.toNat = r.toNat))

/-- R25: the fields of STATUS, read at any time. R21 to R39: what a word read at each other register's offset returns (ERRACK's is in
ErrAckClearsError): ID, the capacities, CMD, which shows LAST_CMD, ERR_INFO, INT_EN and INT_STAT at any time (R91), and the lengths,
NUM_SYMS, the two words of FC_TOTAL, TREE_ROOT, NODE_COUNT, MAX_CODE_LEN and PAD with BUSY = 0. No read changes anything (R93). -/
def Obligations.RegisterReadsShowState : Prop :=
  ∀ s : State, s.resetPin = false →
    (∃ v, hostRead 0x014#26 .word s = .next { s with bus := some { berr := false, data := some v } } ∧
      v.getLsbD 0 = s.busy ∧ v.getLsbD 1 = s.err ∧ v.getLsbD 2 = s.ovf ∧ v.getLsbD 3 = s.treeValid ∧
      v.getLsbD 4 = s.tableValid ∧ v.extractLsb' 5 3 = 0#3 ∧ v.extractLsb' 8 4 = s.errCode.code ∧ v.extractLsb' 12 20 = 0#20) ∧
    ∀ (off : Offset) (v : Word),
      ((off, v) ∈ [(0x000#26, 0x48554646#32), (0x004#26, BitVec.ofNat 32 s.par.symCap),
          (0x008#26, BitVec.ofNat 32 s.par.bitCap), (0x00C#26, BitVec.ofNat 32 s.par.pkCap), (0x010#26, s.lastCmd),
          (0x018#26, s.errInfo), (0x020#26, s.intEn.setWidth 32), (0x024#26, s.intStat.setWidth 32)] ∨
        (s.busy = false ∧
          (off, v) ∈ [(0x028#26, s.symLen), (0x02C#26, s.bitLen), (0x030#26, s.pkLen),
            (0x034#26, BitVec.ofNat 32 (numSyms s.count)), (0x038#26, BitVec.ofNat 32 (fcTotal s.count % 2 ^ 32)),
            (0x03C#26, BitVec.ofNat 32 (fcTotal s.count / 2 ^ 32)), (0x040#26, s.treeRoot.setWidth 32),
            (0x044#26, s.nodeCount.setWidth 32), (0x048#26, s.maxCodeLen.setWidth 32), (0x04C#26, s.pad.setWidth 32)])) →
      hostRead off .word s = .next { s with bus := some { berr := false, data := some v } }
end

