-- ==== Sys2Proof/Laws/Memory.lean ====
section
/-! SUPPORT. The buffers: what a read returns after a write, and that every write keeps the canonical form and the capacity. -/

namespace Sys2Proof.Machine

@[simp] theorem Memory.read_nil (k : Nat) : Memory.read [] k = none := rfl

theorem Memory.read_write (m : Memory) (k j : Nat) (v : Byte) :
    Memory.read (Memory.write m k v) j = if j = k then some v else Memory.read m j := by
  induction m with
  | nil => simp [Memory.write, Memory.read, eq_comm]
  | cons c m ih =>
    obtain ⟨a, b⟩ := c
    by_cases h1 : k < a
    · simp only [Memory.write, if_pos h1, Memory.read, eq_comm (a := k)]
    · by_cases h2 : k = a
      · subst h2
        by_cases hj : j = k <;> simp [Memory.write, Memory.read, hj, eq_comm (a := k)]
      · simp only [Memory.write, if_neg h1, if_neg h2, Memory.read, ih]
        by_cases hj : j = k
        · rw [if_pos hj, if_neg (by omega), if_pos hj]
        · rw [if_neg hj, if_neg hj]

@[simp] theorem Memory.writeBytes_nil (m : Memory) (k : Nat) : Memory.writeBytes m k [] = m := rfl

theorem Memory.writeBytes_cons (m : Memory) (k : Nat) (b : Byte) (bs : List Byte) :
    Memory.writeBytes m k (b :: bs) = Memory.writeBytes (Memory.write m k b) (k + 1) bs := rfl

/-- What a read returns after a write of consecutive bytes. -/
theorem Memory.read_writeBytes (m : Memory) (k j : Nat) (bs : List Byte) :
    Memory.read (Memory.writeBytes m k bs) j =
      if k ≤ j ∧ j < k + bs.length then bs[j - k]? else Memory.read m j := by
  induction bs generalizing m k with
  | nil => rw [Memory.writeBytes_nil, if_neg (by rw [List.length_nil]; omega)]
  | cons b bs ih =>
    rw [Memory.writeBytes_cons, ih, Memory.read_write, List.length_cons]
    by_cases hj : j = k
    · subst hj; simp
    · by_cases hr : k + 1 ≤ j ∧ j < k + 1 + bs.length
      · rw [if_pos hr, if_pos (by omega), show j - k = (j - (k + 1)) + 1 by omega, List.getElem?_cons_succ]
      · rw [if_neg hr, if_neg hj, if_neg (by omega)]

theorem Memory.read_writeBytes_of_lt (m : Memory) (k j : Nat) (bs : List Byte) (h : j < k ∨ k + bs.length ≤ j) :
    Memory.read (Memory.writeBytes m k bs) j = Memory.read m j := by
  rw [Memory.read_writeBytes, if_neg (by omega)]

/-! ### The canonical form -/

/-- Every listed offset of a canonical content, but the first, lies above the first. -/
theorem Memory.wf_cons (a : Nat) (b : Byte) (m : Memory) :
    Memory.wf ((a, b) :: m) = true ↔ (∀ c ∈ m, a < c.1) ∧ Memory.wf m = true := by
  induction m generalizing a b with
  | nil => simp [Memory.wf]
  | cons c m ih =>
    obtain ⟨k, v⟩ := c
    simp only [Memory.wf, Bool.and_eq_true, decide_eq_true_eq, List.mem_cons, forall_eq_or_imp]
    constructor
    · rintro ⟨h1, h2⟩
      exact ⟨⟨h1, fun c hc => Nat.lt_trans h1 (((ih k v).1 h2).1 c hc)⟩, h2⟩
    · rintro ⟨⟨h1, -⟩, h2⟩
      exact ⟨h1, h2⟩

theorem Memory.mem_write (m : Memory) (k : Nat) (v : Byte) (c : Host.Cell) (h : c ∈ Memory.write m k v) :
    c.1 = k ∨ c ∈ m := by
  induction m with
  | nil => simp [Memory.write] at h; simp [h]
  | cons d m ih =>
    obtain ⟨a, b⟩ := d
    simp only [Memory.write] at h
    split_ifs at h with h1 h2
    · simp only [List.mem_cons] at h ⊢
      rcases h with h | h | h <;> simp [h]
    · simp only [List.mem_cons] at h ⊢
      rcases h with h | h <;> simp [h]
    · simp only [List.mem_cons] at h ⊢
      rcases h with h | h
      · simp [h]
      · rcases ih h with h | h <;> simp [h]

theorem Memory.wf_write (m : Memory) (k : Nat) (v : Byte) (h : Memory.wf m = true) :
    Memory.wf (Memory.write m k v) = true := by
  induction m with
  | nil => rfl
  | cons d m ih =>
    obtain ⟨a, b⟩ := d
    have hd := (Memory.wf_cons a b m).1 h
    simp only [Memory.write]
    split_ifs with h1 h2
    · rw [Memory.wf_cons]
      refine ⟨fun c hc => ?_, h⟩
      rcases List.mem_cons.1 hc with rfl | hc
      · exact h1
      · exact Nat.lt_trans h1 (hd.1 c hc)
    · subst h2; rw [Memory.wf_cons]; exact hd
    · rw [Memory.wf_cons]
      refine ⟨fun c hc => ?_, ih hd.2⟩
      rcases Memory.mem_write m k v c hc with hc | hc
      · omega
      · exact hd.1 c hc

theorem Memory.wf_writeBytes (m : Memory) (k : Nat) (bs : List Byte) (h : Memory.wf m = true) :
    Memory.wf (Memory.writeBytes m k bs) = true := by
  induction bs generalizing m k with
  | nil => exact h
  | cons b bs ih => exact ih _ _ (Memory.wf_write m k b h)

theorem Memory.below_write (cap : Nat) (m : Memory) (k : Nat) (v : Byte) (hk : k < cap)
    (h : Memory.below cap m = true) : Memory.below cap (Memory.write m k v) = true := by
  simp only [Memory.below, List.all_eq_true, decide_eq_true_eq] at h ⊢
  intro c hc
  rcases Memory.mem_write m k v c hc with hc | hc
  · omega
  · exact h c hc

theorem Memory.below_writeBytes (cap : Nat) (m : Memory) (k : Nat) (bs : List Byte) (hk : k + bs.length ≤ cap)
    (h : Memory.below cap m = true) : Memory.below cap (Memory.writeBytes m k bs) = true := by
  induction bs generalizing m k with
  | nil => exact h
  | cons b bs ih =>
    rw [List.length_cons] at hk
    exact ih _ _ (by omega) (Memory.below_write cap m k b (by omega) h)

/-! ### Reading consecutive bytes -/

@[simp] theorem Memory.length_readBytes (m : Memory) (k n : Nat) : (Memory.readBytes m k n).length = n := by
  simp [Memory.readBytes]

theorem Memory.getElem?_readBytes (m : Memory) (k n i : Nat) :
    (Memory.readBytes m k n)[i]? = if i < n then some (Memory.read m (k + i)) else none := by
  simp only [Memory.readBytes, List.getElem?_map]
  split_ifs with h
  · simp [List.getElem?_range h]
  · simp [List.getElem?_eq_none (l := List.range n) (i := i) (by simpa using h)]

/-- The bytes read are written, with the values `xs`, exactly when every one of them is. -/
theorem Memory.readBytes_eq_map_some (m : Memory) (k n : Nat) (xs : List Byte) :
    Memory.readBytes m k n = xs.map some ↔ xs.length = n ∧ ∀ i < n, Memory.read m (k + i) = xs[i]? := by
  constructor
  · intro h
    have hl : xs.length = n := by simpa using (congrArg List.length h).symm
    refine ⟨hl, fun i hi => ?_⟩
    have h' := congrArg (fun l => l[i]?) h
    simp only [Memory.getElem?_readBytes, if_pos hi, List.getElem?_map] at h'
    rw [List.getElem?_eq_getElem (by omega)] at h' ⊢
    simpa using h'
  · rintro ⟨hl, h⟩
    apply List.ext_getElem?
    intro i
    rw [Memory.getElem?_readBytes, List.getElem?_map]
    split_ifs with hi
    · rw [h i hi, List.getElem?_eq_getElem (by omega)]; rfl
    · rw [List.getElem?_eq_none (by omega)]; rfl

end Sys2Proof.Machine
end

