-- ==== Sys2Proof/Laws/Bits.lean ====
section
/-! SUPPORT. Bit sequences (00_scope.md R7, 20_memory.md R85): bytes and their eight bits, the bytes of a sequence, and reading
back the bits a command wrote. -/

namespace Sys2Proof.Machine

@[simp] theorem length_zeros (k : Nat) : (zeros k).length = k := by simp [zeros]

@[simp] theorem length_bits8 (b : Byte) : (bits8 b).length = 8 := rfl

@[simp] theorem length_firstEight (x : List Bool) : (firstEight x).length = 8 := by
  simp [firstEight]; omega

theorem getElem?_bits8 (b : Byte) (i : Nat) (h : i < 8) : (bits8 b)[i]? = some (b.getLsbD (7 - i)) := by
  have : i = 0 ∨ i = 1 ∨ i = 2 ∨ i = 3 ∨ i = 4 ∨ i = 5 ∨ i = 6 ∨ i = 7 := by omega
  rcases this with rfl | rfl | rfl | rfl | rfl | rfl | rfl | rfl <;> rfl

/-- A sequence of eight bits is the bits of its byte. -/
theorem bits8_byteOf (x : List Bool) (h : x.length = 8) : bits8 (byteOf x) = x := by
  match x, h with
  | [a, b, c, d, e, f, g, i], _ =>
    cases a <;> cases b <;> cases c <;> cases d <;> cases e <;> cases f <;> cases g <;> cases i <;> decide

/-- A byte is the byte of its eight bits. -/
theorem byteOf_bits8 (b : Byte) : byteOf (bits8 b) = b := by
  revert b; decide

@[simp] theorem length_chunkBytes (n : Nat) (x : List Bool) : (chunkBytes n x).length = n := by
  induction n generalizing x with
  | zero => rfl
  | succ n ih => simp [chunkBytes, ih]

/-- Byte `j` of a bit sequence holds its bits from `8 j` on. -/
theorem getElem?_chunkBytes (n j : Nat) (x : List Bool) (h : j < n) :
    (chunkBytes n x)[j]? = some (byteOf (firstEight (x.drop (8 * j)))) := by
  induction n generalizing x j with
  | zero => omega
  | succ n ih =>
    cases j with
    | zero => simp [chunkBytes]
    | succ j =>
      rw [chunkBytes, List.getElem?_cons_succ, ih j _ (by omega), List.drop_drop,
        show 8 + 8 * j = 8 * (j + 1) by omega]

/-- The bits of the bytes of a sequence are the sequence, with zeros after it. -/
theorem flatMap_chunkBytes (n : Nat) (x : List Bool) :
    (chunkBytes n x).flatMap bits8 = (x ++ zeros (8 * n - x.length)).take (8 * n) := by
  induction n generalizing x with
  | zero => simp [chunkBytes]
  | succ n ih =>
    rw [chunkBytes, List.flatMap_cons, ih, bits8_byteOf _ (length_firstEight x)]
    apply List.ext_getElem?
    intro i
    simp only [firstEight, zeros, List.getElem?_append, List.getElem?_take, List.getElem?_replicate, List.length_append,
      List.length_take, List.length_replicate, List.length_drop, List.getElem?_drop]
    split_ifs <;> first | rfl | omega | skip
    all_goals congr 1; omega

@[simp] theorem length_bitsToBytes (x : List Bool) : (bitsToBytes x).length = (x.length + 7) / 8 := by
  simp [bitsToBytes]

/-- Bit `7 - i` of the first byte of a sequence is its bit `i`, or 0 after its end. -/
theorem getLsbD_byteOf_firstEight (x : List Bool) (i : Nat) (h : i < 8) :
    (byteOf (firstEight x)).getLsbD (7 - i) = x.getD i false := by
  have hb : (bits8 (byteOf (firstEight x)))[i]? = (firstEight x)[i]? := by rw [bits8_byteOf _ (length_firstEight x)]
  rw [getElem?_bits8 _ i h] at hb
  rw [List.getD_eq_getElem?_getD]
  simp only [firstEight, zeros, List.getElem?_append, List.getElem?_take, List.getElem?_replicate, List.length_take] at hb
  by_cases hx : i < x.length
  · rw [if_pos (by omega), if_pos h] at hb
    rw [← hb]; rfl
  · rw [if_neg (by omega), if_pos (by omega)] at hb
    rw [List.getElem?_eq_none (by omega)]
    exact Option.some_inj.1 hb

/-- R85: a bit of the sequence a command wrote reads as written; the tail of the last byte reads 0. -/
theorem Memory.bitRead_writeBitSeq (m : Memory) (x : List Bool) (i : Nat) (h : i < 8 * ((x.length + 7) / 8)) :
    Memory.bitRead (Memory.writeBitSeq m x) i = some (x.getD i false) := by
  have hj : i / 8 < (x.length + 7) / 8 := by omega
  rw [Memory.bitRead, Memory.writeBitSeq, Memory.read_writeBytes, if_pos (by rw [length_bitsToBytes]; omega), bitsToBytes,
    Nat.sub_zero, getElem?_chunkBytes _ _ _ hj, Option.map_some, getLsbD_byteOf_firstEight _ _ (by omega)]
  rw [List.getD_eq_getElem?_getD, List.getD_eq_getElem?_getD, List.getElem?_drop, show 8 * (i / 8) + i % 8 = i by omega]

@[simp] theorem Memory.length_readBits (m : Memory) (n : Nat) : (Memory.readBits m n).length = n := by
  simp [Memory.readBits]

theorem Memory.getElem?_readBits (m : Memory) (n i : Nat) :
    (Memory.readBits m n)[i]? = if i < n then some (Memory.bitRead m i) else none := by
  simp only [Memory.readBits, List.getElem?_map]
  split_ifs with h
  · simp [List.getElem?_range h]
  · simp [List.getElem?_eq_none (l := List.range n) (i := i) (by simpa using h)]

/-- The bits read are there, with the values `xs`, exactly when every one of them is. -/
theorem Memory.readBits_eq_map_some (m : Memory) (n : Nat) (xs : List Bool) :
    Memory.readBits m n = xs.map some ↔ xs.length = n ∧ ∀ i < n, Memory.bitRead m i = xs[i]? := by
  constructor
  · intro h
    have hl : xs.length = n := by simpa using (congrArg List.length h).symm
    refine ⟨hl, fun i hi => ?_⟩
    have h' := congrArg (fun l => l[i]?) h
    simp only [Memory.getElem?_readBits, if_pos hi, List.getElem?_map] at h'
    rw [List.getElem?_eq_getElem (by omega)] at h' ⊢
    simpa using h'
  · rintro ⟨hl, h⟩
    apply List.ext_getElem?
    intro i
    rw [Memory.getElem?_readBits, List.getElem?_map]
    split_ifs with hi
    · rw [h i hi, List.getElem?_eq_getElem (by omega)]; rfl
    · rw [List.getElem?_eq_none (by omega)]; rfl

/-- R85: the sequence a command wrote is the sequence a later command reads. -/
theorem Memory.readBits_writeBitSeq (m : Memory) (x : List Bool) :
    Memory.readBits (Memory.writeBitSeq m x) x.length = x.map some := by
  rw [Memory.readBits_eq_map_some]
  refine ⟨rfl, fun i hi => ?_⟩
  rw [Memory.bitRead_writeBitSeq m x i (by omega), List.getD_eq_getElem?_getD, List.getElem?_eq_getElem hi]
  rfl

end Sys2Proof.Machine
end

