-- ==== Sys2Proof/Laws/State.lean ====
section
/-! SUPPORT. One lemma for each field under each named update of the state, so that no proof unfolds a record update. -/

namespace Sys2Proof.Machine

variable (s : State)

/-! ### complete -/

@[simp] theorem complete_par : (complete s).par = s.par := rfl
@[simp] theorem complete_lastCmd : (complete s).lastCmd = s.lastCmd := rfl
@[simp] theorem complete_pending : (complete s).pending = s.pending := rfl
@[simp] theorem complete_busy : (complete s).busy = false := rfl
@[simp] theorem complete_err : (complete s).err = s.err := rfl
@[simp] theorem complete_ovf : (complete s).ovf = s.ovf := rfl
@[simp] theorem complete_treeValid : (complete s).treeValid = s.treeValid := rfl
@[simp] theorem complete_tableValid : (complete s).tableValid = s.tableValid := rfl
@[simp] theorem complete_errCode : (complete s).errCode = s.errCode := rfl
@[simp] theorem complete_errInfo : (complete s).errInfo = s.errInfo := rfl
@[simp] theorem complete_intEn : (complete s).intEn = s.intEn := rfl
@[simp] theorem complete_intStat : (complete s).intStat = setDone s.intStat := rfl
@[simp] theorem complete_symLen : (complete s).symLen = s.symLen := rfl
@[simp] theorem complete_bitLen : (complete s).bitLen = s.bitLen := rfl
@[simp] theorem complete_pkLen : (complete s).pkLen = s.pkLen := rfl
@[simp] theorem complete_treeRoot : (complete s).treeRoot = s.treeRoot := rfl
@[simp] theorem complete_nodeCount : (complete s).nodeCount = s.nodeCount := rfl
@[simp] theorem complete_maxCodeLen : (complete s).maxCodeLen = s.maxCodeLen := rfl
@[simp] theorem complete_pad : (complete s).pad = s.pad := rfl
@[simp] theorem complete_count : (complete s).count = s.count := rfl
@[simp] theorem complete_node : (complete s).node = s.node := rfl
@[simp] theorem complete_code : (complete s).code = s.code := rfl
@[simp] theorem complete_symbuf : (complete s).symbuf = s.symbuf := rfl
@[simp] theorem complete_bitbuf : (complete s).bitbuf = s.bitbuf := rfl
@[simp] theorem complete_pkbuf : (complete s).pkbuf = s.pkbuf := rfl
@[simp] theorem complete_resetPin : (complete s).resetPin = s.resetPin := rfl
@[simp] theorem complete_inputs : (complete s).inputs = s.inputs := rfl
@[simp] theorem complete_bus : (complete s).bus = s.bus := rfl
@[simp] theorem complete_freeCtr : (complete s).freeCtr = s.freeCtr := rfl

/-! ### ackError -/

@[simp] theorem ackError_par : (ackError s).par = s.par := rfl
@[simp] theorem ackError_lastCmd : (ackError s).lastCmd = s.lastCmd := rfl
@[simp] theorem ackError_pending : (ackError s).pending = s.pending := rfl
@[simp] theorem ackError_busy : (ackError s).busy = s.busy := rfl
@[simp] theorem ackError_err : (ackError s).err = false := rfl
@[simp] theorem ackError_ovf : (ackError s).ovf = false := rfl
@[simp] theorem ackError_treeValid : (ackError s).treeValid = s.treeValid := rfl
@[simp] theorem ackError_tableValid : (ackError s).tableValid = s.tableValid := rfl
@[simp] theorem ackError_errCode : (ackError s).errCode = .noError := rfl
@[simp] theorem ackError_errInfo : (ackError s).errInfo = 0#32 := rfl
@[simp] theorem ackError_intEn : (ackError s).intEn = s.intEn := rfl
@[simp] theorem ackError_intStat : (ackError s).intStat = s.intStat := rfl
@[simp] theorem ackError_symLen : (ackError s).symLen = s.symLen := rfl
@[simp] theorem ackError_bitLen : (ackError s).bitLen = s.bitLen := rfl
@[simp] theorem ackError_pkLen : (ackError s).pkLen = s.pkLen := rfl
@[simp] theorem ackError_treeRoot : (ackError s).treeRoot = s.treeRoot := rfl
@[simp] theorem ackError_nodeCount : (ackError s).nodeCount = s.nodeCount := rfl
@[simp] theorem ackError_maxCodeLen : (ackError s).maxCodeLen = s.maxCodeLen := rfl
@[simp] theorem ackError_pad : (ackError s).pad = s.pad := rfl
@[simp] theorem ackError_count : (ackError s).count = s.count := rfl
@[simp] theorem ackError_node : (ackError s).node = s.node := rfl
@[simp] theorem ackError_code : (ackError s).code = s.code := rfl
@[simp] theorem ackError_symbuf : (ackError s).symbuf = s.symbuf := rfl
@[simp] theorem ackError_bitbuf : (ackError s).bitbuf = s.bitbuf := rfl
@[simp] theorem ackError_pkbuf : (ackError s).pkbuf = s.pkbuf := rfl
@[simp] theorem ackError_resetPin : (ackError s).resetPin = s.resetPin := rfl
@[simp] theorem ackError_inputs : (ackError s).inputs = s.inputs := rfl
@[simp] theorem ackError_bus : (ackError s).bus = s.bus := rfl
@[simp] theorem ackError_freeCtr : (ackError s).freeCtr = s.freeCtr := rfl

/-! ### clearTables -/

@[simp] theorem clearTables_par : (clearTables s).par = s.par := rfl
@[simp] theorem clearTables_lastCmd : (clearTables s).lastCmd = s.lastCmd := rfl
@[simp] theorem clearTables_pending : (clearTables s).pending = s.pending := rfl
@[simp] theorem clearTables_busy : (clearTables s).busy = s.busy := rfl
@[simp] theorem clearTables_err : (clearTables s).err = s.err := rfl
@[simp] theorem clearTables_ovf : (clearTables s).ovf = s.ovf := rfl
@[simp] theorem clearTables_treeValid : (clearTables s).treeValid = false := rfl
@[simp] theorem clearTables_tableValid : (clearTables s).tableValid = false := rfl
@[simp] theorem clearTables_errCode : (clearTables s).errCode = s.errCode := rfl
@[simp] theorem clearTables_errInfo : (clearTables s).errInfo = s.errInfo := rfl
@[simp] theorem clearTables_intEn : (clearTables s).intEn = s.intEn := rfl
@[simp] theorem clearTables_intStat : (clearTables s).intStat = s.intStat := rfl
@[simp] theorem clearTables_symLen : (clearTables s).symLen = s.symLen := rfl
@[simp] theorem clearTables_bitLen : (clearTables s).bitLen = s.bitLen := rfl
@[simp] theorem clearTables_pkLen : (clearTables s).pkLen = s.pkLen := rfl
@[simp] theorem clearTables_treeRoot : (clearTables s).treeRoot = 0#9 := rfl
@[simp] theorem clearTables_nodeCount : (clearTables s).nodeCount = 0#9 := rfl
@[simp] theorem clearTables_maxCodeLen : (clearTables s).maxCodeLen = 0#8 := rfl
@[simp] theorem clearTables_pad : (clearTables s).pad = s.pad := rfl
@[simp] theorem clearTables_count : (clearTables s).count = s.count := rfl
@[simp] theorem clearTables_node : (clearTables s).node = noNodes := rfl
@[simp] theorem clearTables_code : (clearTables s).code = noCodes := rfl
@[simp] theorem clearTables_symbuf : (clearTables s).symbuf = s.symbuf := rfl
@[simp] theorem clearTables_bitbuf : (clearTables s).bitbuf = s.bitbuf := rfl
@[simp] theorem clearTables_pkbuf : (clearTables s).pkbuf = s.pkbuf := rfl
@[simp] theorem clearTables_resetPin : (clearTables s).resetPin = s.resetPin := rfl
@[simp] theorem clearTables_inputs : (clearTables s).inputs = s.inputs := rfl
@[simp] theorem clearTables_bus : (clearTables s).bus = s.bus := rfl
@[simp] theorem clearTables_freeCtr : (clearTables s).freeCtr = s.freeCtr := rfl

/-! ### installTree -/

@[simp] theorem installTree_par (cs : Counts) : (installTree cs s).par = s.par := rfl
@[simp] theorem installTree_lastCmd (cs : Counts) : (installTree cs s).lastCmd = s.lastCmd := rfl
@[simp] theorem installTree_pending (cs : Counts) : (installTree cs s).pending = s.pending := rfl
@[simp] theorem installTree_busy (cs : Counts) : (installTree cs s).busy = s.busy := rfl
@[simp] theorem installTree_err (cs : Counts) : (installTree cs s).err = s.err := rfl
@[simp] theorem installTree_ovf (cs : Counts) : (installTree cs s).ovf = s.ovf := rfl
@[simp] theorem installTree_treeValid (cs : Counts) : (installTree cs s).treeValid = true := rfl
@[simp] theorem installTree_tableValid (cs : Counts) : (installTree cs s).tableValid = s.tableValid := rfl
@[simp] theorem installTree_errCode (cs : Counts) : (installTree cs s).errCode = s.errCode := rfl
@[simp] theorem installTree_errInfo (cs : Counts) : (installTree cs s).errInfo = s.errInfo := rfl
@[simp] theorem installTree_intEn (cs : Counts) : (installTree cs s).intEn = s.intEn := rfl
@[simp] theorem installTree_intStat (cs : Counts) : (installTree cs s).intStat = s.intStat := rfl
@[simp] theorem installTree_symLen (cs : Counts) : (installTree cs s).symLen = s.symLen := rfl
@[simp] theorem installTree_bitLen (cs : Counts) : (installTree cs s).bitLen = s.bitLen := rfl
@[simp] theorem installTree_pkLen (cs : Counts) : (installTree cs s).pkLen = s.pkLen := rfl
@[simp] theorem installTree_treeRoot (cs : Counts) : (installTree cs s).treeRoot = BitVec.ofNat 9 (build cs).2 := rfl
@[simp] theorem installTree_nodeCount (cs : Counts) : (installTree cs s).nodeCount = BitVec.ofNat 9 (2 * numSyms cs - 1) := rfl
@[simp] theorem installTree_maxCodeLen (cs : Counts) : (installTree cs s).maxCodeLen = s.maxCodeLen := rfl
@[simp] theorem installTree_pad (cs : Counts) : (installTree cs s).pad = s.pad := rfl
@[simp] theorem installTree_count (cs : Counts) : (installTree cs s).count = s.count := rfl
@[simp] theorem installTree_node (cs : Counts) : (installTree cs s).node = arenaOf (build cs).1 := rfl
@[simp] theorem installTree_code (cs : Counts) : (installTree cs s).code = s.code := rfl
@[simp] theorem installTree_symbuf (cs : Counts) : (installTree cs s).symbuf = s.symbuf := rfl
@[simp] theorem installTree_bitbuf (cs : Counts) : (installTree cs s).bitbuf = s.bitbuf := rfl
@[simp] theorem installTree_pkbuf (cs : Counts) : (installTree cs s).pkbuf = s.pkbuf := rfl
@[simp] theorem installTree_resetPin (cs : Counts) : (installTree cs s).resetPin = s.resetPin := rfl
@[simp] theorem installTree_inputs (cs : Counts) : (installTree cs s).inputs = s.inputs := rfl
@[simp] theorem installTree_bus (cs : Counts) : (installTree cs s).bus = s.bus := rfl
@[simp] theorem installTree_freeCtr (cs : Counts) : (installTree cs s).freeCtr = s.freeCtr := rfl

/-! ### installTable -/

@[simp] theorem installTable_par : (installTable s).par = s.par := rfl
@[simp] theorem installTable_lastCmd : (installTable s).lastCmd = s.lastCmd := rfl
@[simp] theorem installTable_pending : (installTable s).pending = s.pending := rfl
@[simp] theorem installTable_busy : (installTable s).busy = s.busy := rfl
@[simp] theorem installTable_err : (installTable s).err = s.err := rfl
@[simp] theorem installTable_ovf : (installTable s).ovf = s.ovf := rfl
@[simp] theorem installTable_treeValid : (installTable s).treeValid = s.treeValid := rfl
@[simp] theorem installTable_tableValid : (installTable s).tableValid = true := rfl
@[simp] theorem installTable_errCode : (installTable s).errCode = s.errCode := rfl
@[simp] theorem installTable_errInfo : (installTable s).errInfo = s.errInfo := rfl
@[simp] theorem installTable_intEn : (installTable s).intEn = s.intEn := rfl
@[simp] theorem installTable_intStat : (installTable s).intStat = s.intStat := rfl
@[simp] theorem installTable_symLen : (installTable s).symLen = s.symLen := rfl
@[simp] theorem installTable_bitLen : (installTable s).bitLen = s.bitLen := rfl
@[simp] theorem installTable_pkLen : (installTable s).pkLen = s.pkLen := rfl
@[simp] theorem installTable_treeRoot : (installTable s).treeRoot = s.treeRoot := rfl
@[simp] theorem installTable_nodeCount : (installTable s).nodeCount = s.nodeCount := rfl
@[simp] theorem installTable_maxCodeLen : (installTable s).maxCodeLen = BitVec.ofNat 8 (maxLen (codeTable s.node s.treeRoot)) := rfl
@[simp] theorem installTable_pad : (installTable s).pad = s.pad := rfl
@[simp] theorem installTable_count : (installTable s).count = s.count := rfl
@[simp] theorem installTable_node : (installTable s).node = s.node := rfl
@[simp] theorem installTable_code : (installTable s).code = codeTable s.node s.treeRoot := rfl
@[simp] theorem installTable_symbuf : (installTable s).symbuf = s.symbuf := rfl
@[simp] theorem installTable_bitbuf : (installTable s).bitbuf = s.bitbuf := rfl
@[simp] theorem installTable_pkbuf : (installTable s).pkbuf = s.pkbuf := rfl
@[simp] theorem installTable_resetPin : (installTable s).resetPin = s.resetPin := rfl
@[simp] theorem installTable_inputs : (installTable s).inputs = s.inputs := rfl
@[simp] theorem installTable_bus : (installTable s).bus = s.bus := rfl
@[simp] theorem installTable_freeCtr : (installTable s).freeCtr = s.freeCtr := rfl

/-! ### putBits -/

@[simp] theorem putBits_par (x : List Bool) : (putBits x s).par = s.par := rfl
@[simp] theorem putBits_lastCmd (x : List Bool) : (putBits x s).lastCmd = s.lastCmd := rfl
@[simp] theorem putBits_pending (x : List Bool) : (putBits x s).pending = s.pending := rfl
@[simp] theorem putBits_busy (x : List Bool) : (putBits x s).busy = s.busy := rfl
@[simp] theorem putBits_err (x : List Bool) : (putBits x s).err = s.err := rfl
@[simp] theorem putBits_ovf (x : List Bool) : (putBits x s).ovf = s.ovf := rfl
@[simp] theorem putBits_treeValid (x : List Bool) : (putBits x s).treeValid = s.treeValid := rfl
@[simp] theorem putBits_tableValid (x : List Bool) : (putBits x s).tableValid = s.tableValid := rfl
@[simp] theorem putBits_errCode (x : List Bool) : (putBits x s).errCode = s.errCode := rfl
@[simp] theorem putBits_errInfo (x : List Bool) : (putBits x s).errInfo = s.errInfo := rfl
@[simp] theorem putBits_intEn (x : List Bool) : (putBits x s).intEn = s.intEn := rfl
@[simp] theorem putBits_intStat (x : List Bool) : (putBits x s).intStat = s.intStat := rfl
@[simp] theorem putBits_symLen (x : List Bool) : (putBits x s).symLen = s.symLen := rfl
@[simp] theorem putBits_bitLen (x : List Bool) : (putBits x s).bitLen = BitVec.ofNat 32 x.length := rfl
@[simp] theorem putBits_pkLen (x : List Bool) : (putBits x s).pkLen = s.pkLen := rfl
@[simp] theorem putBits_treeRoot (x : List Bool) : (putBits x s).treeRoot = s.treeRoot := rfl
@[simp] theorem putBits_nodeCount (x : List Bool) : (putBits x s).nodeCount = s.nodeCount := rfl
@[simp] theorem putBits_maxCodeLen (x : List Bool) : (putBits x s).maxCodeLen = s.maxCodeLen := rfl
@[simp] theorem putBits_pad (x : List Bool) : (putBits x s).pad = s.pad := rfl
@[simp] theorem putBits_count (x : List Bool) : (putBits x s).count = s.count := rfl
@[simp] theorem putBits_node (x : List Bool) : (putBits x s).node = s.node := rfl
@[simp] theorem putBits_code (x : List Bool) : (putBits x s).code = s.code := rfl
@[simp] theorem putBits_symbuf (x : List Bool) : (putBits x s).symbuf = s.symbuf := rfl
@[simp] theorem putBits_bitbuf (x : List Bool) : (putBits x s).bitbuf = Memory.writeBitSeq s.bitbuf x := rfl
@[simp] theorem putBits_pkbuf (x : List Bool) : (putBits x s).pkbuf = s.pkbuf := rfl
@[simp] theorem putBits_resetPin (x : List Bool) : (putBits x s).resetPin = s.resetPin := rfl
@[simp] theorem putBits_inputs (x : List Bool) : (putBits x s).inputs = s.inputs := rfl
@[simp] theorem putBits_bus (x : List Bool) : (putBits x s).bus = s.bus := rfl
@[simp] theorem putBits_freeCtr (x : List Bool) : (putBits x s).freeCtr = s.freeCtr := rfl

/-! ### putPacked -/

@[simp] theorem putPacked_par (x : List Bool) : (putPacked x s).par = s.par := rfl
@[simp] theorem putPacked_lastCmd (x : List Bool) : (putPacked x s).lastCmd = s.lastCmd := rfl
@[simp] theorem putPacked_pending (x : List Bool) : (putPacked x s).pending = s.pending := rfl
@[simp] theorem putPacked_busy (x : List Bool) : (putPacked x s).busy = s.busy := rfl
@[simp] theorem putPacked_err (x : List Bool) : (putPacked x s).err = s.err := rfl
@[simp] theorem putPacked_ovf (x : List Bool) : (putPacked x s).ovf = s.ovf := rfl
@[simp] theorem putPacked_treeValid (x : List Bool) : (putPacked x s).treeValid = s.treeValid := rfl
@[simp] theorem putPacked_tableValid (x : List Bool) : (putPacked x s).tableValid = s.tableValid := rfl
@[simp] theorem putPacked_errCode (x : List Bool) : (putPacked x s).errCode = s.errCode := rfl
@[simp] theorem putPacked_errInfo (x : List Bool) : (putPacked x s).errInfo = s.errInfo := rfl
@[simp] theorem putPacked_intEn (x : List Bool) : (putPacked x s).intEn = s.intEn := rfl
@[simp] theorem putPacked_intStat (x : List Bool) : (putPacked x s).intStat = s.intStat := rfl
@[simp] theorem putPacked_symLen (x : List Bool) : (putPacked x s).symLen = s.symLen := rfl
@[simp] theorem putPacked_bitLen (x : List Bool) : (putPacked x s).bitLen = s.bitLen := rfl
@[simp] theorem putPacked_pkLen (x : List Bool) : (putPacked x s).pkLen = BitVec.ofNat 32 (packedLen x.length) := rfl
@[simp] theorem putPacked_treeRoot (x : List Bool) : (putPacked x s).treeRoot = s.treeRoot := rfl
@[simp] theorem putPacked_nodeCount (x : List Bool) : (putPacked x s).nodeCount = s.nodeCount := rfl
@[simp] theorem putPacked_maxCodeLen (x : List Bool) : (putPacked x s).maxCodeLen = s.maxCodeLen := rfl
@[simp] theorem putPacked_pad (x : List Bool) : (putPacked x s).pad = BitVec.ofNat 4 (padCount x.length) := rfl
@[simp] theorem putPacked_count (x : List Bool) : (putPacked x s).count = s.count := rfl
@[simp] theorem putPacked_node (x : List Bool) : (putPacked x s).node = s.node := rfl
@[simp] theorem putPacked_code (x : List Bool) : (putPacked x s).code = s.code := rfl
@[simp] theorem putPacked_symbuf (x : List Bool) : (putPacked x s).symbuf = s.symbuf := rfl
@[simp] theorem putPacked_bitbuf (x : List Bool) : (putPacked x s).bitbuf = s.bitbuf := rfl
@[simp] theorem putPacked_pkbuf (x : List Bool) : (putPacked x s).pkbuf = Memory.writeBytes s.pkbuf 0 (packedStream x) := rfl
@[simp] theorem putPacked_resetPin (x : List Bool) : (putPacked x s).resetPin = s.resetPin := rfl
@[simp] theorem putPacked_inputs (x : List Bool) : (putPacked x s).inputs = s.inputs := rfl
@[simp] theorem putPacked_bus (x : List Bool) : (putPacked x s).bus = s.bus := rfl
@[simp] theorem putPacked_freeCtr (x : List Bool) : (putPacked x s).freeCtr = s.freeCtr := rfl

/-! ### putUnpacked -/

@[simp] theorem putUnpacked_par (h : Byte) (n : Nat) (p : List Byte) : (putUnpacked h n p s).par = s.par := rfl
@[simp] theorem putUnpacked_lastCmd (h : Byte) (n : Nat) (p : List Byte) : (putUnpacked h n p s).lastCmd = s.lastCmd := rfl
@[simp] theorem putUnpacked_pending (h : Byte) (n : Nat) (p : List Byte) : (putUnpacked h n p s).pending = s.pending := rfl
@[simp] theorem putUnpacked_busy (h : Byte) (n : Nat) (p : List Byte) : (putUnpacked h n p s).busy = s.busy := rfl
@[simp] theorem putUnpacked_err (h : Byte) (n : Nat) (p : List Byte) : (putUnpacked h n p s).err = s.err := rfl
@[simp] theorem putUnpacked_ovf (h : Byte) (n : Nat) (p : List Byte) : (putUnpacked h n p s).ovf = s.ovf := rfl
@[simp] theorem putUnpacked_treeValid (h : Byte) (n : Nat) (p : List Byte) : (putUnpacked h n p s).treeValid = s.treeValid := rfl
@[simp] theorem putUnpacked_tableValid (h : Byte) (n : Nat) (p : List Byte) : (putUnpacked h n p s).tableValid = s.tableValid := rfl
@[simp] theorem putUnpacked_errCode (h : Byte) (n : Nat) (p : List Byte) : (putUnpacked h n p s).errCode = s.errCode := rfl
@[simp] theorem putUnpacked_errInfo (h : Byte) (n : Nat) (p : List Byte) : (putUnpacked h n p s).errInfo = s.errInfo := rfl
@[simp] theorem putUnpacked_intEn (h : Byte) (n : Nat) (p : List Byte) : (putUnpacked h n p s).intEn = s.intEn := rfl
@[simp] theorem putUnpacked_intStat (h : Byte) (n : Nat) (p : List Byte) : (putUnpacked h n p s).intStat = s.intStat := rfl
@[simp] theorem putUnpacked_symLen (h : Byte) (n : Nat) (p : List Byte) : (putUnpacked h n p s).symLen = s.symLen := rfl
@[simp] theorem putUnpacked_bitLen (h : Byte) (n : Nat) (p : List Byte) : (putUnpacked h n p s).bitLen = BitVec.ofNat 32 ((p.flatMap bits8).take n).length := rfl
@[simp] theorem putUnpacked_pkLen (h : Byte) (n : Nat) (p : List Byte) : (putUnpacked h n p s).pkLen = s.pkLen := rfl
@[simp] theorem putUnpacked_treeRoot (h : Byte) (n : Nat) (p : List Byte) : (putUnpacked h n p s).treeRoot = s.treeRoot := rfl
@[simp] theorem putUnpacked_nodeCount (h : Byte) (n : Nat) (p : List Byte) : (putUnpacked h n p s).nodeCount = s.nodeCount := rfl
@[simp] theorem putUnpacked_maxCodeLen (h : Byte) (n : Nat) (p : List Byte) : (putUnpacked h n p s).maxCodeLen = s.maxCodeLen := rfl
@[simp] theorem putUnpacked_pad (h : Byte) (n : Nat) (p : List Byte) : (putUnpacked h n p s).pad = BitVec.ofNat 4 h.toNat := rfl
@[simp] theorem putUnpacked_count (h : Byte) (n : Nat) (p : List Byte) : (putUnpacked h n p s).count = s.count := rfl
@[simp] theorem putUnpacked_node (h : Byte) (n : Nat) (p : List Byte) : (putUnpacked h n p s).node = s.node := rfl
@[simp] theorem putUnpacked_code (h : Byte) (n : Nat) (p : List Byte) : (putUnpacked h n p s).code = s.code := rfl
@[simp] theorem putUnpacked_symbuf (h : Byte) (n : Nat) (p : List Byte) : (putUnpacked h n p s).symbuf = s.symbuf := rfl
@[simp] theorem putUnpacked_bitbuf (h : Byte) (n : Nat) (p : List Byte) : (putUnpacked h n p s).bitbuf = Memory.writeBitSeq s.bitbuf ((p.flatMap bits8).take n) := rfl
@[simp] theorem putUnpacked_pkbuf (h : Byte) (n : Nat) (p : List Byte) : (putUnpacked h n p s).pkbuf = s.pkbuf := rfl
@[simp] theorem putUnpacked_resetPin (h : Byte) (n : Nat) (p : List Byte) : (putUnpacked h n p s).resetPin = s.resetPin := rfl
@[simp] theorem putUnpacked_inputs (h : Byte) (n : Nat) (p : List Byte) : (putUnpacked h n p s).inputs = s.inputs := rfl
@[simp] theorem putUnpacked_bus (h : Byte) (n : Nat) (p : List Byte) : (putUnpacked h n p s).bus = s.bus := rfl
@[simp] theorem putUnpacked_freeCtr (h : Byte) (n : Nat) (p : List Byte) : (putUnpacked h n p s).freeCtr = s.freeCtr := rfl

/-! ### putSymbols -/

@[simp] theorem putSymbols_par (xs : List Byte) : (putSymbols xs s).par = s.par := rfl
@[simp] theorem putSymbols_lastCmd (xs : List Byte) : (putSymbols xs s).lastCmd = s.lastCmd := rfl
@[simp] theorem putSymbols_pending (xs : List Byte) : (putSymbols xs s).pending = s.pending := rfl
@[simp] theorem putSymbols_busy (xs : List Byte) : (putSymbols xs s).busy = s.busy := rfl
@[simp] theorem putSymbols_err (xs : List Byte) : (putSymbols xs s).err = s.err := rfl
@[simp] theorem putSymbols_ovf (xs : List Byte) : (putSymbols xs s).ovf = s.ovf := rfl
@[simp] theorem putSymbols_treeValid (xs : List Byte) : (putSymbols xs s).treeValid = s.treeValid := rfl
@[simp] theorem putSymbols_tableValid (xs : List Byte) : (putSymbols xs s).tableValid = s.tableValid := rfl
@[simp] theorem putSymbols_errCode (xs : List Byte) : (putSymbols xs s).errCode = s.errCode := rfl
@[simp] theorem putSymbols_errInfo (xs : List Byte) : (putSymbols xs s).errInfo = s.errInfo := rfl
@[simp] theorem putSymbols_intEn (xs : List Byte) : (putSymbols xs s).intEn = s.intEn := rfl
@[simp] theorem putSymbols_intStat (xs : List Byte) : (putSymbols xs s).intStat = s.intStat := rfl
@[simp] theorem putSymbols_symLen (xs : List Byte) : (putSymbols xs s).symLen = BitVec.ofNat 32 xs.length := rfl
@[simp] theorem putSymbols_bitLen (xs : List Byte) : (putSymbols xs s).bitLen = s.bitLen := rfl
@[simp] theorem putSymbols_pkLen (xs : List Byte) : (putSymbols xs s).pkLen = s.pkLen := rfl
@[simp] theorem putSymbols_treeRoot (xs : List Byte) : (putSymbols xs s).treeRoot = s.treeRoot := rfl
@[simp] theorem putSymbols_nodeCount (xs : List Byte) : (putSymbols xs s).nodeCount = s.nodeCount := rfl
@[simp] theorem putSymbols_maxCodeLen (xs : List Byte) : (putSymbols xs s).maxCodeLen = s.maxCodeLen := rfl
@[simp] theorem putSymbols_pad (xs : List Byte) : (putSymbols xs s).pad = s.pad := rfl
@[simp] theorem putSymbols_count (xs : List Byte) : (putSymbols xs s).count = s.count := rfl
@[simp] theorem putSymbols_node (xs : List Byte) : (putSymbols xs s).node = s.node := rfl
@[simp] theorem putSymbols_code (xs : List Byte) : (putSymbols xs s).code = s.code := rfl
@[simp] theorem putSymbols_symbuf (xs : List Byte) : (putSymbols xs s).symbuf = Memory.writeBytes s.symbuf 0 xs := rfl
@[simp] theorem putSymbols_bitbuf (xs : List Byte) : (putSymbols xs s).bitbuf = s.bitbuf := rfl
@[simp] theorem putSymbols_pkbuf (xs : List Byte) : (putSymbols xs s).pkbuf = s.pkbuf := rfl
@[simp] theorem putSymbols_resetPin (xs : List Byte) : (putSymbols xs s).resetPin = s.resetPin := rfl
@[simp] theorem putSymbols_inputs (xs : List Byte) : (putSymbols xs s).inputs = s.inputs := rfl
@[simp] theorem putSymbols_bus (xs : List Byte) : (putSymbols xs s).bus = s.bus := rfl
@[simp] theorem putSymbols_freeCtr (xs : List Byte) : (putSymbols xs s).freeCtr = s.freeCtr := rfl

/-! ### cleared -/

@[simp] theorem cleared_par : (cleared s).par = s.par := rfl
@[simp] theorem cleared_lastCmd : (cleared s).lastCmd = 0#32 := rfl
@[simp] theorem cleared_pending : (cleared s).pending = s.pending := rfl
@[simp] theorem cleared_busy : (cleared s).busy = false := rfl
@[simp] theorem cleared_err : (cleared s).err = false := rfl
@[simp] theorem cleared_ovf : (cleared s).ovf = false := rfl
@[simp] theorem cleared_treeValid : (cleared s).treeValid = false := rfl
@[simp] theorem cleared_tableValid : (cleared s).tableValid = false := rfl
@[simp] theorem cleared_errCode : (cleared s).errCode = .noError := rfl
@[simp] theorem cleared_errInfo : (cleared s).errInfo = 0#32 := rfl
@[simp] theorem cleared_intEn : (cleared s).intEn = s.intEn := rfl
@[simp] theorem cleared_intStat : (cleared s).intStat = 0#2 := rfl
@[simp] theorem cleared_symLen : (cleared s).symLen = 0#32 := rfl
@[simp] theorem cleared_bitLen : (cleared s).bitLen = 0#32 := rfl
@[simp] theorem cleared_pkLen : (cleared s).pkLen = 0#32 := rfl
@[simp] theorem cleared_treeRoot : (cleared s).treeRoot = 0#9 := rfl
@[simp] theorem cleared_nodeCount : (cleared s).nodeCount = 0#9 := rfl
@[simp] theorem cleared_maxCodeLen : (cleared s).maxCodeLen = 0#8 := rfl
@[simp] theorem cleared_pad : (cleared s).pad = 0#4 := rfl
@[simp] theorem cleared_count : (cleared s).count = noCounts := rfl
@[simp] theorem cleared_node : (cleared s).node = noNodes := rfl
@[simp] theorem cleared_code : (cleared s).code = noCodes := rfl
@[simp] theorem cleared_symbuf : (cleared s).symbuf = s.symbuf := rfl
@[simp] theorem cleared_bitbuf : (cleared s).bitbuf = s.bitbuf := rfl
@[simp] theorem cleared_pkbuf : (cleared s).pkbuf = s.pkbuf := rfl
@[simp] theorem cleared_resetPin : (cleared s).resetPin = s.resetPin := rfl
@[simp] theorem cleared_inputs : (cleared s).inputs = s.inputs := rfl
@[simp] theorem cleared_bus : (cleared s).bus = s.bus := rfl
@[simp] theorem cleared_freeCtr : (cleared s).freeCtr = s.freeCtr := rfl

/-! ### answer -/

@[simp] theorem answer_par (r : BusResponse) : (answer r s).par = s.par := rfl
@[simp] theorem answer_lastCmd (r : BusResponse) : (answer r s).lastCmd = s.lastCmd := rfl
@[simp] theorem answer_pending (r : BusResponse) : (answer r s).pending = s.pending := rfl
@[simp] theorem answer_busy (r : BusResponse) : (answer r s).busy = s.busy := rfl
@[simp] theorem answer_err (r : BusResponse) : (answer r s).err = s.err := rfl
@[simp] theorem answer_ovf (r : BusResponse) : (answer r s).ovf = s.ovf := rfl
@[simp] theorem answer_treeValid (r : BusResponse) : (answer r s).treeValid = s.treeValid := rfl
@[simp] theorem answer_tableValid (r : BusResponse) : (answer r s).tableValid = s.tableValid := rfl
@[simp] theorem answer_errCode (r : BusResponse) : (answer r s).errCode = s.errCode := rfl
@[simp] theorem answer_errInfo (r : BusResponse) : (answer r s).errInfo = s.errInfo := rfl
@[simp] theorem answer_intEn (r : BusResponse) : (answer r s).intEn = s.intEn := rfl
@[simp] theorem answer_intStat (r : BusResponse) : (answer r s).intStat = s.intStat := rfl
@[simp] theorem answer_symLen (r : BusResponse) : (answer r s).symLen = s.symLen := rfl
@[simp] theorem answer_bitLen (r : BusResponse) : (answer r s).bitLen = s.bitLen := rfl
@[simp] theorem answer_pkLen (r : BusResponse) : (answer r s).pkLen = s.pkLen := rfl
@[simp] theorem answer_treeRoot (r : BusResponse) : (answer r s).treeRoot = s.treeRoot := rfl
@[simp] theorem answer_nodeCount (r : BusResponse) : (answer r s).nodeCount = s.nodeCount := rfl
@[simp] theorem answer_maxCodeLen (r : BusResponse) : (answer r s).maxCodeLen = s.maxCodeLen := rfl
@[simp] theorem answer_pad (r : BusResponse) : (answer r s).pad = s.pad := rfl
@[simp] theorem answer_count (r : BusResponse) : (answer r s).count = s.count := rfl
@[simp] theorem answer_node (r : BusResponse) : (answer r s).node = s.node := rfl
@[simp] theorem answer_code (r : BusResponse) : (answer r s).code = s.code := rfl
@[simp] theorem answer_symbuf (r : BusResponse) : (answer r s).symbuf = s.symbuf := rfl
@[simp] theorem answer_bitbuf (r : BusResponse) : (answer r s).bitbuf = s.bitbuf := rfl
@[simp] theorem answer_pkbuf (r : BusResponse) : (answer r s).pkbuf = s.pkbuf := rfl
@[simp] theorem answer_resetPin (r : BusResponse) : (answer r s).resetPin = s.resetPin := rfl
@[simp] theorem answer_inputs (r : BusResponse) : (answer r s).inputs = s.inputs := rfl
@[simp] theorem answer_bus (r : BusResponse) : (answer r s).bus = some r := rfl
@[simp] theorem answer_freeCtr (r : BusResponse) : (answer r s).freeCtr = s.freeCtr := rfl

/-! ### assertReset -/

@[simp] theorem assertReset_par : (assertReset s).par = s.par := rfl
@[simp] theorem assertReset_lastCmd : (assertReset s).lastCmd = 0#32 := rfl
@[simp] theorem assertReset_pending : (assertReset s).pending = 0#32 := rfl
@[simp] theorem assertReset_busy : (assertReset s).busy = false := rfl
@[simp] theorem assertReset_err : (assertReset s).err = false := rfl
@[simp] theorem assertReset_ovf : (assertReset s).ovf = false := rfl
@[simp] theorem assertReset_treeValid : (assertReset s).treeValid = false := rfl
@[simp] theorem assertReset_tableValid : (assertReset s).tableValid = false := rfl
@[simp] theorem assertReset_errCode : (assertReset s).errCode = .noError := rfl
@[simp] theorem assertReset_errInfo : (assertReset s).errInfo = 0#32 := rfl
@[simp] theorem assertReset_intEn : (assertReset s).intEn = 0#2 := rfl
@[simp] theorem assertReset_intStat : (assertReset s).intStat = 0#2 := rfl
@[simp] theorem assertReset_symLen : (assertReset s).symLen = 0#32 := rfl
@[simp] theorem assertReset_bitLen : (assertReset s).bitLen = 0#32 := rfl
@[simp] theorem assertReset_pkLen : (assertReset s).pkLen = 0#32 := rfl
@[simp] theorem assertReset_treeRoot : (assertReset s).treeRoot = 0#9 := rfl
@[simp] theorem assertReset_nodeCount : (assertReset s).nodeCount = 0#9 := rfl
@[simp] theorem assertReset_maxCodeLen : (assertReset s).maxCodeLen = 0#8 := rfl
@[simp] theorem assertReset_pad : (assertReset s).pad = 0#4 := rfl
@[simp] theorem assertReset_count : (assertReset s).count = noCounts := rfl
@[simp] theorem assertReset_node : (assertReset s).node = noNodes := rfl
@[simp] theorem assertReset_code : (assertReset s).code = noCodes := rfl
@[simp] theorem assertReset_symbuf : (assertReset s).symbuf = [] := rfl
@[simp] theorem assertReset_bitbuf : (assertReset s).bitbuf = [] := rfl
@[simp] theorem assertReset_pkbuf : (assertReset s).pkbuf = [] := rfl
@[simp] theorem assertReset_resetPin : (assertReset s).resetPin = true := rfl
@[simp] theorem assertReset_inputs : (assertReset s).inputs = s.inputs := rfl
@[simp] theorem assertReset_bus : (assertReset s).bus = none := rfl
@[simp] theorem assertReset_freeCtr : (assertReset s).freeCtr = s.freeCtr := rfl

/-! ### State.reset -/

@[simp] theorem reset_par : State.reset.par = Params.default := rfl
@[simp] theorem reset_lastCmd : State.reset.lastCmd = 0#32 := rfl
@[simp] theorem reset_pending : State.reset.pending = 0#32 := rfl
@[simp] theorem reset_busy : State.reset.busy = false := rfl
@[simp] theorem reset_err : State.reset.err = false := rfl
@[simp] theorem reset_ovf : State.reset.ovf = false := rfl
@[simp] theorem reset_treeValid : State.reset.treeValid = false := rfl
@[simp] theorem reset_tableValid : State.reset.tableValid = false := rfl
@[simp] theorem reset_errCode : State.reset.errCode = .noError := rfl
@[simp] theorem reset_errInfo : State.reset.errInfo = 0#32 := rfl
@[simp] theorem reset_intEn : State.reset.intEn = 0#2 := rfl
@[simp] theorem reset_intStat : State.reset.intStat = 0#2 := rfl
@[simp] theorem reset_symLen : State.reset.symLen = 0#32 := rfl
@[simp] theorem reset_bitLen : State.reset.bitLen = 0#32 := rfl
@[simp] theorem reset_pkLen : State.reset.pkLen = 0#32 := rfl
@[simp] theorem reset_treeRoot : State.reset.treeRoot = 0#9 := rfl
@[simp] theorem reset_nodeCount : State.reset.nodeCount = 0#9 := rfl
@[simp] theorem reset_maxCodeLen : State.reset.maxCodeLen = 0#8 := rfl
@[simp] theorem reset_pad : State.reset.pad = 0#4 := rfl
@[simp] theorem reset_count : State.reset.count = noCounts := rfl
@[simp] theorem reset_node : State.reset.node = noNodes := rfl
@[simp] theorem reset_code : State.reset.code = noCodes := rfl
@[simp] theorem reset_symbuf : State.reset.symbuf = [] := rfl
@[simp] theorem reset_bitbuf : State.reset.bitbuf = [] := rfl
@[simp] theorem reset_pkbuf : State.reset.pkbuf = [] := rfl
@[simp] theorem reset_resetPin : State.reset.resetPin = false := rfl
@[simp] theorem reset_inputs : State.reset.inputs = [] := rfl
@[simp] theorem reset_bus : State.reset.bus = none := rfl
@[simp] theorem reset_freeCtr : State.reset.freeCtr = 0 := rfl

/-! ### recordError -/

@[simp] theorem recordError_par (e : ErrCode) (v : Word) : (recordError e v s).par = s.par := by
  unfold recordError; split <;> rfl
@[simp] theorem recordError_lastCmd (e : ErrCode) (v : Word) : (recordError e v s).lastCmd = s.lastCmd := by
  unfold recordError; split <;> rfl
@[simp] theorem recordError_pending (e : ErrCode) (v : Word) : (recordError e v s).pending = s.pending := by
  unfold recordError; split <;> rfl
@[simp] theorem recordError_busy (e : ErrCode) (v : Word) : (recordError e v s).busy = s.busy := by
  unfold recordError; split <;> rfl
@[simp] theorem recordError_treeValid (e : ErrCode) (v : Word) : (recordError e v s).treeValid = s.treeValid := by
  unfold recordError; split <;> rfl
@[simp] theorem recordError_tableValid (e : ErrCode) (v : Word) : (recordError e v s).tableValid = s.tableValid := by
  unfold recordError; split <;> rfl
@[simp] theorem recordError_intEn (e : ErrCode) (v : Word) : (recordError e v s).intEn = s.intEn := by
  unfold recordError; split <;> rfl
@[simp] theorem recordError_symLen (e : ErrCode) (v : Word) : (recordError e v s).symLen = s.symLen := by
  unfold recordError; split <;> rfl
@[simp] theorem recordError_bitLen (e : ErrCode) (v : Word) : (recordError e v s).bitLen = s.bitLen := by
  unfold recordError; split <;> rfl
@[simp] theorem recordError_pkLen (e : ErrCode) (v : Word) : (recordError e v s).pkLen = s.pkLen := by
  unfold recordError; split <;> rfl
@[simp] theorem recordError_treeRoot (e : ErrCode) (v : Word) : (recordError e v s).treeRoot = s.treeRoot := by
  unfold recordError; split <;> rfl
@[simp] theorem recordError_nodeCount (e : ErrCode) (v : Word) : (recordError e v s).nodeCount = s.nodeCount := by
  unfold recordError; split <;> rfl
@[simp] theorem recordError_maxCodeLen (e : ErrCode) (v : Word) : (recordError e v s).maxCodeLen = s.maxCodeLen := by
  unfold recordError; split <;> rfl
@[simp] theorem recordError_pad (e : ErrCode) (v : Word) : (recordError e v s).pad = s.pad := by
  unfold recordError; split <;> rfl
@[simp] theorem recordError_count (e : ErrCode) (v : Word) : (recordError e v s).count = s.count := by
  unfold recordError; split <;> rfl
@[simp] theorem recordError_node (e : ErrCode) (v : Word) : (recordError e v s).node = s.node := by
  unfold recordError; split <;> rfl
@[simp] theorem recordError_code (e : ErrCode) (v : Word) : (recordError e v s).code = s.code := by
  unfold recordError; split <;> rfl
@[simp] theorem recordError_symbuf (e : ErrCode) (v : Word) : (recordError e v s).symbuf = s.symbuf := by
  unfold recordError; split <;> rfl
@[simp] theorem recordError_bitbuf (e : ErrCode) (v : Word) : (recordError e v s).bitbuf = s.bitbuf := by
  unfold recordError; split <;> rfl
@[simp] theorem recordError_pkbuf (e : ErrCode) (v : Word) : (recordError e v s).pkbuf = s.pkbuf := by
  unfold recordError; split <;> rfl
@[simp] theorem recordError_resetPin (e : ErrCode) (v : Word) : (recordError e v s).resetPin = s.resetPin := by
  unfold recordError; split <;> rfl
@[simp] theorem recordError_inputs (e : ErrCode) (v : Word) : (recordError e v s).inputs = s.inputs := by
  unfold recordError; split <;> rfl
@[simp] theorem recordError_bus (e : ErrCode) (v : Word) : (recordError e v s).bus = s.bus := by
  unfold recordError; split <;> rfl
@[simp] theorem recordError_freeCtr (e : ErrCode) (v : Word) : (recordError e v s).freeCtr = s.freeCtr := by
  unfold recordError; split <;> rfl
@[simp] theorem recordError_err (e : ErrCode) (v : Word) : (recordError e v s).err = true := by
  unfold recordError; split <;> simp_all
@[simp] theorem recordError_ovf (e : ErrCode) (v : Word) : (recordError e v s).ovf = (s.ovf || s.err) := by
  unfold recordError; split <;> simp_all
@[simp] theorem recordError_errCode (e : ErrCode) (v : Word) :
    (recordError e v s).errCode = if s.err then s.errCode else e := by
  unfold recordError; split <;> simp_all
@[simp] theorem recordError_errInfo (e : ErrCode) (v : Word) :
    (recordError e v s).errInfo = if s.err then s.errInfo else v := by
  unfold recordError; split <;> simp_all
@[simp] theorem recordError_intStat (e : ErrCode) (v : Word) :
    (recordError e v s).intStat = if s.err then s.intStat else setErri s.intStat := by
  unfold recordError; split <;> simp_all

/-! ### clearOutputs and raiseError -/

@[simp] theorem clearOutput_par (b : Buf) : (clearOutput b s).par = s.par := by cases b <;> rfl
@[simp] theorem clearOutput_lastCmd (b : Buf) : (clearOutput b s).lastCmd = s.lastCmd := by cases b <;> rfl
@[simp] theorem clearOutput_pending (b : Buf) : (clearOutput b s).pending = s.pending := by cases b <;> rfl
@[simp] theorem clearOutput_busy (b : Buf) : (clearOutput b s).busy = s.busy := by cases b <;> rfl
@[simp] theorem clearOutput_err (b : Buf) : (clearOutput b s).err = s.err := by cases b <;> rfl
@[simp] theorem clearOutput_ovf (b : Buf) : (clearOutput b s).ovf = s.ovf := by cases b <;> rfl
@[simp] theorem clearOutput_treeValid (b : Buf) : (clearOutput b s).treeValid = s.treeValid := by cases b <;> rfl
@[simp] theorem clearOutput_tableValid (b : Buf) : (clearOutput b s).tableValid = s.tableValid := by cases b <;> rfl
@[simp] theorem clearOutput_errCode (b : Buf) : (clearOutput b s).errCode = s.errCode := by cases b <;> rfl
@[simp] theorem clearOutput_errInfo (b : Buf) : (clearOutput b s).errInfo = s.errInfo := by cases b <;> rfl
@[simp] theorem clearOutput_intEn (b : Buf) : (clearOutput b s).intEn = s.intEn := by cases b <;> rfl
@[simp] theorem clearOutput_intStat (b : Buf) : (clearOutput b s).intStat = s.intStat := by cases b <;> rfl
@[simp] theorem clearOutput_treeRoot (b : Buf) : (clearOutput b s).treeRoot = s.treeRoot := by cases b <;> rfl
@[simp] theorem clearOutput_nodeCount (b : Buf) : (clearOutput b s).nodeCount = s.nodeCount := by cases b <;> rfl
@[simp] theorem clearOutput_maxCodeLen (b : Buf) : (clearOutput b s).maxCodeLen = s.maxCodeLen := by cases b <;> rfl
@[simp] theorem clearOutput_pad (b : Buf) : (clearOutput b s).pad = s.pad := by cases b <;> rfl
@[simp] theorem clearOutput_count (b : Buf) : (clearOutput b s).count = s.count := by cases b <;> rfl
@[simp] theorem clearOutput_node (b : Buf) : (clearOutput b s).node = s.node := by cases b <;> rfl
@[simp] theorem clearOutput_code (b : Buf) : (clearOutput b s).code = s.code := by cases b <;> rfl
@[simp] theorem clearOutput_resetPin (b : Buf) : (clearOutput b s).resetPin = s.resetPin := by cases b <;> rfl
@[simp] theorem clearOutput_inputs (b : Buf) : (clearOutput b s).inputs = s.inputs := by cases b <;> rfl
@[simp] theorem clearOutput_bus (b : Buf) : (clearOutput b s).bus = s.bus := by cases b <;> rfl
@[simp] theorem clearOutput_freeCtr (b : Buf) : (clearOutput b s).freeCtr = s.freeCtr := by cases b <;> rfl

@[simp] theorem clearOutputs_nil : clearOutputs [] s = s := rfl
@[simp] theorem clearOutputs_cons (b : Buf) (bs : List Buf) :
    clearOutputs (b :: bs) s = clearOutputs bs (clearOutput b s) := rfl

@[simp] theorem clearOutputs_par (bs : List Buf) : (clearOutputs bs s).par = s.par := by
  induction bs generalizing s with
  | nil => rfl
  | cons b bs ih => rw [clearOutputs_cons, ih, clearOutput_par]
@[simp] theorem clearOutputs_lastCmd (bs : List Buf) : (clearOutputs bs s).lastCmd = s.lastCmd := by
  induction bs generalizing s with
  | nil => rfl
  | cons b bs ih => rw [clearOutputs_cons, ih, clearOutput_lastCmd]
@[simp] theorem clearOutputs_pending (bs : List Buf) : (clearOutputs bs s).pending = s.pending := by
  induction bs generalizing s with
  | nil => rfl
  | cons b bs ih => rw [clearOutputs_cons, ih, clearOutput_pending]
@[simp] theorem clearOutputs_busy (bs : List Buf) : (clearOutputs bs s).busy = s.busy := by
  induction bs generalizing s with
  | nil => rfl
  | cons b bs ih => rw [clearOutputs_cons, ih, clearOutput_busy]
@[simp] theorem clearOutputs_err (bs : List Buf) : (clearOutputs bs s).err = s.err := by
  induction bs generalizing s with
  | nil => rfl
  | cons b bs ih => rw [clearOutputs_cons, ih, clearOutput_err]
@[simp] theorem clearOutputs_ovf (bs : List Buf) : (clearOutputs bs s).ovf = s.ovf := by
  induction bs generalizing s with
  | nil => rfl
  | cons b bs ih => rw [clearOutputs_cons, ih, clearOutput_ovf]
@[simp] theorem clearOutputs_treeValid (bs : List Buf) : (clearOutputs bs s).treeValid = s.treeValid := by
  induction bs generalizing s with
  | nil => rfl
  | cons b bs ih => rw [clearOutputs_cons, ih, clearOutput_treeValid]
@[simp] theorem clearOutputs_tableValid (bs : List Buf) : (clearOutputs bs s).tableValid = s.tableValid := by
  induction bs generalizing s with
  | nil => rfl
  | cons b bs ih => rw [clearOutputs_cons, ih, clearOutput_tableValid]
@[simp] theorem clearOutputs_errCode (bs : List Buf) : (clearOutputs bs s).errCode = s.errCode := by
  induction bs generalizing s with
  | nil => rfl
  | cons b bs ih => rw [clearOutputs_cons, ih, clearOutput_errCode]
@[simp] theorem clearOutputs_errInfo (bs : List Buf) : (clearOutputs bs s).errInfo = s.errInfo := by
  induction bs generalizing s with
  | nil => rfl
  | cons b bs ih => rw [clearOutputs_cons, ih, clearOutput_errInfo]
@[simp] theorem clearOutputs_intEn (bs : List Buf) : (clearOutputs bs s).intEn = s.intEn := by
  induction bs generalizing s with
  | nil => rfl
  | cons b bs ih => rw [clearOutputs_cons, ih, clearOutput_intEn]
@[simp] theorem clearOutputs_intStat (bs : List Buf) : (clearOutputs bs s).intStat = s.intStat := by
  induction bs generalizing s with
  | nil => rfl
  | cons b bs ih => rw [clearOutputs_cons, ih, clearOutput_intStat]
@[simp] theorem clearOutputs_treeRoot (bs : List Buf) : (clearOutputs bs s).treeRoot = s.treeRoot := by
  induction bs generalizing s with
  | nil => rfl
  | cons b bs ih => rw [clearOutputs_cons, ih, clearOutput_treeRoot]
@[simp] theorem clearOutputs_nodeCount (bs : List Buf) : (clearOutputs bs s).nodeCount = s.nodeCount := by
  induction bs generalizing s with
  | nil => rfl
  | cons b bs ih => rw [clearOutputs_cons, ih, clearOutput_nodeCount]
@[simp] theorem clearOutputs_maxCodeLen (bs : List Buf) : (clearOutputs bs s).maxCodeLen = s.maxCodeLen := by
  induction bs generalizing s with
  | nil => rfl
  | cons b bs ih => rw [clearOutputs_cons, ih, clearOutput_maxCodeLen]
@[simp] theorem clearOutputs_pad (bs : List Buf) : (clearOutputs bs s).pad = s.pad := by
  induction bs generalizing s with
  | nil => rfl
  | cons b bs ih => rw [clearOutputs_cons, ih, clearOutput_pad]
@[simp] theorem clearOutputs_count (bs : List Buf) : (clearOutputs bs s).count = s.count := by
  induction bs generalizing s with
  | nil => rfl
  | cons b bs ih => rw [clearOutputs_cons, ih, clearOutput_count]
@[simp] theorem clearOutputs_node (bs : List Buf) : (clearOutputs bs s).node = s.node := by
  induction bs generalizing s with
  | nil => rfl
  | cons b bs ih => rw [clearOutputs_cons, ih, clearOutput_node]
@[simp] theorem clearOutputs_code (bs : List Buf) : (clearOutputs bs s).code = s.code := by
  induction bs generalizing s with
  | nil => rfl
  | cons b bs ih => rw [clearOutputs_cons, ih, clearOutput_code]
@[simp] theorem clearOutputs_resetPin (bs : List Buf) : (clearOutputs bs s).resetPin = s.resetPin := by
  induction bs generalizing s with
  | nil => rfl
  | cons b bs ih => rw [clearOutputs_cons, ih, clearOutput_resetPin]
@[simp] theorem clearOutputs_inputs (bs : List Buf) : (clearOutputs bs s).inputs = s.inputs := by
  induction bs generalizing s with
  | nil => rfl
  | cons b bs ih => rw [clearOutputs_cons, ih, clearOutput_inputs]
@[simp] theorem clearOutputs_bus (bs : List Buf) : (clearOutputs bs s).bus = s.bus := by
  induction bs generalizing s with
  | nil => rfl
  | cons b bs ih => rw [clearOutputs_cons, ih, clearOutput_bus]
@[simp] theorem clearOutputs_freeCtr (bs : List Buf) : (clearOutputs bs s).freeCtr = s.freeCtr := by
  induction bs generalizing s with
  | nil => rfl
  | cons b bs ih => rw [clearOutputs_cons, ih, clearOutput_freeCtr]

@[simp] theorem raiseError_busy (e : ErrCode) (v : Word) (bs : List Buf) : (raiseError e v bs s).busy = false := rfl
@[simp] theorem raiseError_par (e : ErrCode) (v : Word) (bs : List Buf) :
    (raiseError e v bs s).par = (recordError e v s).par := by simp [raiseError]
@[simp] theorem raiseError_lastCmd (e : ErrCode) (v : Word) (bs : List Buf) :
    (raiseError e v bs s).lastCmd = (recordError e v s).lastCmd := by simp [raiseError]
@[simp] theorem raiseError_pending (e : ErrCode) (v : Word) (bs : List Buf) :
    (raiseError e v bs s).pending = (recordError e v s).pending := by simp [raiseError]
@[simp] theorem raiseError_err (e : ErrCode) (v : Word) (bs : List Buf) :
    (raiseError e v bs s).err = (recordError e v s).err := by simp [raiseError]
@[simp] theorem raiseError_ovf (e : ErrCode) (v : Word) (bs : List Buf) :
    (raiseError e v bs s).ovf = (recordError e v s).ovf := by simp [raiseError]
@[simp] theorem raiseError_treeValid (e : ErrCode) (v : Word) (bs : List Buf) :
    (raiseError e v bs s).treeValid = (recordError e v s).treeValid := by simp [raiseError]
@[simp] theorem raiseError_tableValid (e : ErrCode) (v : Word) (bs : List Buf) :
    (raiseError e v bs s).tableValid = (recordError e v s).tableValid := by simp [raiseError]
@[simp] theorem raiseError_errCode (e : ErrCode) (v : Word) (bs : List Buf) :
    (raiseError e v bs s).errCode = (recordError e v s).errCode := by simp [raiseError]
@[simp] theorem raiseError_errInfo (e : ErrCode) (v : Word) (bs : List Buf) :
    (raiseError e v bs s).errInfo = (recordError e v s).errInfo := by simp [raiseError]
@[simp] theorem raiseError_intEn (e : ErrCode) (v : Word) (bs : List Buf) :
    (raiseError e v bs s).intEn = (recordError e v s).intEn := by simp [raiseError]
@[simp] theorem raiseError_intStat (e : ErrCode) (v : Word) (bs : List Buf) :
    (raiseError e v bs s).intStat = (recordError e v s).intStat := by simp [raiseError]
@[simp] theorem raiseError_treeRoot (e : ErrCode) (v : Word) (bs : List Buf) :
    (raiseError e v bs s).treeRoot = (recordError e v s).treeRoot := by simp [raiseError]
@[simp] theorem raiseError_nodeCount (e : ErrCode) (v : Word) (bs : List Buf) :
    (raiseError e v bs s).nodeCount = (recordError e v s).nodeCount := by simp [raiseError]
@[simp] theorem raiseError_maxCodeLen (e : ErrCode) (v : Word) (bs : List Buf) :
    (raiseError e v bs s).maxCodeLen = (recordError e v s).maxCodeLen := by simp [raiseError]
@[simp] theorem raiseError_pad (e : ErrCode) (v : Word) (bs : List Buf) :
    (raiseError e v bs s).pad = (recordError e v s).pad := by simp [raiseError]
@[simp] theorem raiseError_count (e : ErrCode) (v : Word) (bs : List Buf) :
    (raiseError e v bs s).count = (recordError e v s).count := by simp [raiseError]
@[simp] theorem raiseError_node (e : ErrCode) (v : Word) (bs : List Buf) :
    (raiseError e v bs s).node = (recordError e v s).node := by simp [raiseError]
@[simp] theorem raiseError_code (e : ErrCode) (v : Word) (bs : List Buf) :
    (raiseError e v bs s).code = (recordError e v s).code := by simp [raiseError]
@[simp] theorem raiseError_resetPin (e : ErrCode) (v : Word) (bs : List Buf) :
    (raiseError e v bs s).resetPin = (recordError e v s).resetPin := by simp [raiseError]
@[simp] theorem raiseError_inputs (e : ErrCode) (v : Word) (bs : List Buf) :
    (raiseError e v bs s).inputs = (recordError e v s).inputs := by simp [raiseError]
@[simp] theorem raiseError_bus (e : ErrCode) (v : Word) (bs : List Buf) :
    (raiseError e v bs s).bus = (recordError e v s).bus := by simp [raiseError]
@[simp] theorem raiseError_freeCtr (e : ErrCode) (v : Word) (bs : List Buf) :
    (raiseError e v bs s).freeCtr = (recordError e v s).freeCtr := by simp [raiseError]

end Sys2Proof.Machine
end

