-- ==== Sys2Proof/Laws/Ops.lean ====
section
/-! SUPPORT. What the shared operations do, said once: gathering inputs, the register arrays, the buffers by name, raising an error,
and the ways a command or a macro can end. -/

namespace Sys2Proof.Machine

/-! ### gather -/

theorem gather_map_some {α : Type} (pos : Nat) (xs : List α) : gather pos (xs.map some) = .ok xs := by
  induction xs generalizing pos with
  | nil => rfl
  | cons x xs ih => simp [gather, ih]

/-- `gather` answers values exactly when all inputs are written. -/
theorem gather_eq_ok {α : Type} (pos : Nat) (l : List (Option α)) (xs : List α) :
    gather pos l = .ok xs ↔ Written l xs := by
  constructor
  · induction l generalizing pos xs with
    | nil => intro h; cases h; rfl
    | cons a l ih =>
      cases a with
      | none => intro h; cases h
      | some x =>
        intro h
        simp only [gather] at h
        split at h
        · next ys hy => cases h; simpa [Written] using ih _ _ hy
        · cases h
  · rintro rfl; exact gather_map_some pos xs

/-- `gather` stops at the first missing input. -/
theorem gather_first_none {α : Type} (pos : Nat) (xs : List α) (r : List (Option α)) :
    gather pos (xs.map some ++ none :: r) = .error (pos + xs.length) := by
  induction xs generalizing pos with
  | nil => rfl
  | cons x xs ih => simp [gather, ih]; omega

/-! ### Register arrays -/

theorem countAt_countPut (cs : Counts) (s y : Byte) (v : BitVec 32) :
    countAt (countPut cs s v) y = if y = s then v else countAt cs y := by
  simp only [countAt, countPut, Vector.getElem_set, BitVec.toNat_inj, eq_comm (a := s)]

theorem codeAt_codePut (t : Codes) (s y : Byte) (x : List Bool) :
    codeAt (codePut t s x) y = if y = s then x else codeAt t y := by
  simp only [codeAt, codePut, Vector.getElem_set, BitVec.toNat_inj, eq_comm (a := s)]

@[simp] theorem countAt_noCounts (y : Byte) : countAt noCounts y = 0#32 := by simp [countAt, noCounts]

@[simp] theorem codeAt_noCodes (y : Byte) : codeAt noCodes y = [] := by simp [codeAt, noCodes]

@[simp] theorem nodeAt_noNodes (i : NodeIdx) : nodeAt noNodes i = none := by simp [nodeAt, noNodes]

/-- Two frequency maps with the same counters are equal. -/
theorem counts_ext (a b : Counts) (h : ∀ y, countAt a y = countAt b y) : a = b := by
  apply Vector.ext
  intro i hi
  have := h (BitVec.ofNat 8 i)
  simpa [countAt, Nat.mod_eq_of_lt hi] using this

/-- Two tables with the same codes are equal. -/
theorem codes_ext (a b : Codes) (h : ∀ y, codeAt a y = codeAt b y) : a = b := by
  apply Vector.ext
  intro i hi
  have := h (BitVec.ofNat 8 i)
  simpa [codeAt, Nat.mod_eq_of_lt hi] using this

@[simp] theorem numSyms_noCounts : numSyms noCounts = 0 := by decide +kernel

@[simp] theorem fcTotal_noCounts : fcTotal noCounts = 0 := by decide +kernel

/-! ### Buffers by name -/

@[simp] theorem bufRead_clearOutput_self (b : Buf) (s : State) (off : Nat) : bufRead (clearOutput b s) b off = none := by
  cases b <;> rfl

theorem bufRead_clearOutput_of_ne (b b' : Buf) (s : State) (off : Nat) (h : b' ≠ b) :
    bufRead (clearOutput b s) b' off = bufRead s b' off := by
  cases b <;> cases b' <;> first | rfl | exact absurd rfl h

@[simp] theorem bufLen_clearOutput_self (b : Buf) (s : State) : bufLen (clearOutput b s) b = 0#32 := by
  cases b <;> rfl

theorem bufLen_clearOutput_of_ne (b b' : Buf) (s : State) (h : b' ≠ b) : bufLen (clearOutput b s) b' = bufLen s b' := by
  cases b <;> cases b' <;> first | rfl | exact absurd rfl h

theorem bufRead_recordError (e : ErrCode) (v : Word) (s : State) (b : Buf) (off : Nat) :
    bufRead (recordError e v s) b off = bufRead s b off := by
  cases b <;> simp [bufRead, Buf.content]

theorem bufLen_recordError (e : ErrCode) (v : Word) (s : State) (b : Buf) :
    bufLen (recordError e v s) b = bufLen s b := by
  cases b <;> simp [bufLen]

/-- Clearing outputs leaves exactly the buffers not listed. -/
theorem bufRead_clearOutputs (bs : List Buf) (s : State) (b : Buf) (off : Nat) :
    bufRead (clearOutputs bs s) b off = if b ∈ bs then none else bufRead s b off := by
  induction bs generalizing s with
  | nil => simp
  | cons c bs ih =>
    rw [clearOutputs_cons, ih]
    by_cases hb : b ∈ bs
    · rw [if_pos hb, if_pos (List.mem_cons_of_mem _ hb)]
    · by_cases hc : b = c
      · subst hc; rw [if_neg hb, if_pos List.mem_cons_self, bufRead_clearOutput_self]
      · rw [if_neg hb, if_neg (by simp [hc, hb]), bufRead_clearOutput_of_ne _ _ _ _ hc]

theorem bufLen_clearOutputs (bs : List Buf) (s : State) (b : Buf) :
    bufLen (clearOutputs bs s) b = if b ∈ bs then 0#32 else bufLen s b := by
  induction bs generalizing s with
  | nil => simp
  | cons c bs ih =>
    rw [clearOutputs_cons, ih]
    by_cases hb : b ∈ bs
    · rw [if_pos hb, if_pos (List.mem_cons_of_mem _ hb)]
    · by_cases hc : b = c
      · subst hc; rw [if_neg hb, if_pos List.mem_cons_self, bufLen_clearOutput_self]
      · rw [if_neg hb, if_neg (by simp [hc, hb]), bufLen_clearOutput_of_ne _ _ _ hc]

theorem bufRead_raiseError (e : ErrCode) (v : Word) (bs : List Buf) (s : State) (b : Buf) (off : Nat) :
    bufRead (raiseError e v bs s) b off = if b ∈ bs then none else bufRead s b off := by
  rw [← bufRead_recordError e v s, ← bufRead_clearOutputs]; cases b <;> rfl

theorem bufLen_raiseError (e : ErrCode) (v : Word) (bs : List Buf) (s : State) (b : Buf) :
    bufLen (raiseError e v bs s) b = if b ∈ bs then 0#32 else bufLen s b := by
  rw [← bufLen_recordError e v s, ← bufLen_clearOutputs]; cases b <;> rfl

theorem bufRead_complete (s : State) (b : Buf) (off : Nat) : bufRead (complete s) b off = bufRead s b off := by
  cases b <;> rfl

theorem bufLen_complete (s : State) (b : Buf) : bufLen (complete s) b = bufLen s b := by cases b <;> rfl

/-- R29: DONE and ERRI are different bits. -/
@[simp] theorem getLsbD_setErri_zero (v : BitVec 2) : (setErri v).getLsbD 0 = v.getLsbD 0 := by
  revert v; decide

@[simp] theorem getLsbD_setDone_zero (v : BitVec 2) : (setDone v).getLsbD 0 = true := by
  revert v; decide

/-! ### The ways a command can end -/

/-- A command that answers a next state was done, or raised an error. -/
theorem Perf.finish_eq_next (p : Perf) (t : State) (h : p.finish = .next t) :
    (∃ s, p = .done s ∧ t = complete s) ∨
    (∃ e v outs s, p = .raised e v outs s ∧ t = raiseError e v outs s) := by
  cases p with
  | done s => cases h; exact .inl ⟨s, rfl, rfl⟩
  | raised e v outs s => cases h; exact .inr ⟨e, v, outs, s, rfl, rfl⟩
  | unwritten b off => cases h

theorem Perf.andThen_eq_done (p : Perf) (f : State → Perf) (t : State) (h : p.andThen f = .done t) :
    ∃ s, p = .done s ∧ f s = .done t := by
  cases p with
  | done s => exact ⟨s, rfl, h⟩
  | raised e v outs s => cases h
  | unwritten b off => cases h

/-- A macro's step raised an error: the first part did, or the rest after it was done. -/
theorem Perf.andThen_eq_raised (p : Perf) (f : State → Perf) (e : ErrCode) (v : Word) (outs : List Buf) (t : State)
    (h : p.andThen f = .raised e v outs t) :
    p = .raised e v outs t ∨ ∃ s, p = .done s ∧ f s = .raised e v outs t := by
  cases p with
  | done s => exact .inr ⟨s, rfl, h⟩
  | raised e v outs s => exact .inl h
  | unwritten b off => cases h

theorem Perf.withFinalOutput_eq_done (b : Buf) (p : Perf) (t : State) :
    p.withFinalOutput b = .done t ↔ p = .done t := by
  cases p <;> simp [Perf.withFinalOutput]

theorem Perf.withFinalOutput_eq_raised (b : Buf) (p : Perf) (e : ErrCode) (v : Word) (outs : List Buf) (t : State)
    (h : p.withFinalOutput b = .raised e v outs t) : ∃ outs', outs = outs' ++ [b] ∧ p = .raised e v outs' t := by
  cases p with
  | done s => cases h
  | raised e' v' outs' s => cases h; exact ⟨outs', rfl, rfl⟩
  | unwritten b off => cases h

/-- A stopped loop raises an error only with the outputs and the state of its command. -/
theorem Stop.toPerf_eq_raised (st : Stop) (outs outs' : List Buf) (s t : State) (e : ErrCode) (v : Word)
    (h : st.toPerf outs s = .raised e v outs' t) : st = .raise e v ∧ outs' = outs ∧ t = s := by
  cases st with
  | raise e' v' => cases h; exact ⟨rfl, rfl, rfl⟩
  | unwritten b off => cases h

@[simp] theorem Stop.toPerf_ne_done (st : Stop) (outs : List Buf) (s t : State) : st.toPerf outs s ≠ .done t := by
  cases st <;> simp [Stop.toPerf]

end Sys2Proof.Machine
end

