-- ==== Sys2Proof/Laws/Bus.lean ====
section
/-! SUPPORT. What a host access can come to, said once (20_memory.md R81, R90), and what a step can come to (00_scope.md R9). -/

namespace Sys2Proof.Machine

theorem Width.bytes_pos (w : Width) : 1 ≤ w.bytes ∧ w.bytes ≤ 4 := by cases w <;> decide

/-- R81, R86, R88: an access that reaches a buffer lies inside it, at a multiple of its width. -/
theorem target_eq_buffer (p : Params) (off : Offset) (w : Width) (b : Buf) (idx : Nat)
    (h : target p off w = some (.buffer b idx)) :
    idx + w.bytes ≤ b.capacity p ∧ idx = off.toNat % 0x1000000 ∧ off.toNat % w.bytes = 0 ∧
      blockBuf off.toNat = some b := by
  unfold target at h
  split_ifs at h with h1 h2 h3
  · simp only [Option.some.injEq] at h
    unfold lowTarget regTarget at h
    split_ifs at h
    split at h <;> cases h
  · split at h
    · cases h
    · next b' hb =>
      split_ifs at h with hc
      cases h
      exact ⟨hc, rfl, by simpa using h1, hb⟩

/-- R81, R88: an aligned word access below 0x10000 reaches what the map gives its offset. -/
theorem target_word_low (p : Params) (off : Offset) (ha : off.toNat % 4 = 0) (hl : off.toNat < 0x10000) :
    target p off .word = some (lowTarget off.toNat) := by
  unfold target
  rw [if_neg (by simpa [Width.bytes] using ha), if_pos hl, if_pos rfl]

/-- R81, R86, R88: an access that reaches something below 0x10000 is an aligned word. -/
theorem target_low (p : Params) (off : Offset) (w : Width) (g : Target) (hl : off.toNat < 0x10000)
    (h : target p off w = some g) : w = .word ∧ off.toNat % 4 = 0 ∧ g = lowTarget off.toNat := by
  unfold target at h
  split_ifs at h with h1 h2
  subst h2
  cases h
  exact ⟨rfl, by simpa [Width.bytes] using h1, rfl⟩

/-- R81: an access that reaches something at or above 0x10000 reaches a buffer. -/
theorem target_high (p : Params) (off : Offset) (w : Width) (g : Target) (hl : 0x10000 ≤ off.toNat)
    (h : target p off w = some g) : ∃ b idx, g = .buffer b idx := by
  unfold target at h
  rw [if_neg (Nat.not_lt.2 hl)] at h
  split_ifs at h
  split at h
  · cases h
  · split_ifs at h
    cases h
    exact ⟨_, _, rfl⟩

/-- R21, R89: the register page has registers at the offsets of `regMap` only. -/
theorem regTarget_reserved (off : Nat) (h : 0x50 ≤ off) : regTarget off = .reserved := by
  have hn : regMap.lookup off = none := by
    simp only [regMap, List.cons_append, List.nil_append, List.lookup]
    repeat rw [show (off == _) = false from beq_eq_false_iff_ne.2 (by omega)]
  rw [regTarget, hn]

/-- R89: what a reserved offset is. -/
theorem lowTarget_reserved (off : Nat) (h : ReservedOffset off) : lowTarget off = .reserved := by
  unfold ReservedOffset at h
  unfold lowTarget
  split_ifs <;> first | rfl | exact regTarget_reserved _ (by omega) | omega

/-- R90 case 3: a read that is performed answers its value and changes nothing else (R93). -/
theorem hostRead_performed (off : Offset) (w : Width) (s : State) (g : Target) (v : Word) (hr : s.resetPin = false)
    (hg : target s.par off w = some g) (hb : s.busy = false ∨ busySafeRead g = true) (hv : readTarget s w g = .ok v) :
    hostRead off w s = .next (answer (readAnswer v) s) := by
  have hn : ¬ (s.busy = true ∧ busySafeRead g = false) := by rintro ⟨h1, h2⟩; simp [h1, h2] at hb
  simp only [hostRead, hr, hg, hv, if_neg hn, Bool.false_eq_true, if_false]

/-- R90 case 3: a write that is performed. -/
theorem hostWrite_performed (off : Offset) (w : Width) (v : Word) (s : State) (g : Target) (hr : s.resetPin = false)
    (hg : target s.par off w = some g) (hb : s.busy = false ∨ busySafeWrite g = true) :
    hostWrite off w v s = .next (answer writeAnswer (writeTarget w v s g)) := by
  have hn : ¬ (s.busy = true ∧ busySafeWrite g = false) := by rintro ⟨h1, h2⟩; simp [h1, h2] at hb
  simp only [hostWrite, hr, hg, if_neg hn, Bool.false_eq_true, if_false]

/-- R90: what a host read that goes on answers and leaves. -/
theorem hostRead_cases (off : Offset) (w : Width) (s t : State) (h : hostRead off w s = .next t) :
    s.resetPin = false ∧
    ((target s.par off w = none ∧ t = answer berrRead s) ∨
     (∃ g, target s.par off w = some g ∧ s.busy = true ∧ busySafeRead g = false ∧
        t = answer (readAnswer (Config.freeWord s.freeCtr)) { protocolError off s with freeCtr := s.freeCtr + 1 }) ∨
     (∃ g v, target s.par off w = some g ∧ (s.busy = false ∨ busySafeRead g = true) ∧ readTarget s w g = .ok v ∧
        t = answer (readAnswer v) s)) := by
  unfold hostRead at h
  split_ifs at h with hr
  refine ⟨by simpa using hr, ?_⟩
  split at h
  · next hg => cases h; exact .inl ⟨hg, rfl⟩
  · next g hg =>
    split_ifs at h with hb
    · cases h; exact .inr (.inl ⟨g, hg, hb.1, hb.2, rfl⟩)
    · split at h
      · next v hv =>
        cases h
        refine .inr (.inr ⟨g, v, hg, ?_, hv, rfl⟩)
        cases hs : s.busy with
        | false => exact .inl rfl
        | true => exact .inr (by simpa [hs] using hb)
      · cases h

/-- R90: what a host write that goes on leaves. -/
theorem hostWrite_cases (off : Offset) (w : Width) (v : Word) (s t : State) (h : hostWrite off w v s = .next t) :
    s.resetPin = false ∧
    ((target s.par off w = none ∧ t = answer berrWrite s) ∨
     (∃ g, target s.par off w = some g ∧ s.busy = true ∧ busySafeWrite g = false ∧
        t = answer writeAnswer (protocolError off s)) ∨
     (∃ g, target s.par off w = some g ∧ (s.busy = false ∨ busySafeWrite g = true) ∧
        t = answer writeAnswer (writeTarget w v s g))) := by
  unfold hostWrite at h
  split_ifs at h with hr
  refine ⟨by simpa using hr, ?_⟩
  split at h
  · next hg => cases h; exact .inl ⟨hg, rfl⟩
  · next g hg =>
    split_ifs at h with hb
    · cases h; exact .inr (.inl ⟨g, hg, hb.1, hb.2, rfl⟩)
    · cases h
      refine .inr (.inr ⟨g, hg, ?_, rfl⟩)
      cases hs : s.busy with
      | false => exact .inl rfl
      | true => exact .inr (by simpa [hs] using hb)

/-- R9: what a step that goes on was: a host access, the engine's turn, or a change of the reset input. -/
theorem step_cases (s t : State) (h : step s = .next t) : ∃ s', s' = { s with inputs := (nextTurn s).2 } ∧
    ((∃ off w, hostRead off w s' = .next t) ∨ (∃ off w v, hostWrite off w v s' = .next t) ∨
     (fetch s' = none ∧ t = s') ∨
     (∃ w i, fetch s' = some w ∧ decode w = some i ∧ exec i s' = .next t) ∨
     (∃ w, fetch s' = some w ∧ decode w = none ∧ t = raiseError .illegalCommand w [] s') ∨
     t = assertReset s' ∨ t = releaseReset s') := by
  refine ⟨_, rfl, ?_⟩
  unfold step runTurn at h
  split at h
  · exact .inl ⟨_, _, h⟩
  · exact .inr (.inl ⟨_, _, _, h⟩)
  · unfold engineStep at h
    split at h
    · next hf => cases h; exact .inr (.inr (.inl ⟨hf, rfl⟩))
    · next w hf =>
      split at h
      · next i hd => exact .inr (.inr (.inr (.inl ⟨w, i, hf, hd, h⟩)))
      · next hd => cases h; exact .inr (.inr (.inr (.inr (.inl ⟨w, hf, hd, rfl⟩))))
  · cases h; exact .inr (.inr (.inr (.inr (.inr (.inl rfl)))))
  · cases h; exact .inr (.inr (.inr (.inr (.inr (.inr rfl)))))

end Sys2Proof.Machine
end

