-- ==== Sys2Proof/Laws/Codec.lean ====
section
/-! SUPPORT. The loops of ENCODE and DECODE (43_encoding_unit.md R200, 46_decoding_unit.md R250), the reverse mapping (42_code_table.md
R181), and the packed stream (44_bit_packer.md R212). -/

namespace Sys2Proof.Machine

@[simp] theorem codesOf_nil (t : Codes) : codesOf t [] = [] := rfl

@[simp] theorem codesOf_cons (t : Codes) (x : Byte) (xs : List Byte) :
    codesOf t (x :: xs) = codeAt t x ++ codesOf t xs := rfl

theorem codesOf_append (t : Codes) (xs ys : List Byte) : codesOf t (xs ++ ys) = codesOf t xs ++ codesOf t ys := by
  simp [codesOf]

/-! ### ENCODE -/

/-- Symbols that have entries and fit are encoded, and the loop goes on with what follows them. -/
theorem encodeFrom_append (t : Codes) (cap pos : Nat) (out : List Bool) (syms : List Byte) (r : List (Option Byte))
    (hc : AllCoded t syms) (hl : out.length + (codesOf t syms).length ≤ cap) :
    encodeFrom t cap pos out (syms.map some ++ r) =
      encodeFrom t cap (pos + syms.length) (out ++ codesOf t syms) r := by
  induction syms generalizing pos out with
  | nil => simp
  | cons x xs ih =>
    have hx : codeLen t x ≠ 0 := by simpa [codeLen] using hc x List.mem_cons_self
    rw [codesOf_cons, List.length_append] at hl
    simp only [List.map_cons, List.cons_append, encodeFrom, if_neg hx]
    rw [if_neg (by rw [codeLen]; omega), ih (pos + 1) _ (fun y hy => hc y (List.mem_cons_of_mem _ hy))
      (by rw [List.length_append]; omega), codesOf_cons, List.append_assoc, List.length_cons]
    congr 1; omega

/-- R201: the concatenation of the codes. -/
theorem encodeFrom_all (t : Codes) (cap : Nat) (syms : List Byte) (hc : AllCoded t syms)
    (hl : (codesOf t syms).length ≤ cap) : encodeFrom t cap 0 [] (syms.map some) = .ok (codesOf t syms) := by
  simpa [encodeFrom] using encodeFrom_append t cap 0 [] syms [] hc (by simpa using hl)

/-- R200: what ENCODE's loop writes fits BITBUF. -/
theorem encodeFrom_length_le (t : Codes) (cap pos : Nat) (out x : List Bool) (l : List (Option Byte))
    (ho : out.length ≤ cap) (h : encodeFrom t cap pos out l = .ok x) : x.length ≤ cap := by
  induction l generalizing pos out with
  | nil => cases h; exact ho
  | cons a l ih =>
    cases a with
    | none => cases h
    | some s =>
      simp only [encodeFrom] at h
      split_ifs at h with h1 h2
      exact ih _ _ (by rw [List.length_append]; rw [codeLen] at h2; omega) h

/-! ### The reverse mapping -/

/-- R181: REV(x) is a symbol whose code is x. -/
theorem codeAt_of_rev (t : Codes) (x : List Bool) (s : Byte) (h : rev t x = some s) : x ≠ [] ∧ codeAt t s = x := by
  unfold rev at h
  split_ifs at h with hx
  rw [Option.map_eq_some_iff] at h
  obtain ⟨i, hi, rfl⟩ := h
  rw [List.findIdx?_eq_some_iff_getElem] at hi
  obtain ⟨hl, hp, -⟩ := hi
  have hl' : i < 256 := by simpa using hl
  refine ⟨hx, ?_⟩
  simpa [codeAt, Nat.mod_eq_of_lt hl'] using hp

/-- R181: REV(x) is undefined when no symbol has the code x. -/
theorem rev_eq_none (t : Codes) (x : List Bool) (h : ∀ y, codeAt t y ≠ [] → codeAt t y ≠ x) : rev t x = none := by
  by_contra hn
  obtain ⟨s, hs⟩ := Option.ne_none_iff_exists'.1 hn
  obtain ⟨h1, h2⟩ := codeAt_of_rev t x s hs
  exact h s (by rw [h2]; exact h1) h2

/-- R181, R185: in a prefix-free table REV inverts the code mapping. -/
theorem rev_codeAt (t : Codes) (hp : PrefixFree t) (s : Byte) (hs : codeAt t s ≠ []) : rev t (codeAt t s) = some s := by
  have hsome : rev t (codeAt t s) ≠ none := by
    unfold rev
    rw [if_neg hs]
    intro hn
    rw [Option.map_eq_none_iff, List.findIdx?_eq_none_iff] at hn
    exact absurd (hn (codeAt t s) (by simp [codeAt])) (by simp)
  obtain ⟨y, hy⟩ := Option.ne_none_iff_exists'.1 hsome
  obtain ⟨-, h2⟩ := codeAt_of_rev t _ y hy
  by_cases hys : y = s
  · rw [hy, hys]
  · exact absurd (by rw [h2] : codeAt t y <+: codeAt t s) (hp y s hys (by rw [h2]; exact hs) hs)

/-! ### DECODE -/

/-- Bits that complete no code only lengthen the current code. -/
theorem decodeFrom_part (t : Codes) (cap pos start : Nat) (buf part : List Bool) (out : List Byte) (r : List (Option Bool))
    (hpos : buf = [] → start = pos) (h : ∀ k, k ≠ 0 → k ≤ part.length → rev t (buf ++ part.take k) = none) :
    decodeFrom t cap pos start buf out (part.map some ++ r) =
      decodeFrom t cap (pos + part.length) start (buf ++ part) out r := by
  induction part generalizing pos start buf with
  | nil => simp
  | cons b part ih =>
    have h1 := h 1 (by omega) (by simp)
    simp only [List.take_succ_cons, List.take_zero] at h1
    have hstart : (if buf = [] then pos else start) = start := by
      split_ifs with hb
      · exact (hpos hb).symm
      · rfl
    simp only [List.map_cons, List.cons_append, decodeFrom, h1, hstart]
    rw [ih (pos + 1) start (buf ++ [b]) (by simp) (fun k hk hl => by
      have := h (k + 1) (by omega) (by simpa using hl)
      simpa using this)]
    simp [Nat.add_comm, Nat.add_left_comm]

/-- R251, R254: the bits of a code emit its symbol. -/
theorem decodeFrom_code (t : Codes) (cap pos start : Nat) (out : List Byte) (r : List (Option Bool)) (hp : PrefixFree t)
    (s : Byte) (hs : codeAt t s ≠ []) :
    decodeFrom t cap pos start [] out ((codeAt t s).map some ++ r) =
      if out.length = cap then .error (.raise .resource (BitVec.ofNat 32 (pos + (codeAt t s).length - 1)))
      else decodeFrom t cap (pos + (codeAt t s).length) pos [] (out ++ [s]) r := by
  obtain ⟨part, b, hc⟩ : ∃ part b, codeAt t s = part ++ [b] := ⟨_, _, (List.dropLast_append_getLast hs).symm⟩
  have hstart : ∀ l, decodeFrom t cap pos start [] out l = decodeFrom t cap pos pos [] out l ∨ l = [] := by
    intro l
    cases l with
    | nil => exact .inr rfl
    | cons a l => cases a <;> exact .inl rfl
  have hrev : rev t (part ++ [b]) = some s := by rw [← hc]; exact rev_codeAt t hp s hs
  rw [(hstart _).resolve_right (by rw [hc]; simp), hc]
  simp only [List.map_append, List.append_assoc]
  rw [decodeFrom_part t cap pos pos [] part out _ (fun _ => rfl) (fun k hk hl => by
    apply rev_eq_none
    intro y hy he
    by_cases hys : y = s
    · have := congrArg List.length he
      rw [hys, hc] at this
      simp at this; omega
    · refine hp y s hys hy hs ?_
      rw [he, hc]
      exact ⟨part.drop k ++ [b], by simp [← List.append_assoc]⟩)]
  simp only [List.map_cons, List.map_nil, List.cons_append, List.nil_append, decodeFrom, hrev, List.length_append,
    List.length_cons, List.length_nil]
  cases part with
  | nil => simp
  | cons c part => simp [Nat.add_assoc]

/-- R254: the concatenated codes of symbols emit them, and the loop goes on with what follows. -/
theorem decodeFrom_codes (t : Codes) (cap pos start : Nat) (out : List Byte) (r : List (Option Bool)) (hp : PrefixFree t)
    (syms : List Byte) (hc : AllCoded t syms) (hl : out.length + syms.length ≤ cap) :
    ∃ start', decodeFrom t cap pos start [] out ((codesOf t syms).map some ++ r) =
      decodeFrom t cap (pos + (codesOf t syms).length) start' [] (out ++ syms) r := by
  induction syms generalizing pos start out with
  | nil => exact ⟨start, by simp⟩
  | cons x xs ih =>
    rw [List.length_cons] at hl
    obtain ⟨st, h⟩ := ih (pos + (codeAt t x).length) pos (out ++ [x]) (fun y hy => hc y (List.mem_cons_of_mem _ hy))
      (by simp; omega)
    refine ⟨st, ?_⟩
    rw [codesOf_cons, List.map_append, List.append_assoc, decodeFrom_code t cap pos start out _ hp x
      (hc x List.mem_cons_self), if_neg (by omega), h]
    simp [Nat.add_assoc]

/-- R250: DECODE emits at most SYM_CAP symbols. -/
theorem decodeFrom_length_le (t : Codes) (cap pos start : Nat) (buf : List Bool) (out xs : List Byte)
    (l : List (Option Bool)) (ho : out.length ≤ cap) (h : decodeFrom t cap pos start buf out l = .ok xs) :
    xs.length ≤ cap := by
  induction l generalizing pos start buf out with
  | nil =>
    simp only [decodeFrom] at h
    split_ifs at h
    cases h; exact ho
  | cons a l ih =>
    cases a with
    | none => cases h
    | some b =>
      simp only [decodeFrom] at h
      split at h
      · exact ih _ _ _ _ ho h
      · split_ifs at h <;> exact ih _ _ _ _ (by simp; omega) h

/-! ### PACK and UNPACK -/

theorem padCount_pos (n : Nat) : 1 ≤ padCount n ∧ padCount n ≤ 8 := by unfold padCount; omega

/-- R212: nbytes = L div 8 + 2. -/
theorem packedLen_eq (n : Nat) : packedLen n = n / 8 + 2 := by unfold packedLen padCount; omega

@[simp] theorem length_packedStream (x : List Bool) : (packedStream x).length = packedLen x.length := by
  simp [packedStream]; unfold packedLen; omega

/-- R212: the bits of the payload are the sequence and its zero padding. -/
theorem flatMap_packedStream_tail (x : List Bool) :
    (packedStream x).tail.flatMap bits8 = x ++ zeros (padCount x.length) := by
  rw [packedStream, List.tail_cons, flatMap_chunkBytes]
  have h : 8 * (packedLen x.length - 1) = (x ++ zeros (padCount x.length)).length := by
    rw [List.length_append, length_zeros]; unfold packedLen padCount; omega
  rw [h, Nat.sub_self]
  simp [zeros]

/-- R213: whole bytes of BITBUF are whole bytes of the payload. -/
theorem getElem?_packedStream (x : List Bool) (j : Nat) (h : j < packedLen x.length - 1) :
    (packedStream x)[1 + j]? =
      some (byteOf (firstEight ((x ++ zeros (padCount x.length)).drop (8 * j)))) := by
  rw [packedStream, Nat.add_comm, List.getElem?_cons_succ, getElem?_chunkBytes _ _ _ h]

end Sys2Proof.Machine
end

