-- ==== Sys2Proof/Laws/Counter.lean ====
section
/-! SUPPORT. The counting loop of FC_ADD and FC_SCAN (40_frequency_counter.md R141 to R144). -/

namespace Sys2Proof.Machine

/-- Symbols can be added to a map without a counter passing 2^32 - 1. -/
def CountsFit (cs : Counts) (syms : List Byte) : Prop := ∀ x, (countAt cs x).toNat + syms.count x < 2 ^ 32

theorem countAt_countBump (cs : Counts) (s y : Byte) (h : (countAt cs s).toNat + 1 < 2 ^ 32) :
    (countAt (countBump cs s) y).toNat = (countAt cs y).toNat + if y = s then 1 else 0 := by
  rw [countBump, countAt_countPut]
  split_ifs with hy
  · subst hy; rw [BitVec.toNat_add]; simpa using Nat.mod_eq_of_lt h
  · rfl

/-- Symbols that fit are all counted, and the loop goes on with what follows them. -/
theorem countSymbols_append (cs : Counts) (pos : Nat) (syms : List Byte) (r : List (Option Byte)) (h : CountsFit cs syms) :
    ∃ cs', CountsAdded cs cs' syms ∧ countSymbols cs pos (syms.map some ++ r) = countSymbols cs' (pos + syms.length) r := by
  induction syms generalizing cs pos with
  | nil => exact ⟨cs, fun x => by simp, by simp⟩
  | cons s syms ih =>
    have hs : (countAt cs s).toNat + 1 < 2 ^ 32 := by
      have := h s; simp only [List.count_cons_self] at this; omega
    obtain ⟨cs', h1, h2⟩ := ih (countBump cs s) (pos + 1) (fun x => by
      have := h x
      rw [countAt_countBump _ _ _ hs]
      rw [List.count_cons] at this
      simp only [beq_iff_eq, eq_comm (a := s)] at this
      omega)
    refine ⟨cs', fun x => ?_, ?_⟩
    · rw [h1, countAt_countBump _ _ _ hs, List.count_cons]
      simp only [beq_iff_eq, eq_comm (a := s)]
      omega
    · have hne : countAt cs s ≠ countMax := fun e => by rw [e] at hs; simp [countMax] at hs
      simp only [List.map_cons, List.cons_append, countSymbols, if_neg hne, h2, List.length_cons]
      congr 1; omega

/-- R141, R143: symbols that fit are all added. -/
theorem countSymbols_fit (cs : Counts) (pos : Nat) (syms : List Byte) (h : CountsFit cs syms) :
    ∃ cs', CountsAdded cs cs' syms ∧ countSymbols cs pos (syms.map some) = (cs', none) := by
  obtain ⟨cs', h1, h2⟩ := countSymbols_append cs pos syms [] h
  exact ⟨cs', h1, by simpa [countSymbols] using h2⟩

/-- R142, R144: the loop stops at the first counter at its largest value, with what came before it applied. -/
theorem countSymbols_overflow (cs : Counts) (pos : Nat) (syms : List Byte) (x : Byte) (r : List (Option Byte))
    (h : CountsFit cs syms) (hx : (countAt cs x).toNat + syms.count x = 2 ^ 32 - 1) :
    ∃ cs', CountsAdded cs cs' syms ∧ countSymbols cs pos (syms.map some ++ some x :: r) =
      (cs', some (.raise .countOverflow (BitVec.ofNat 32 (pos + syms.length)))) := by
  obtain ⟨cs', h1, h2⟩ := countSymbols_append cs pos syms (some x :: r) h
  have hm : countAt cs' x = countMax := by
    apply BitVec.eq_of_toNat_eq; rw [h1, hx]; rfl
  exact ⟨cs', h1, by rw [h2]; simp [countSymbols, hm]⟩

/-- The counting loop never touches a symbol that is not counted. -/
theorem countAt_countSymbols (cs : Counts) (pos : Nat) (l : List (Option Byte)) (y : Byte) (h : some y ∉ l) :
    countAt (countSymbols cs pos l).1 y = countAt cs y := by
  induction l generalizing cs pos with
  | nil => rfl
  | cons a l ih =>
    cases a with
    | none => rfl
    | some s =>
      simp only [countSymbols]
      split_ifs with hm
      · rfl
      · rw [ih _ _ fun hy => h (List.mem_cons_of_mem _ hy), countBump, countAt_countPut, if_neg]
        rintro rfl; exact h List.mem_cons_self

/-- What counting can come to: all counted, or stopped, with only COUNT changed. -/
theorem perfCount_cases (l : List (Option Byte)) (s : State) :
    (perfCount l s = .done { s with count := (countSymbols s.count 0 l).1 }) ∨
    (∃ e v, perfCount l s = .raised e v [] { s with count := (countSymbols s.count 0 l).1 }) ∨
    (∃ off, perfCount l s = .unwritten .symbuf off) := by
  have key : ∀ (cs : Counts) (pos : Nat) (l : List (Option Byte)), (countSymbols cs pos l).2 = none ∨
      (∃ e v, (countSymbols cs pos l).2 = some (.raise e v)) ∨
      (∃ off, (countSymbols cs pos l).2 = some (.unwritten .symbuf off)) := by
    intro cs pos l
    induction l generalizing cs pos with
    | nil => exact .inl rfl
    | cons a l ih =>
      cases a with
      | none => exact .inr (.inr ⟨_, rfl⟩)
      | some x =>
        simp only [countSymbols]
        split_ifs
        · exact .inr (.inl ⟨_, _, rfl⟩)
        · exact ih _ _
  unfold perfCount
  rcases h : countSymbols s.count 0 l with ⟨cs, st⟩
  have := key s.count 0 l
  rw [h] at this
  rcases this with h' | ⟨e, v, h'⟩ | ⟨off, h'⟩ <;> simp only at h' <;> subst h'
  · exact .inl rfl
  · exact .inr (.inl ⟨e, v, rfl⟩)
  · exact .inr (.inr ⟨off, rfl⟩)

end Sys2Proof.Machine
end

