-- ==== Sys2Proof/Laws/Commands.lean ====
section
/-! SUPPORT. What performing each command can come to, said once (40_frequency_counter.md to 46_decoding_unit.md): the state it is done
in, or the error, the outputs R280 clears for it and the state it has reached. -/

namespace Sys2Proof.Machine

/-- R5: the constraints, as numbers. -/
theorem params_bounds (p : Params) (h : p.wf = true) :
    1 ≤ p.symCap ∧ p.symCap ≤ 2 ^ 24 ∧ p.bitCap % 8 = 0 ∧ 8 ≤ p.bitCap ∧ p.bitCap ≤ 2 ^ 27 ∧
    p.bitCap / 8 + 2 ≤ p.pkCap ∧ p.pkCap ≤ 2 ^ 24 := by
  simp [Params.wf, Params.symCapOk, Params.bitCapOk, Params.pkCapOk, Params.baseOk] at h; omega

theorem length_flatMap_bits8 (l : List Byte) : (l.flatMap bits8).length = 8 * l.length := by
  induction l with
  | nil => rfl
  | cons b l ih => rw [List.flatMap_cons, List.length_append, ih, length_bits8, List.length_cons]; omega

/-- R200: ENCODE's loop stops with an error of its own only. -/
theorem encodeFrom_error (t : Codes) (cap pos : Nat) (out : List Bool) (l : List (Option Byte)) (st : Stop)
    (h : encodeFrom t cap pos out l = .error st) :
    (∃ v, st = .raise .unknownSymbol v) ∨ (∃ v, st = .raise .resource v) ∨ ∃ off, st = .unwritten .symbuf off := by
  induction l generalizing pos out with
  | nil => cases h
  | cons a l ih =>
    cases a with
    | none => cases h; exact .inr (.inr ⟨_, rfl⟩)
    | some x =>
      simp only [encodeFrom] at h
      split_ifs at h
      · cases h; exact .inl ⟨_, rfl⟩
      · cases h; exact .inr (.inl ⟨_, rfl⟩)
      · exact ih _ _ h

/-- R250: DECODE's loop stops with an error of its own only. -/
theorem decodeFrom_error (t : Codes) (cap pos start : Nat) (buf : List Bool) (out : List Byte) (l : List (Option Bool))
    (st : Stop) (h : decodeFrom t cap pos start buf out l = .error st) :
    (∃ v, st = .raise .malformedStream v) ∨ (∃ v, st = .raise .resource v) ∨ ∃ off, st = .unwritten .bitbuf off := by
  induction l generalizing pos start buf out with
  | nil =>
    simp only [decodeFrom] at h
    split_ifs at h
    cases h; exact .inl ⟨_, rfl⟩
  | cons a l ih =>
    cases a with
    | none => cases h; exact .inr (.inr ⟨_, rfl⟩)
    | some b =>
      simp only [decodeFrom] at h
      split at h
      · exact ih _ _ _ _ h
      · split_ifs at h
        all_goals first
          | exact ih _ _ _ _ h
          | (cases h; exact .inr (.inl ⟨_, rfl⟩))

/-- R200, R275: what ENCODE can come to. -/
theorem perfEncode_cases (s : State) :
    (∃ x, perfEncode s = .done (putBits x s) ∧ s.tableValid = true ∧ x.length ≤ s.par.bitCap) ∨
    (perfEncode s = .raised .sequence 0x70000000#32 [.bitbuf] s ∧ s.tableValid = false) ∨
    (∃ e v, perfEncode s = .raised e v [.bitbuf] s ∧ s.tableValid = true ∧ (e = .unknownSymbol ∨ e = .resource)) ∨
    (∃ off, perfEncode s = .unwritten .symbuf off) := by
  unfold perfEncode
  split_ifs with ht
  · rcases h : encodeFrom s.code s.par.bitCap 0 [] (symInput s) with st | x
    · rcases encodeFrom_error _ _ _ _ _ _ h with ⟨v, rfl⟩ | ⟨v, rfl⟩ | ⟨off, rfl⟩
      · exact .inr (.inr (.inl ⟨_, v, rfl, ht, .inl rfl⟩))
      · exact .inr (.inr (.inl ⟨_, v, rfl, ht, .inr rfl⟩))
      · exact .inr (.inr (.inr ⟨off, rfl⟩))
    · exact .inl ⟨x, rfl, ht, encodeFrom_length_le _ _ _ _ _ _ (Nat.zero_le _) h⟩
  · exact .inr (.inl ⟨rfl, by simpa using ht⟩)

/-- R212: what PACK can come to. -/
theorem perfPack_cases (s : State) :
    (∃ x, perfPack s = .done (putPacked x s) ∧ Written (bitInput s) x ∧ x.length = s.bitLen.toNat ∧
      packedLen x.length ≤ s.par.pkCap) ∨
    (∃ v, perfPack s = .raised .resource v [.pkbuf] s ∧ s.par.pkCap < packedLen s.bitLen.toNat) ∨
    (∃ off, perfPack s = .unwritten .bitbuf off) := by
  unfold perfPack
  split_ifs with hc
  · exact .inr (.inl ⟨_, rfl, hc⟩)
  · rcases h : gather 0 (bitInput s) with i | x
    · exact .inr (.inr ⟨_, rfl⟩)
    · have hw := (gather_eq_ok _ _ _).1 h
      have hl : x.length = s.bitLen.toNat := by simpa [bitInput] using (congrArg List.length hw).symm
      exact .inl ⟨x, rfl, hw, hl, by rw [hl]; omega⟩

/-- R214, R215: what UNPACK can come to. -/
theorem perfUnpack_cases (s : State) :
    (∃ p payload, perfUnpack s = .done (putUnpacked p (8 * (s.pkLen.toNat - 1) - p.toNat) payload s) ∧
      p.toNat ≤ 8 ∧ p.toNat ≤ 8 * (s.pkLen.toNat - 1) ∧ 8 * (s.pkLen.toNat - 1) - p.toNat ≤ s.par.bitCap ∧
      Memory.read s.pkbuf 0 = some p ∧ Written (payloadInput s) payload ∧ payload.length = s.pkLen.toNat - 1) ∨
    (∃ e v, perfUnpack s = .raised e v [.bitbuf] s ∧ (e = .malformedStream ∨ e = .resource)) ∨
    (∃ off, perfUnpack s = .unwritten .pkbuf off) := by
  unfold perfUnpack
  split_ifs with h0
  · exact .inr (.inl ⟨_, _, rfl, .inl rfl⟩)
  · rcases hr : Memory.read s.pkbuf 0 with _ | p
    · exact .inr (.inr ⟨0, rfl⟩)
    · simp only [unpackWith]
      split_ifs with h1 h2 h3
      · exact .inr (.inl ⟨_, _, rfl, .inl rfl⟩)
      · exact .inr (.inl ⟨_, _, rfl, .inl rfl⟩)
      · exact .inr (.inl ⟨_, _, rfl, .inr rfl⟩)
      · rcases hg : gather 1 (payloadInput s) with i | payload
        · exact .inr (.inr ⟨i, rfl⟩)
        · have hw := (gather_eq_ok _ _ _).1 hg
          exact .inl ⟨p, payload, rfl, by omega, by omega, by omega, rfl, hw, by
            simpa [payloadInput] using (congrArg List.length hw).symm⟩

/-- R250, R275: what DECODE can come to. -/
theorem perfDecode_cases (s : State) :
    (∃ xs, perfDecode s = .done (putSymbols xs s) ∧ s.tableValid = true ∧ xs.length ≤ s.par.symCap) ∨
    (perfDecode s = .raised .sequence 0xA0000000#32 [.symbuf] s ∧ s.tableValid = false) ∨
    (∃ e v, perfDecode s = .raised e v [.symbuf] s ∧ s.tableValid = true ∧ (e = .malformedStream ∨ e = .resource)) ∨
    (∃ off, perfDecode s = .unwritten .bitbuf off) := by
  unfold perfDecode
  split_ifs with ht
  · rcases h : decodeFrom s.code s.par.symCap 0 0 [] [] (bitInput s) with st | xs
    · rcases decodeFrom_error _ _ _ _ _ _ _ _ h with ⟨v, rfl⟩ | ⟨v, rfl⟩ | ⟨off, rfl⟩
      · exact .inr (.inr (.inl ⟨_, v, rfl, ht, .inl rfl⟩))
      · exact .inr (.inr (.inl ⟨_, v, rfl, ht, .inr rfl⟩))
      · exact .inr (.inr (.inr ⟨off, rfl⟩))
    · exact .inl ⟨xs, rfl, ht, decodeFrom_length_le _ _ _ _ _ _ _ _ (Nat.zero_le _) h⟩
  · exact .inr (.inl ⟨rfl, by simpa using ht⟩)

/-- R161: what TB_BUILD can come to. -/
theorem perfTbBuild_cases (s : State) :
    (perfTbBuild s = .raised .emptyHistogram 0#32 [] (clearTables s) ∧ numSyms s.count = 0) ∨
    (perfTbBuild s = .done (installTree s.count (clearTables s)) ∧ numSyms s.count ≠ 0) := by
  unfold perfTbBuild; split_ifs with h
  · exact .inl ⟨rfl, h⟩
  · exact .inr ⟨rfl, h⟩

/-- R182, R275: what CT_GEN can come to. -/
theorem perfCtGen_cases (s : State) :
    (perfCtGen s = .done (installTable s) ∧ s.treeValid = true) ∨
    (perfCtGen s = .raised .sequence 0x60000000#32 [] s ∧ s.treeValid = false) := by
  unfold perfCtGen; split_ifs with h
  · exact .inl ⟨rfl, h⟩
  · exact .inr ⟨rfl, by simpa using h⟩

/-- R238, R235: what DECOMPRESS can come to: SEQUENCE, which clears nothing; or UNPACK's error, or DECODE's in the state UNPACK is
done in, each with the macro's final output cleared as well. -/
theorem perfDecompress_cases (s : State) :
    (∃ u xs, perfUnpack s = .done u ∧ perfDecompress s = .done (putSymbols xs u) ∧ s.tableValid = true ∧
      xs.length ≤ u.par.symCap) ∨
    (perfDecompress s = .raised .sequence 0xC0000000#32 [] s ∧ s.tableValid = false) ∨
    (∃ e v, perfDecompress s = .raised e v [.bitbuf, .symbuf] s ∧ s.tableValid = true) ∨
    (∃ u e v, perfUnpack s = .done u ∧ perfDecompress s = .raised e v [.symbuf, .symbuf] u ∧ s.tableValid = true) ∨
    (∃ b off, perfDecompress s = .unwritten b off) := by
  unfold perfDecompress decompressSteps
  split_ifs with ht
  · rcases perfUnpack_cases s with ⟨p, payload, h, -⟩ | ⟨e, v, h, -⟩ | ⟨off, h⟩ <;> rw [h]
    · rcases perfDecode_cases (putUnpacked p (8 * (s.pkLen.toNat - 1) - p.toNat) payload s) with
        ⟨xs, h', -, hl⟩ | ⟨h', -⟩ | ⟨e, v, h', -⟩ | ⟨off, h'⟩ <;> simp only [Perf.andThen, h']
      · exact .inl ⟨_, xs, rfl, rfl, ht, hl⟩
      · exact .inr (.inr (.inr (.inl ⟨_, _, _, rfl, rfl, ht⟩)))
      · exact .inr (.inr (.inr (.inl ⟨_, e, v, rfl, rfl, ht⟩)))
      · exact .inr (.inr (.inr (.inr ⟨_, off, rfl⟩)))
    · exact .inr (.inr (.inl ⟨e, v, rfl, ht⟩))
    · exact .inr (.inr (.inr (.inr ⟨_, off, rfl⟩)))
  · exact .inr (.inl ⟨rfl, by simpa using ht⟩)

/-- R142: the three FC_ADD commands are one operation on their lanes. -/
theorem exec_fcAdd (i : Instr) (syms : List Byte) (s : State) (h : addedSymbols i = some syms) :
    exec i s = (perfCount (lanes syms) s).finish := by
  cases i <;> simp [addedSymbols] at h <;> subst h <;> rfl

end Sys2Proof.Machine
end

