-- ==== Sys2Proof/Laws/Encoding.lean ====
section
/-! SUPPORT. The fields of an encoded command word (30_encoding.md R111 to R114). -/

namespace Sys2Proof

theorem opcField_encodeZ (o : BitVec 4) : opcField (encodeZ o) = o := by
  apply BitVec.eq_of_getLsbD_eq
  intro i hi
  simp only [opcField, encodeZ, BitVec.getLsbD_extractLsb', BitVec.getLsbD_append]
  simp [hi]

theorem zField_encodeZ (o : BitVec 4) : zField (encodeZ o) = 0#28 := by
  apply BitVec.eq_of_getLsbD_eq
  intro i hi
  simp only [zField, encodeZ, BitVec.getLsbD_extractLsb', BitVec.getLsbD_append]
  simp [hi]

theorem opcField_encodeA (n : BitVec 2) (s2 s1 s0 : Byte) : opcField (encodeA n s2 s1 s0) = 3#4 := by
  apply BitVec.eq_of_getLsbD_eq
  intro i hi
  simp only [opcField, encodeA, BitVec.getLsbD_extractLsb', BitVec.getLsbD_append]
  have : i = 0 ∨ i = 1 ∨ i = 2 ∨ i = 3 := by omega
  rcases this with rfl | rfl | rfl | rfl <;> rfl

theorem s0Field_encodeA (n : BitVec 2) (s2 s1 s0 : Byte) : s0Field (encodeA n s2 s1 s0) = s0 := by
  apply BitVec.eq_of_getLsbD_eq
  intro i hi
  simp only [s0Field, encodeA, BitVec.getLsbD_extractLsb', BitVec.getLsbD_append]
  simp [hi]

theorem s1Field_encodeA (n : BitVec 2) (s2 s1 s0 : Byte) : s1Field (encodeA n s2 s1 s0) = s1 := by
  apply BitVec.eq_of_getLsbD_eq
  intro i hi
  simp only [s1Field, encodeA, BitVec.getLsbD_extractLsb', BitVec.getLsbD_append]
  rw [if_neg (by omega), if_pos (by omega)]
  simp [hi]

theorem s2Field_encodeA (n : BitVec 2) (s2 s1 s0 : Byte) : s2Field (encodeA n s2 s1 s0) = s2 := by
  apply BitVec.eq_of_getLsbD_eq
  intro i hi
  simp only [s2Field, encodeA, BitVec.getLsbD_extractLsb', BitVec.getLsbD_append]
  rw [if_neg (by omega), if_neg (by omega), if_pos (by omega)]
  simp only [hi, decide_true, Bool.true_and]
  congr 1; omega

/-- R113: bits 25:24 hold N. -/
theorem nField_encodeA (n : BitVec 2) (s2 s1 s0 : Byte) : (encodeA n s2 s1 s0).extractLsb' 24 2 = n := by
  apply BitVec.eq_of_getLsbD_eq
  intro i hi
  simp only [encodeA, BitVec.getLsbD_extractLsb', BitVec.getLsbD_append]
  rw [if_neg (by omega), if_neg (by omega), if_neg (by omega), if_pos (by omega)]
  simp only [hi, decide_true, Bool.true_and]
  congr 1; omega

/-- R113: bits 27:26 are zero. -/
theorem reserved_encodeA (n : BitVec 2) (s2 s1 s0 : Byte) : (encodeA n s2 s1 s0).extractLsb' 26 2 = 0#2 := by
  apply BitVec.eq_of_getLsbD_eq
  intro i hi
  simp only [encodeA, BitVec.getLsbD_extractLsb', BitVec.getLsbD_append]
  have : i = 0 ∨ i = 1 := by omega
  rcases this with rfl | rfl <;> rfl

/-- R113: bits 23:16 hold S2 and bits 15:8 hold S1. -/
theorem upper_encodeA (n : BitVec 2) (s2 s1 s0 : Byte) : (encodeA n s2 s1 s0).extractLsb' 8 16 = s2 ++ s1 := by
  apply BitVec.eq_of_getLsbD_eq
  intro i hi
  simp only [encodeA, BitVec.getLsbD_extractLsb', BitVec.getLsbD_append]
  rw [if_neg (by omega)]
  by_cases h : i < 8
  · rw [if_pos (by omega), if_pos h]; simp only [hi, decide_true, Bool.true_and]; congr 1; omega
  · rw [if_neg (by omega), if_pos (by omega), if_neg h]; simp only [hi, decide_true, Bool.true_and]; congr 1; omega

end Sys2Proof
end

