-- ==== Sys2Proof/Laws/PerInstr.lean ====
section
/-! SUPPORT. Statements made for each command as a term, one lemma for each constructor: the word of every command is legal
(30_encoding.md R116, R117). -/

namespace Sys2Proof.Laws.EncodeLegal

/-- R116, R117: the command's word is legal. -/
def Statement (i : Instr) : Prop := legalWord (encode i) = true

theorem legal_encodeZ (o : BitVec 4) (h3 : o ≠ 3#4) (hd : o.ult 0xD#4 = true) : legalWord (encodeZ o) = true := by
  rw [legalWord, opcField_encodeZ, if_neg (by simpa using h3), if_pos hd, legalZ, zField_encodeZ]; rfl

theorem legal_encodeA (n : BitVec 2) (s2 s1 s0 : Byte) (h : legalA (encodeA n s2 s1 s0) = true) :
    legalWord (encodeA n s2 s1 s0) = true := by
  rw [legalWord, opcField_encodeA, if_pos (by decide), h]

theorem nop : Statement .nop := legal_encodeZ _ (by decide) (by decide)
theorem clear : Statement .clear := legal_encodeZ _ (by decide) (by decide)
theorem fcClear : Statement .fcClear := legal_encodeZ _ (by decide) (by decide)
theorem fcAdd1 (s0 : Byte) : Statement (.fcAdd1 s0) := by
  apply legal_encodeA
  unfold legalA
  rw [reserved_encodeA, nField_encodeA, upper_encodeA]; rfl
theorem fcAdd2 (s0 s1 : Byte) : Statement (.fcAdd2 s0 s1) := by
  apply legal_encodeA
  unfold legalA
  have h : (encodeA 2#2 0#8 s1 s0).extractLsb' 16 8 = 0#8 := s2Field_encodeA 2#2 0#8 s1 s0
  rw [reserved_encodeA, nField_encodeA, h]; rfl
theorem fcAdd3 (s0 s1 s2 : Byte) : Statement (.fcAdd3 s0 s1 s2) := by
  apply legal_encodeA
  unfold legalA
  rw [reserved_encodeA, nField_encodeA]; rfl
theorem fcScan : Statement .fcScan := legal_encodeZ _ (by decide) (by decide)
theorem tbBuild : Statement .tbBuild := legal_encodeZ _ (by decide) (by decide)
theorem ctGen : Statement .ctGen := legal_encodeZ _ (by decide) (by decide)
theorem encode : Statement .encode := legal_encodeZ _ (by decide) (by decide)
theorem pack : Statement .pack := legal_encodeZ _ (by decide) (by decide)
theorem unpack : Statement .unpack := legal_encodeZ _ (by decide) (by decide)
theorem decode : Statement .decode := legal_encodeZ _ (by decide) (by decide)
theorem compress : Statement .compress := legal_encodeZ _ (by decide) (by decide)
theorem decompress : Statement .decompress := legal_encodeZ _ (by decide) (by decide)

end Sys2Proof.Laws.EncodeLegal
end

