-- ==== Sys2Proof/Laws/Tree.lean ====
section
/-! SUPPORT. The tree builder and the walk (41_tree_builder.md R162, 42_code_table.md R183): the minimum of the priority set, the
leaves, the shape of one merge, the arena, and the table a walk leaves. -/

namespace Sys2Proof.Machine

/-! ### The priority set -/

/-- R163, R169: the key of the second node is not smaller than the first's. -/
theorem keyLt_eq_false (a b : QEntry) :
    keyLt a b = false ↔ b.freq.toNat < a.freq.toNat ∨ (b.freq.toNat = a.freq.toNat ∧ b.idx ≤ a.idx) := by
  simp only [keyLt, Bool.or_eq_false_iff, Bool.and_eq_false_iff, decide_eq_false_iff_not, beq_eq_false_iff_ne]
  omega

/-- R162: extraction takes one member of the set and leaves the others. -/
theorem extractMin_perm (q : QEntry) (l : List QEntry) :
    List.Perm ((extractMin q l).1 :: (extractMin q l).2) (q :: l) := by
  induction l generalizing q with
  | nil => exact List.Perm.refl _
  | cons x xs ih =>
    simp only [extractMin]
    split_ifs
    · exact (List.Perm.swap _ _ _).trans ((ih x).cons q)
    · exact (List.Perm.swap _ _ _).trans (((ih q).cons x).trans (List.Perm.swap _ _ _))

@[simp] theorem length_extractMin (q : QEntry) (l : List QEntry) : (extractMin q l).2.length = l.length := by
  have := (extractMin_perm q l).length_eq
  simpa using this

/-- R162: what is extracted has the smallest key. -/
theorem extractMin_min (q : QEntry) (l : List QEntry) :
    keyLt q (extractMin q l).1 = false ∧ ∀ x ∈ (extractMin q l).2, keyLt x (extractMin q l).1 = false := by
  induction l generalizing q with
  | nil => exact ⟨by simp [extractMin, keyLt], by simp [extractMin]⟩
  | cons x xs ih =>
    simp only [extractMin]
    split_ifs with h
    · obtain ⟨h1, h2⟩ := ih x
      have hq : keyLt q (extractMin x xs).1 = false := by
        rw [keyLt_eq_false] at h1 ⊢
        simp only [keyLt, Bool.or_eq_true, Bool.and_eq_true, decide_eq_true_eq, beq_iff_eq] at h
        omega
      refine ⟨hq, fun y hy => ?_⟩
      rcases List.mem_cons.1 hy with rfl | hy
      · exact hq
      · exact h2 y hy
    · obtain ⟨h1, h2⟩ := ih q
      refine ⟨h1, fun y hy => ?_⟩
      rcases List.mem_cons.1 hy with rfl | hy
      · have h : keyLt y q = false := by simpa using h
        show keyLt y (extractMin q xs).1 = false
        rw [keyLt_eq_false] at h h1 ⊢
        omega
      · exact h2 y hy

/-! ### The leaves -/

/-- R162: a leaf stands for one counter above 0, with its frequency. -/
theorem mem_leavesFrom (n : Nat) (l : List (BitVec 32)) (m : Node) :
    m ∈ leavesFrom n l ↔ ∃ i v, l[i]? = some v ∧ v ≠ 0#32 ∧ m = .leaf (BitVec.ofNat 8 (n + i)) (v.setWidth 40) := by
  induction l generalizing n with
  | nil => simp [leavesFrom]
  | cons a l ih =>
    constructor
    · intro h
      simp only [leavesFrom] at h
      split_ifs at h with ha
      · obtain ⟨i, v, h1, h2, h3⟩ := (ih _).1 h
        exact ⟨i + 1, v, by simpa using h1, h2, by rw [h3]; congr 2; omega⟩
      · rcases List.mem_cons.1 h with rfl | h
        · exact ⟨0, a, rfl, ha, rfl⟩
        · obtain ⟨i, v, h1, h2, h3⟩ := (ih _).1 h
          exact ⟨i + 1, v, by simpa using h1, h2, by rw [h3]; congr 2; omega⟩
    · rintro ⟨i, v, h1, h2, rfl⟩
      simp only [leavesFrom]
      cases i with
      | zero =>
        cases h1
        rw [if_neg h2]; exact List.mem_cons_self
      | succ i =>
        have hm : Node.leaf (BitVec.ofNat 8 (n + (i + 1))) (v.setWidth 40) ∈ leavesFrom (n + 1) l :=
          (ih (n + 1)).2 ⟨i, v, by simpa using h1, h2, by congr 2; omega⟩
        split_ifs
        · exact hm
        · exact List.mem_cons_of_mem _ hm

/-- R162: as many leaves as counters above 0. -/
theorem length_leavesFrom (n : Nat) (l : List (BitVec 32)) :
    (leavesFrom n l).length = l.countP fun v => v != 0#32 := by
  induction l generalizing n with
  | nil => rfl
  | cons a l ih =>
    simp only [leavesFrom]
    split_ifs with h
    · subst h; simp [ih]
    · rw [List.length_cons, ih, List.countP_cons_of_pos (by simpa using h)]

@[simp] theorem length_queueFrom (i : Nat) (l : List Node) : (queueFrom i l).length = l.length := by
  induction l generalizing i with
  | nil => rfl
  | cons a l ih => simp [queueFrom, ih]

theorem getElem?_queueFrom (i k : Nat) (l : List Node) :
    (queueFrom i l)[k]? = (l[k]?).map fun n => { freq := n.freq, idx := i + k } := by
  induction l generalizing i k with
  | nil => rfl
  | cons a l ih =>
    cases k with
    | zero => rfl
    | succ k =>
      simp only [queueFrom, List.getElem?_cons_succ, ih]
      congr 1; funext n; congr 1; omega

/-! ### Merging -/

/-- R162: with a fuel as long as the set, every merge that can be made is made: one new node for each member but one. -/
theorem length_mergeLoop (fuel : Nat) (q : QEntry) (qs : List QEntry) (nodes : List Node) (h : qs.length ≤ fuel) :
    (mergeLoop fuel q qs nodes).1.length = nodes.length + qs.length := by
  induction fuel generalizing q qs nodes with
  | zero => rw [List.length_eq_zero_iff.1 (Nat.le_zero.1 h)]; rfl
  | succ fuel ih =>
    have hl := length_extractMin q qs
    rw [mergeLoop]
    split
    · next a hm => rw [hm] at hl; simp at hl; simp [← hl]
    · next a x xs hm =>
      rw [hm] at hl
      simp only [List.length_cons] at hl
      rw [ih _ _ _ (by rw [length_extractMin]; omega), length_extractMin]
      simp; omega

/-- R162: a merge appends; the nodes already made stay as they are. -/
theorem mergeLoop_keeps (fuel : Nat) (q : QEntry) (qs : List QEntry) (nodes : List Node) :
    ∃ new, (mergeLoop fuel q qs nodes).1 = nodes ++ new := by
  induction fuel generalizing q qs nodes with
  | zero => exact ⟨[], by simp [mergeLoop]⟩
  | succ fuel ih =>
    rw [mergeLoop]
    split
    · exact ⟨[], by simp⟩
    · obtain ⟨new, h⟩ := ih _ _ _
      exact ⟨_, by rw [h, List.append_assoc]⟩

/-! ### The arena and the walk -/

/-- R161: the arena of a list of nodes holds each of them at its index. -/
theorem nodeAt_arenaOf (nodes : List Node) (i : NodeIdx) (h : i.toNat < 511) : nodeAt (arenaOf nodes) i = nodes[i.toNat]? := by
  rw [nodeAt, dif_pos h]
  simp [arenaOf]

/-- R183: a code the walk leaves is one that was there, or a path to a leaf, at most the fuel long below its start. -/
theorem codeAt_walk (a : Arena) (fuel : Nat) (i : NodeIdx) (path : List Bool) (t : Codes) (x : Byte) :
    codeAt (walk a fuel i path t) x = codeAt t x ∨
    ∃ p j f, p.length < fuel ∧ follow a i p = some j ∧ nodeAt a j = some (.leaf x f) ∧
      codeAt (walk a fuel i path t) x = path ++ p := by
  induction fuel generalizing i path t with
  | zero => exact .inl rfl
  | succ fuel ih =>
    simp only [walk]
    split
    · exact .inl rfl
    · next sym f hn =>
      rw [codeAt_codePut]
      split_ifs with hx
      · subst hx; exact .inr ⟨[], i, f, by simp, rfl, hn, by simp⟩
      · exact .inl rfl
    · next f l r hn =>
      rcases ih r (path ++ [true]) (walk a fuel l (path ++ [false]) t) with h | ⟨p, j, g, hp, hf, hl, h⟩
      · rw [h]
        rcases ih l (path ++ [false]) t with h' | ⟨p, j, g, hp, hf, hl, h'⟩
        · exact .inl h'
        · exact .inr ⟨false :: p, j, g, by simpa using hp, by simpa [follow, hn] using hf, hl, by simpa using h'⟩
      · exact .inr ⟨true :: p, j, g, by simpa using hp, by simpa [follow, hn] using hf, hl, by simpa using h⟩

end Sys2Proof.Machine
end

