-- ==== Sys2Proof/Tests/Slice0.lean ====
section
/-! SUPPORT. Tests of the model, their expected results from the spec's worked examples and test vectors (95_test_vectors.md, and the
rule each comment names), and witnesses for the hypotheses of the statements. -/

namespace Sys2Proof.Tests

open Sys2Proof.Machine

-- One declaration after another: the kernel's evaluations below would else each hold a thread.
set_option Elab.async false

/-! ### Helpers -/

/-- Small legal parameters (R5). -/
def small : Params := { symCap := 8, bitCap := 32, pkCap := 6, base := 0 }

/-- HCC after reset with small buffers. -/
def idle : State := State.resetOf small

abbrev Result := Host.Outcome State Fault Refusal

/-- What a function says of the next state, if there is one. -/
def after {α : Type} (o : Result) (f : State → α) : Option α :=
  match o with
  | .next t => some (f t)
  | .fault _ => none
  | .refused _ => none

/-- The fault, if there is one. -/
def faultOf : Result → Option Fault
  | .next _ => none
  | .fault f => some f
  | .refused _ => none

def goesOn (o : Result) : Bool := (after o fun _ => ()).isSome

/-- The next state, or `d`. -/
def resultOr (d : State) : Result → State
  | .next t => t
  | .fault _ => d
  | .refused _ => d

theorem eq_next (d : State) (o : Result) (h : goesOn o = true) : o = .next (resultOr d o) := by
  cases o <;> first | rfl | cases h

/-- A buffer whose first bytes are written. -/
def mem (l : List Byte) : Memory := Memory.writeBytes [] 0 l

def withText (l : List Byte) (s : State) : State := { s with symbuf := mem l, symLen := BitVec.ofNat 32 l.length }
def withBits (x : List Bool) (s : State) : State :=
  { s with bitbuf := mem (bitsToBytes x), bitLen := BitVec.ofNat 32 x.length }
def withPacked (l : List Byte) (s : State) : State := { s with pkbuf := mem l, pkLen := BitVec.ofNat 32 l.length }

/-- A frequency map with the counters listed. -/
def counts (l : List (Byte × BitVec 32)) : Counts := l.foldl (fun cs p => countPut cs p.1 p.2) noCounts

/-- The table 'b' = "0", 'a' = "1" (R182's example). -/
def tableAB : Codes := codePut (codePut noCodes 0x62#8 [false]) 0x61#8 [true]

/-- HCC with that table. -/
def coded : State := { idle with code := tableAB, tableValid := true, treeValid := true }

/-- "aaabb". -/
def aaabb : List Byte := [0x61, 0x61, 0x61, 0x62, 0x62]

/-- "11100". -/
def bits11100 : List Bool := [true, true, true, false, false]

/-- The first `n` bytes of a buffer. -/
def bytes (m : Memory) (n : Nat) : List (Option Byte) := Memory.readBytes m 0 n

/-! ### Ill-formed terms, each refused by its check -/

theorem test_small_wf : small.wf = true := by decide
theorem test_symCapOk_refuses : ({ small with symCap := 0 } : Params).wf = false := by decide
theorem test_symCapOk_refuses_large : ({ small with symCap := 2 ^ 24 + 1 } : Params).wf = false := by decide
theorem test_bitCapOk_refuses : ({ small with bitCap := 12 } : Params).wf = false := by decide
theorem test_pkCapOk_refuses : ({ small with pkCap := 5 } : Params).wf = false := by decide
theorem test_baseOk_refuses : ({ small with base := 4 } : Params).wf = false := by decide
/-- R116: a format Z word with an operand bit set; a reserved opcode. -/
theorem test_legalZ_refuses : legalWord 0x70000001#32 = false := by decide
theorem test_opcode_refuses : legalWord 0xD0000000#32 = false ∧ legalWord 0xF0000000#32 = false := by decide
/-- R116: bits 27:26 set; N = 0; a symbol field beyond N. -/
theorem test_legalA_refuses_reserved : legalWord 0x35000061#32 = false := by decide
theorem test_legalA_refuses_n0 : legalWord 0x30000000#32 = false := by decide
theorem test_legalA_refuses_s1 : legalWord 0x31000100#32 = false := by decide
theorem test_legalA_refuses_s2 : legalWord 0x32010000#32 = false := by decide
theorem test_illegal_words_decode_to_none :
    decode 0x70000001#32 = none ∧ decode 0x35000061#32 = none ∧ decode 0x32010000#32 = none := by decide
/-- The canonical form of a buffer refuses a repeated offset and a falling one. -/
theorem test_memory_wf_refuses : Memory.wf [(1, 0#8), (1, 0#8)] = false ∧ Memory.wf [(2, 0#8), (1, 0#8)] = false := by decide

/-! ### Decoding, by the words of R115 -/

theorem test_decode_nop : decode 0b00000000000000000000000000000000#32 = some .nop := by decide
theorem test_decode_clear : decode 0b00010000000000000000000000000000#32 = some .clear := by decide
theorem test_decode_fc_clear : decode 0b00100000000000000000000000000000#32 = some .fcClear := by decide
theorem test_decode_fc_add1 : decode 0b00110001000000000000000001100001#32 = some (.fcAdd1 0x61#8) := by decide
theorem test_decode_fc_add2 : decode 0b00110010000000000110001001100001#32 = some (.fcAdd2 0x61#8 0x62#8) := by decide
theorem test_decode_fc_add3 : decode 0b00110011011000100110000101100000#32 = some (.fcAdd3 0x60#8 0x61#8 0x62#8) := by decide
theorem test_decode_fc_scan : decode 0b01000000000000000000000000000000#32 = some .fcScan := by decide
theorem test_decode_tb_build : decode 0b01010000000000000000000000000000#32 = some .tbBuild := by decide
theorem test_decode_ct_gen : decode 0b01100000000000000000000000000000#32 = some .ctGen := by decide
theorem test_decode_encode : decode 0b01110000000000000000000000000000#32 = some .encode := by decide
theorem test_decode_pack : decode 0b10000000000000000000000000000000#32 = some .pack := by decide
theorem test_decode_unpack : decode 0b10010000000000000000000000000000#32 = some .unpack := by decide
theorem test_decode_decode : decode 0b10100000000000000000000000000000#32 = some .decode := by decide
theorem test_decode_compress : decode 0b10110000000000000000000000000000#32 = some .compress := by decide
theorem test_decode_decompress : decode 0b11000000000000000000000000000000#32 = some .decompress := by decide

/-! ### The commands -/

/-- R233's example. -/
theorem test_nop : after (exec .nop idle) (fun t => (t.lastCmd, t.busy, t.intStat)) = some (0#32, false, 1#2) := by
  decide +kernel

/-- R234's example: STATUS = 0, INT_STAT = 1; INT_EN and the buffers kept. -/
theorem test_clear : after (exec .clear { withText aaabb (recordError .resource 9#32 idle) with intEn := 3#2 })
    (fun t => (statusWord t, t.intStat, t.intEn, t.symLen, Memory.read t.symbuf 4)) =
    some (0#32, 1#2, 3#2, 0#32, some 0x62#8) := by decide +kernel

/-- R140's example. -/
theorem test_fc_clear : after (exec .fcClear { idle with count := counts [(0x61, 3), (0x62, 2)] })
    (fun t => (countAt t.count 0x61, numSyms t.count)) = some (0#32, 0) := by decide +kernel

/-- R141: an increment at 2^32 - 1 (vector 2.1.3's kind). -/
theorem test_fc_add1_overflow : after (exec (.fcAdd1 0x61) { idle with count := counts [(0x61, 0xFFFFFFFF)] })
    (fun t => (countAt t.count 0x61, t.errCode, t.errInfo, t.intStat)) = some (0xFFFFFFFF#32, .countOverflow, 0#32, 2#2) := by
  decide +kernel

/-- R143: both lanes name one symbol. -/
theorem test_fc_add2_same : after (exec (.fcAdd2 0x61 0x61) idle) (fun t => countAt t.count 0x61) = some 2#32 := by
  decide +kernel

/-- R142's example. -/
theorem test_fc_add3 : after (exec (.fcAdd3 0x61 0x61 0x62) idle)
    (fun t => (countAt t.count 0x61, countAt t.count 0x62, numSyms t.count, fcTotal t.count)) = some (2#32, 1#32, 2, 3) := by
  decide +kernel

/-- Vector 2.1.4. -/
theorem test_fc_add3_overflow : after (exec (.fcAdd3 0x61 0x61 0x62) { idle with count := counts [(0x61, 0xFFFFFFFE)] })
    (fun t => (countAt t.count 0x61, countAt t.count 0x62, statusWord t, t.errInfo)) =
    some (0xFFFFFFFF#32, 0#32, 0x702#32, 1#32) := by decide +kernel

/-- R145. -/
theorem test_fc_scan : after (exec .fcScan (withText aaabb idle))
    (fun t => (countAt t.count 0x61, countAt t.count 0x62, numSyms t.count, fcTotal t.count)) = some (3#32, 2#32, 2, 5) := by
  decide +kernel

/-- R286: a byte below SYM_LEN that nothing has written. -/
theorem test_fc_scan_unwritten : faultOf (exec .fcScan { withText [0x61] idle with symLen := 2#32 }) =
    some (.unwrittenRead .symbuf 1) := by decide +kernel

/-- Vector 2.2.1. -/
theorem test_tb_build : after (exec .tbBuild { idle with count := counts [(0x61, 3), (0x62, 2)] })
    (fun t => (nodeAt t.node 0, nodeAt t.node 2, t.treeRoot, t.nodeCount, statusWord t)) =
    some (some (.leaf 0x61 3), some (.internal 5 1 0), 2#9, 3#9, 0x08#32) := by decide +kernel

/-- Vector 2.2.4: a leaf goes before an internal node of the same frequency. -/
theorem test_tb_build_tie : after (exec .tbBuild { idle with count := counts [(0x61, 2), (0x62, 1), (0x63, 1)] })
    (fun t => (nodeAt t.node 3, nodeAt t.node 4)) = some (some (.internal 2 1 2), some (.internal 4 0 3)) := by
  decide +kernel

/-- The tree of vector 2.2.1. -/
def treeAB : State :=
  { idle with
    node := arenaOf [.leaf 0x61 3, .leaf 0x62 2, .internal 5 1 0], nodeCount := 3#9, treeRoot := 2#9, treeValid := true }

/-- Vector 2.3.1a. -/
theorem test_ct_gen : after (exec .ctGen treeAB)
    (fun t => (codeAt t.code 0x62, codeAt t.code 0x61, t.maxCodeLen, statusWord t)) =
    some ([false], [true], 1#8, 0x18#32) := by decide +kernel

/-- Vector 2.3.2: a single leaf gets "0". -/
theorem test_ct_gen_single :
    after (exec .ctGen { idle with node := arenaOf [.leaf 0x7A 4], nodeCount := 1#9, treeValid := true })
    (fun t => (codeAt t.code 0x7A, t.maxCodeLen)) = some ([false], 1#8) := by decide +kernel

/-- Vector 2.4.1. -/
theorem test_encode : after (exec .encode (withText aaabb coded)) (fun t => (t.bitLen, Memory.read t.bitbuf 0)) =
    some (5#32, some 0xE0#8) := by decide +kernel

/-- Vector 2.4.4. -/
theorem test_encode_unknown : after (exec .encode (withText [0x61, 0x62, 0x63] coded))
    (fun t => (t.errInfo, t.bitLen, statusWord t)) = some (2#32, 0#32, 0x21A#32) := by decide +kernel

/-- Vector 2.5.1, "10101010" and "". -/
theorem test_pack : after (exec .pack (withBits (bits8 0xAA) idle)) (fun t => (bytes t.pkbuf 3, t.pkLen, t.pad)) =
    some ([some 0x08, some 0xAA, some 0x00], 3#32, 8#4) := by decide +kernel
theorem test_pack_empty : after (exec .pack idle) (fun t => (bytes t.pkbuf 2, t.pkLen, t.pad)) =
    some ([some 0x08, some 0x00], 2#32, 8#4) := by decide +kernel

/-- Vector 2.5.2, [03, 1F]: the dropped bits are not looked at, and the tail of the byte is zero. -/
theorem test_unpack : after (exec .unpack (withPacked [0x03, 0x1F] idle))
    (fun t => (t.bitLen, t.pad, Memory.read t.bitbuf 0)) = some (5#32, 3#4, some 0x18#8) := by decide +kernel

/-- R219, [09, FF, FF]. -/
theorem test_unpack_header : after (exec .unpack (withPacked [0x09, 0xFF, 0xFF] idle))
    (fun t => (t.errCode, t.errInfo, t.bitLen)) = some (.malformedStream, 9#32, 0#32) := by decide +kernel

/-- Vector 2.6.1. -/
theorem test_decode : after (exec .decode (withBits bits11100 coded)) (fun t => (t.symLen, bytes t.symbuf 5)) =
    some (5#32, aaabb.map some) := by decide +kernel

/-- R255: the table of "zzzz" and "0010". -/
theorem test_decode_malformed :
    after (exec .decode (withBits [false, false, true, false] { coded with code := codePut noCodes 0x7A [false] }))
    (fun t => (t.errCode, t.errInfo, t.symLen)) = some (.malformedStream, 2#32, 0#32) := by decide +kernel

/-- R236's example. -/
theorem test_compress : after (exec .compress (withText aaabb idle))
    (fun t => (bytes t.pkbuf 2, t.pkLen, t.pad, t.bitLen)) = some ([some 0x03, some 0xE0], 2#32, 3#4, 5#32) := by
  decide +kernel

/-- R237: an empty text. -/
theorem test_compress_empty : after (exec .compress idle) (fun t => (statusWord t, t.pkLen)) = some (0x602#32, 0#32) := by
  decide +kernel

/-- R238's example. -/
theorem test_decompress : after (exec .decompress (withPacked [0x03, 0xE0] coded)) (fun t => (t.symLen, bytes t.symbuf 5)) =
    some (5#32, aaabb.map some) := by decide +kernel

/-- The table of "abracadabra" (R188). -/
def tableAbra : Codes :=
  [(0x61#8, [false]), (0x63, [true, false, false]), (0x64, [true, false, true]), (0x62, [true, true, false]),
   (0x72, [true, true, true])].foldl (fun t p => codePut t p.1 p.2) noCodes

/-- Vector 2.7.15: DECODE fails after UNPACK, whose BITBUF, BIT_LEN and PAD stay. -/
theorem test_decompress_malformed : after (exec .decompress (withPacked [0x00, 0x6D] { coded with code := tableAbra, pad := 3#4 }))
    (fun t => (t.errCode, t.errInfo, t.bitLen, t.pad, Memory.read t.bitbuf 0)) =
    some (.malformedStream, 7#32, 8#32, 0#4, some 0x6D#8) := by decide +kernel

/-- R238, R275: no table, and nothing changes. -/
theorem test_decompress_sequence : after (exec .decompress (withText aaabb (withPacked [0x03, 0xE0] idle)))
    (fun t => (t.errCode, t.errInfo, t.symLen, Memory.read t.symbuf 4)) =
    some (.sequence, 0xC0000000#32, 5#32, some 0x62#8) := by decide +kernel

/-- R280's table: an error of ENCODE, here SEQUENCE (log 6), clears BITBUF and BIT_LEN and keeps SYMBUF. -/
theorem test_encode_sequence : after (exec .encode (withBits bits11100 (withText aaabb idle)))
    (fun t => (t.errInfo, t.bitLen, t.symLen, Memory.read t.bitbuf 0)) = some (0x70000000#32, 0#32, 5#32, none) := by
  decide +kernel

/-- R84, R87: a byte write stores one byte, here of a value that does not fit one (log 19). -/
theorem test_narrow_write : after (hostWrite 0x1000002 .byte 0x1234 idle) (fun t => t.symbuf) = some [(2, 0x34#8)] := by
  decide +kernel

/-! ### Steps, host accesses and reset -/

/-- R230, R276: a word that is not legal. -/
theorem test_step_illegal : after (step (idle.withFetchWord 32 0xD0000000)) (fun t => (statusWord t, t.errInfo)) =
    some (0x402#32, 0xD0000000#32) := by decide +kernel

/-- The first step after reset runs the word that is loaded. -/
theorem test_fetch_word : after (step (State.reset.withFetchWord 32 0x31000061)) (fun t => countAt t.count 0x61) = some 1#32 := by
  decide +kernel

/-- R22. -/
theorem test_read_id : after (hostRead 0x000 .word idle) (·.bus) = some (some (readAnswer 0x48554646)) := by decide +kernel

/-- R84's example. -/
theorem test_read_little_endian : after (hostRead 0x3000000 .word (withPacked [0x03, 0xE0, 0x00, 0x00] idle)) (·.bus) =
    some (some (readAnswer 0x0000E003)) := by decide +kernel

/-- R86, R88, R81: misaligned, too narrow, and one byte beyond SYMBUF's eight. -/
theorem test_berr : after (hostRead 0x002 .word idle) (·.bus) = some (some berrRead) ∧
    after (hostWrite 0x020 .byte 1 idle) (fun t => (t.bus, t.intEn)) = some (some berrWrite, 0#2) ∧
    after (hostRead 0x1000008 .byte idle) (·.bus) = some (some berrRead) := by decide +kernel

/-- R119, R92: an expectation of 0 is not met by a read that gets BERR (log 17). -/
theorem test_expectation_berr : (runScript [.rd .word 0x10000 (some 0)] idle).isSome = false := by decide +kernel

/-- R89: a reserved offset reads 0, without an error. -/
theorem test_reserved : after (hostRead 0x050 .word idle) (fun t => (t.bus, t.err)) = some (some (readAnswer 0), false) := by
  decide +kernel

/-- R278: SYM_LEN is not in the busy-safe set. -/
theorem test_protocol : after (hostWrite 0x028 .word 3 { idle with busy := true })
    (fun t => (t.errCode, t.errInfo, t.symLen, t.busy)) = some (.protocol, 0x28#32, 0#32, true) := by decide +kernel

/-- R33: above the capacity. -/
theorem test_sym_len : after (hostWrite 0x028 .word 9 idle) (fun t => (t.errCode, t.errInfo, t.symLen)) =
    some (.resource, 9#32, 0#32) := by decide +kernel

/-- R231, R281: a command while an error is recorded is dropped. -/
theorem test_dropped : after (hostWrite 0x010 .word 0x20000000 (recordError .resource 9 idle))
    (fun t => (t.ovf, t.busy, t.lastCmd)) = some (true, false, 0#32) := by decide +kernel

/-- R283: ERRACK leaves INT_STAT.ERRI. -/
theorem test_ack : after (hostWrite 0x01C .word 1 (recordError .resource 9 idle)) (fun t => (statusWord t, t.errInfo, t.intStat)) =
    some (0#32, 0#32, 2#2) := by decide +kernel

/-- R29: writing 1 clears the bit. -/
theorem test_int_stat : after (hostWrite 0x024 .word 1 { idle with intStat := 3#2 }) (·.intStat) = some 2#2 := by decide +kernel

/-- R44's example: the code "110". -/
theorem test_code_window : codeWord [true, true, false] 0 = 3#32 ∧ codeWord [true, true, false] 1 = 0xC0000000#32 := by decide

/-- Vector 2.2.2: the window of NODE[8]. -/
theorem test_node_window : (List.range 4).map (nodeWord true (some (.internal 11 0 7))) = [0xB, 0xC0000000, 0, 7] := by decide

/-- R300, R301: reset drops the command in flight; an access while it is asserted is no step. -/
theorem test_reset : after (step { (withText aaabb idle) with busy := true, inputs := [.assertReset] })
    (fun t => (t.busy, t.symLen, t.symbuf, t.resetPin)) = some (false, 0#32, [], true) := by decide +kernel
theorem test_access_in_reset : faultOf (hostRead 0x014 .word { idle with resetPin := true }) = some .accessInReset := by
  decide +kernel

/-- R120, R121: a script that loads a text, compresses it and reads the stream back. -/
theorem test_script : (runScript (opLoadSymbols aaabb ++ opCommand .compress ++ [.rd .half (bufOffset .pkbuf 0) (some 0xE003)])
    idle).isSome = true := by decide +kernel

/-! ### Witnesses: a state and operands that meet the hypotheses of each statement that has some -/

theorem witness_DecodeInvertsEncode :
    (Instr.fcAdd3 0 1 255).wellFormed = true ∧ decode 0x33FF0100#32 = some (.fcAdd3 0 1 255) ∧
    legalWord 0x33FF0100#32 = true := by decide

/-- Both turns that are the engine's, busy and idle; a read, a write and the release of reset listed first. -/
theorem witness_StepRunsNextTurn :
    (let s := { idle with busy := true, inputs := [.engine] }
     s.inputs.head? = some .engine ∧ s.busy = true ∧ s.resetPin = false ∧ decode s.pending = some .nop) ∧
    (idle.inputs = [] ∧ idle.busy = false) ∧
    (∀ i ∈ [Input.read 0x014 .word, .write 0x028 .word 5, .releaseReset], goesOn (step { idle with inputs := [i, .engine] }) = true) ∧
    after (step { idle with inputs := [.write 0x028 .word 5, .engine] }) (fun t => (t.symLen, t.inputs)) =
      some (5#32, [.engine]) := by decide +kernel

theorem witness_IllegalWordRecordsItself :
    let s := { idle with busy := true, pending := 0xD0000000#32 }
    s.busy = true ∧ s.resetPin = false ∧ s.inputs = [] ∧ legalWord s.pending = false := by decide +kernel

/-- A state with a text and a command in flight. -/
def busyText : State := { withText aaabb idle with busy := true, pending := 0x40000000#32, lastCmd := 0x40000000#32 }

theorem busyText_inv : StateInv busyText where
  params := by decide
  symLenFits := by decide +kernel
  bitLenFits := by decide +kernel
  pkLenFits := by decide +kernel
  bufWf := by intro b; cases b <;> decide +kernel
  bufBelow := by intro b; cases b <;> decide +kernel
  padRange := by decide +kernel
  noTree := fun _ => ⟨rfl, rfl, nodeAt_noNodes⟩
  tree := fun h => by cases h
  noTable := fun _ => ⟨codeAt_noCodes, rfl⟩
  table := fun h => by cases h
  noError := fun _ => ⟨rfl, rfl, rfl⟩
  errorNamed := fun h => by cases h
  pendingHeld := fun _ => rfl
  idleInReset := fun h => by cases h

theorem witness_StepKeepsInvariant : ∃ s t, StateInv s ∧ step s = .next t :=
  ⟨busyText, _, busyText_inv, eq_next idle _ (by decide +kernel)⟩

theorem witness_AssertedResetClearsEverything :
    ∃ (s : State) (rest : List Input), s.inputs = .assertReset :: rest ∧ s.busy = true ∧ s.symLen = 5#32 :=
  ⟨{ busyText with inputs := [.assertReset, .releaseReset] }, [.releaseReset], by decide +kernel⟩

theorem witness_AccessDuringResetStops : ∃ s : State, s.resetPin = true := ⟨{ idle with resetPin := true }, rfl⟩

theorem witness_FirstErrorWins : idle.err = false ∧ (recordError .resource 9#32 idle).err = true := by decide +kernel

theorem witness_RaiseClearsOutput : ∃ (outs : List Buf) (b b' : Buf) (s : State), b ∈ outs ∧ b' ∉ outs ∧
    bufRead s b 0 ≠ none ∧ bufRead s b' 0 ≠ none :=
  ⟨[.symbuf], .symbuf, .bitbuf, withBits bits11100 (withText aaabb idle), by decide +kernel⟩

theorem witness_MissingStateRaisesSequence : idle.treeValid = false ∧ idle.tableValid = false := by decide +kernel

theorem witness_ErrAckClearsError : idle.resetPin = false ∧ (1#32).getLsbD 0 = true ∧ (2#32).getLsbD 0 = false := by
  decide +kernel

theorem witness_OnlyClearForgetsError : ∃ (i : Instr) (s t : State), i ≠ .clear ∧ s.err = true ∧ exec i s = .next t :=
  ⟨.nop, recordError .resource 9#32 idle, _, by decide, by decide +kernel, eq_next idle _ (by decide +kernel)⟩

/-- A command that ends with neither DONE before nor after. -/
def failsAt (i : Instr) (s : State) : Bool :=
  !s.intStat.getLsbD 0 && after (exec i s) (fun t => t.intStat.getLsbD 0) == some false

/-- Each of the six commands with an output, failing. -/
theorem witness_FailedCommandKeepsNoOutput :
    failsAt .encode (withText [0x63] coded) = true ∧
    failsAt .pack { idle with par := { small with pkCap := 1 } } = true ∧ failsAt .unpack idle = true ∧
    failsAt .decode (withBits [true, true] { coded with code := codePut noCodes 0x7A [false] }) = true ∧
    failsAt .compress idle = true ∧ failsAt .decompress coded = true ∧ coded.tableValid = true ∧
    ([Instr.encode, .decode].all fun i => failsAt i (withBits bits11100 (withText aaabb idle))) = true := by decide +kernel

/-- Fewer than 2^32 symbols fit on an empty map; and on a map of one counter when they fit that one. -/
theorem fits_one (a : Byte) (m : BitVec 32) (syms : List Byte) (hl : syms.length < 2 ^ 32)
    (h : m.toNat + syms.count a < 2 ^ 32) (x : Byte) : (countAt (counts [(a, m)]) x).toNat + syms.count x < 2 ^ 32 := by
  show (countAt (countPut noCounts a m) x).toNat + _ < _
  rw [countAt_countPut, countAt_noCounts]
  split_ifs with hx
  · rw [hx]; exact h
  · have := List.count_le_length (a := x) (l := syms)
    rw [BitVec.toNat_zero]; omega

/-- Symbols that fit, at each number of lanes. -/
theorem witness_FcAddAddsEveryLane :
    addedSymbols (.fcAdd1 0) = some [0] ∧ addedSymbols (.fcAdd2 0 255) = some [0, 255] ∧
    addedSymbols (.fcAdd3 0 255 255) = some [0, 255, 255] ∧
    (∀ x, (countAt (counts [(0xFF, 0xFFFFFFFD)]) x).toNat + [0#8, 255#8, 255#8].count x < 2 ^ 32) :=
  ⟨rfl, rfl, rfl, fits_one _ _ _ (by decide) (by decide)⟩

/-- The first two lanes fit and the third does not. -/
theorem witness_FcAddAddsEveryLane_overflow :
    addedSymbols (.fcAdd3 0 255 255) = some [0, 255, 255] ∧ [0#8, 255#8, 255#8][2]? = some 255#8 ∧
    (∀ x, (countAt (counts [(0xFF, 0xFFFFFFFE)]) x).toNat + ([0#8, 255#8, 255#8].take 2).count x < 2 ^ 32) ∧
    (countAt (counts [(0xFF, 0xFFFFFFFE)]) 255).toNat + ([0#8, 255#8, 255#8].take 2).count 255 = 2 ^ 32 - 1 :=
  ⟨rfl, rfl, fits_one _ _ _ (by decide) (by decide), by decide +kernel⟩

theorem witness_FcScanAddsEverySymbol :
    let s := { withText aaabb idle with count := counts [(0x61, 0xFFFFFFFC)] }
    (∀ x, (countAt s.count x).toNat + aaabb.count x < 2 ^ 32) ∧ symInput s = aaabb.map some ∧
    symInput { s with symLen := 6#32 } = aaabb.map some ++ none :: [] :=
  ⟨fits_one _ _ _ (by decide) (by decide), by decide +kernel, by decide +kernel⟩

/-- The second symbol does not fit; an unwritten byte follows it. -/
theorem witness_FcScanAddsEverySymbol_overflow :
    let s := { withText [0x61, 0x61] idle with count := counts [(0x61, 0xFFFFFFFE)], symLen := 3#32 }
    (∀ x, (countAt s.count x).toNat + [0x61#8].count x < 2 ^ 32) ∧
    symInput s = [0x61#8].map some ++ some 0x61#8 :: [none] ∧
    (countAt s.count 0x61).toNat + [0x61#8].count 0x61 = 2 ^ 32 - 1 :=
  ⟨fits_one _ _ _ (by decide) (by decide), by decide +kernel, by decide +kernel⟩

theorem witness_ClearThenScanCountsInput : ∃ (s : State) (syms : List Byte), Written (symInput s) syms ∧ syms.length = 8 :=
  ⟨withText (aaabb ++ [0, 255, 0]) idle, aaabb ++ [0, 255, 0], by unfold Written; decide +kernel, by decide⟩

theorem witness_TbBuildInstallsTree : numSyms (counts [(0x61, 3), (0x62, 2)]) ≠ 0 ∧ numSyms idle.count = 0 := by
  decide +kernel

/-- One symbol, two, and all 256. -/
theorem witness_BuiltArenaLayout : numSyms (counts [(0xFF, 1)]) = 1 ∧ numSyms (counts [(0x61, 3), (0x62, 2)]) = 2 ∧
    numSyms (Vector.replicate 256 0xFFFFFFFF#32) = 256 := by decide +kernel

theorem witness_BuiltTreeIsBinary : ∃ (cs : Counts) (nodes : List Node) (root : Nat),
    build cs = (nodes, root) ∧ numSyms cs ≠ 0 ∧ nodes[2]? = some (.internal 5 1 0) ∧ 0 < nodes.length ∧ 0 ≠ root :=
  ⟨counts [(0x61, 3), (0x62, 2)], _, _, rfl, by decide +kernel⟩

theorem witness_MergesTakeSmallestKeys : ∃ (cs : Counts) (nodes : List Node) (root : Nat) (k : Nat) (f : Freq) (l r : NodeIdx),
    build cs = (nodes, root) ∧ nodes[k]? = some (.internal f l r) :=
  ⟨counts [(0x61, 2), (0x62, 1), (0x63, 1)], _, _, 4, 4, 0, 3, rfl, by decide +kernel⟩

theorem witness_CtGenInstallsTable : treeAB.treeValid = true := by decide +kernel

theorem witness_CodesAreLeafPaths :
    2 ≤ numSyms (counts [(0x61, 3), (0x62, 2)]) ∧ countAt (counts [(0x61, 3), (0x62, 2)]) 0x61 ≠ 0#32 := by decide +kernel

theorem witness_TableIsPrefixFreeAndComplete :
    numSyms (counts [(0x61, 3), (0x62, 2)]) = 2 ∧ numSyms (counts [(0x7A, 4)]) = 1 ∧
    (let t := tableOf (counts [(0x61, 3), (0x62, 2)])
     codeAt t 0x61 ≠ [] ∧ codeAt t 0x62 ≠ [] ∧ codeAt t 0x63 = []) := by decide +kernel

theorem witness_SingleSymbolGetsZero :
    numSyms (counts [(0xFF, 4)]) = 1 ∧ countAt (counts [(0xFF, 4)]) 0xFF ≠ 0#32 := by decide +kernel

theorem allCoded_aaabb : AllCoded tableAB aaabb := by unfold AllCoded; decide +kernel

theorem codeAt_tableAB (x : Byte) :
    codeAt tableAB x = if x = 0x61#8 then [true] else if x = 0x62#8 then [false] else [] := by
  rw [tableAB, codeAt_codePut, codeAt_codePut, codeAt_noCodes]

theorem prefixFree_tableAB : PrefixFree tableAB := by
  intro x y hxy hx hy
  rw [codeAt_tableAB] at hx ⊢
  rw [codeAt_tableAB] at hy ⊢
  split_ifs at * <;> simp_all

theorem witness_EncodeConcatenatesCodes : ∃ (s : State) (syms : List Byte) (x : List Bool),
    s.par.wf = true ∧ s.tableValid = true ∧ Written (symInput s) syms ∧ AllCoded s.code syms ∧ x = codesOf s.code syms ∧
    x.length ≤ s.par.bitCap ∧ x = bits11100 :=
  ⟨withText aaabb coded, aaabb, bits11100, by decide +kernel, rfl, by unfold Written; decide +kernel, allCoded_aaabb,
    by decide +kernel, by decide +kernel, rfl⟩

/-- A symbol without an entry, and one whose code no longer fits. -/
theorem witness_EncodeReportsFirstFailure : ∃ (s : State) (pre : List Byte) (x : Byte) (rest : List (Option Byte)),
    s.tableValid = true ∧ symInput s = pre.map some ++ some x :: rest ∧ AllCoded s.code pre ∧
    (codesOf s.code pre).length ≤ s.par.bitCap ∧ codeAt s.code x = [] :=
  ⟨withText (aaabb ++ [0x63, 0x61]) coded, aaabb, 0x63, [some 0x61], rfl, by decide +kernel, allCoded_aaabb,
    by decide +kernel, by decide +kernel⟩
theorem witness_EncodeReportsFirstFailure_resource : ∃ (s : State) (pre : List Byte) (x : Byte) (rest : List (Option Byte)),
    s.tableValid = true ∧ symInput s = pre.map some ++ some x :: rest ∧ AllCoded s.code pre ∧
    (codesOf s.code pre).length ≤ s.par.bitCap ∧ codeAt s.code x ≠ [] ∧
    s.par.bitCap < (codesOf s.code pre).length + codeLen s.code x :=
  ⟨{ withText (aaabb ++ [0x61]) coded with par := { small with bitCap := 5 } }, aaabb, 0x61, [], rfl, by decide +kernel,
    allCoded_aaabb, by decide +kernel, by decide +kernel, by decide +kernel⟩

/-- A stream that does not fit; a bit sequence that does. -/
theorem witness_PackWritesStream :
    (let s : State := { idle with par := { small with pkCap := 1 } }
     s.par.pkCap < s.bitLen.toNat / 8 + 2) ∧
    (let s := withBits bits11100 idle
     s.par.wf = true ∧ s.bitLen.toNat ≤ s.par.bitCap ∧ bitInput s = bits11100.map some) := by decide +kernel

theorem witness_UnpackRejectsMalformed :
    idle.pkLen = 0#32 ∧
    (let s := withPacked [9] idle; s.pkLen ≠ 0#32 ∧ Memory.read s.pkbuf 0 = some 9#8 ∧ 8 < (9#8).toNat) ∧
    (let s := withPacked [8] idle
     s.pkLen ≠ 0#32 ∧ Memory.read s.pkbuf 0 = some 8#8 ∧ (8#8).toNat ≤ 8 ∧ 8 * (s.pkLen.toNat - 1) < (8#8).toNat) := by
  decide +kernel

/-- A header of 8 over one payload byte; and a sequence of 16 bits for a BITBUF of 8 (vector 2.5.2's last row). -/
theorem witness_UnpackDropsPadding :
    (let s := withPacked [8, 0xFF] idle
     s.par.wf = true ∧ s.pkLen.toNat ≤ s.par.pkCap ∧ s.pkLen ≠ 0#32 ∧ Memory.read s.pkbuf 0 = some 8#8 ∧ (8#8).toNat ≤ 8 ∧
     (8#8).toNat ≤ 8 * (s.pkLen.toNat - 1) ∧ payloadInput s = [0xFF#8].map some ∧
     8 * (s.pkLen.toNat - 1) - (8#8).toNat ≤ s.par.bitCap) ∧
    (let s := withPacked [0, 1, 2] { idle with par := { small with bitCap := 8, pkCap := 10 } }
     s.par.wf = true ∧ s.pkLen.toNat ≤ s.par.pkCap ∧ s.pkLen ≠ 0#32 ∧ Memory.read s.pkbuf 0 = some 0#8 ∧ (0#8).toNat ≤ 8 ∧
     (0#8).toNat ≤ 8 * (s.pkLen.toNat - 1) ∧ s.par.bitCap < 8 * (s.pkLen.toNat - 1) - (0#8).toNat) := by decide +kernel

theorem witness_PackUnpackRoundTrip : ∃ (s : State) (x : List Bool),
    s.par.wf = true ∧ s.bitLen.toNat ≤ s.par.bitCap ∧ Written (bitInput s) x ∧ x.length = 32 :=
  ⟨withBits ((bits8 0xA5) ++ (bits8 0x5A) ++ (bits8 0xFF) ++ bits8 0) idle, (bits8 0xA5) ++ (bits8 0x5A) ++ (bits8 0xFF) ++ bits8 0,
    by decide +kernel, by decide +kernel, by unfold Written; decide +kernel, by decide +kernel⟩

theorem witness_DecodeRecoversSymbols : ∃ (s : State) (syms : List Byte),
    s.par.wf = true ∧ s.tableValid = true ∧ PrefixFree s.code ∧ AllCoded s.code syms ∧
    Written (bitInput s) (codesOf s.code syms) ∧ syms.length ≤ s.par.symCap ∧ syms = aaabb :=
  ⟨withBits bits11100 coded, aaabb, by decide +kernel, rfl, prefixFree_tableAB, allCoded_aaabb,
    by unfold Written; decide +kernel, by decide +kernel, rfl⟩

/-- HCC with the table of "zzzz" (R188). -/
def codedZ : State := { coded with code := codePut noCodes 0x7A [false] }

theorem codeAt_codedZ (x : Byte) : codeAt codedZ.code x = if x = 0x7A#8 then [false] else [] := by
  show codeAt (codePut noCodes 0x7A#8 [false]) x = _
  rw [codeAt_codePut, codeAt_noCodes]

theorem prefixFree_codedZ : PrefixFree codedZ.code := by
  intro x y hxy hx hy
  rw [codeAt_codedZ] at hx hy
  simp_all

/-- No code of that table begins with a 1. -/
theorem codedZ_dead (y : Byte) (part : List Bool) (hy : codeAt codedZ.code y ≠ []) :
    ¬ (codeAt codedZ.code y <+: true :: part) := by
  rw [codeAt_codedZ] at hy ⊢
  split_ifs at hy ⊢ <;> simp_all

/-- The table of "zzzz" (R255): bits that no code begins. -/
theorem witness_DecodeReportsFailures : ∃ (s : State) (syms : List Byte) (part : List Bool),
    s.tableValid = true ∧ PrefixFree s.code ∧ AllCoded s.code syms ∧ Written (bitInput s) (codesOf s.code syms ++ part) ∧
    syms.length ≤ s.par.symCap ∧ part ≠ [] ∧ ∀ y, codeAt s.code y ≠ [] → ¬ (codeAt s.code y <+: part) :=
  ⟨withBits [false, false, true, false] codedZ, [0x7A, 0x7A], [true, false], rfl, prefixFree_codedZ,
    by unfold AllCoded; decide +kernel, by unfold Written; decide +kernel, by decide +kernel, by decide,
    fun y hy => codedZ_dead y _ hy⟩

/-- One symbol too many for a SYMBUF of five bytes. -/
theorem witness_DecodeReportsFailures_resource :
    ∃ (s : State) (syms : List Byte) (x : Byte) (rest : List (Option Bool)), s.tableValid = true ∧ PrefixFree s.code ∧
    AllCoded s.code syms ∧ codeAt s.code x ≠ [] ∧ bitInput s = (codesOf s.code (syms ++ [x])).map some ++ rest ∧
    syms.length = s.par.symCap :=
  ⟨{ withBits (bits11100 ++ [true, false]) coded with par := { small with symCap := 5 } }, aaabb, 0x61, [some false], rfl,
    prefixFree_tableAB, allCoded_aaabb, by decide +kernel, by decide +kernel, by decide +kernel⟩

/-- A map of two symbols counts a text of those two. -/
theorem counted_two (a b : Byte) (m n : BitVec 32) (syms : List Byte) (ha : syms.count a = m.toNat) (hb : syms.count b = n.toNat)
    (hs : ∀ y ∈ syms, y = a ∨ y = b) : Counted (counts [(a, m), (b, n)]) syms := by
  intro x
  show (countAt (countPut (countPut noCounts a m) b n) x).toNat = _
  rw [countAt_countPut, countAt_countPut, countAt_noCounts]
  split_ifs with h1 h2
  · rw [h1, hb]
  · rw [h2, ha]
  · rw [List.count_eq_zero_of_not_mem fun hx => (hs x hx).elim h2 h1]; rfl

theorem counted_aaabb : Counted (counts [(0x61, 3), (0x62, 2)]) aaabb := counted_two _ _ _ _ _ rfl rfl (by decide)

theorem witness_CompressPacksEncodedText : ∃ (s : State) (syms : List Byte) (cs : Counts) (x : List Bool),
    s.par.wf = true ∧ s.symLen.toNat ≤ s.par.symCap ∧ Written (symInput s) syms ∧ syms ≠ [] ∧ Counted cs syms ∧
    x = codesOf (tableOf cs) syms ∧ x.length ≤ s.par.bitCap ∧ x = bits11100 :=
  ⟨withText aaabb idle, aaabb, counts [(0x61, 3), (0x62, 2)], bits11100, by decide +kernel, by decide +kernel,
    by unfold Written; decide +kernel, by decide, counted_aaabb, by decide +kernel, by decide +kernel, rfl⟩

/-- Empty inputs; a header above 8, one above the payload bits, and a sequence of 16 bits for a BITBUF of 8. -/
theorem witness_PipelinesReportFailures : idle.symLen = 0#32 ∧ coded.tableValid = true ∧ coded.pkLen = 0#32 ∧
    (let s := withPacked [9] coded; s.tableValid = true ∧ s.pkLen ≠ 0#32 ∧ Memory.read s.pkbuf 0 = some 9#8 ∧ 8 < (9#8).toNat) ∧
    (let s := withPacked [8] coded
     s.tableValid = true ∧ s.pkLen ≠ 0#32 ∧ Memory.read s.pkbuf 0 = some 8#8 ∧ 8 * (s.pkLen.toNat - 1) < (8#8).toNat) ∧
    (let s := withPacked [0, 1, 2] { coded with par := { small with bitCap := 8, pkCap := 10 } }
     s.tableValid = true ∧ s.pkLen ≠ 0#32 ∧ Memory.read s.pkbuf 0 = some 0#8 ∧ (0#8).toNat ≤ 8 ∧
     s.par.bitCap < 8 * (s.pkLen.toNat - 1) - (0#8).toNat) := by decide +kernel

/-- The hypotheses of its last clause together, and those of its first case: "0010" with the table of "zzzz" (R255). -/
theorem witness_PipelinesReportFailures_malformed :
    ∃ (s : State) (p : Byte) (payload syms : List Byte) (x part : List Bool), s.par.wf = true ∧ s.pkLen.toNat ≤ s.par.pkCap ∧
    s.tableValid = true ∧ PrefixFree s.code ∧ AllCoded s.code syms ∧ s.pkLen ≠ 0#32 ∧ Memory.read s.pkbuf 0 = some p ∧
    p.toNat ≤ 8 ∧ p.toNat ≤ 8 * (s.pkLen.toNat - 1) ∧ Written (payloadInput s) payload ∧
    x = (payload.flatMap bits8).take (8 * (s.pkLen.toNat - 1) - p.toNat) ∧ x.length ≤ s.par.bitCap ∧
    x = codesOf s.code syms ++ part ∧ syms.length ≤ s.par.symCap ∧ part ≠ [] ∧
    ∀ y, codeAt s.code y ≠ [] → ¬ (codeAt s.code y <+: part) :=
  ⟨withPacked [4, 0x20] codedZ, 4, [0x20], [0x7A, 0x7A], [false, false, true, false], [true, false], by decide +kernel,
    by decide +kernel, rfl, prefixFree_codedZ, by unfold AllCoded; decide +kernel, by decide +kernel, by decide +kernel,
    by decide, by decide +kernel, by unfold Written; decide +kernel, by decide +kernel, by decide +kernel, by decide +kernel,
    by decide +kernel, by decide, fun y hy => codedZ_dead y _ hy⟩

/-- Its second case: six symbols for a SYMBUF of five bytes. -/
theorem witness_PipelinesReportFailures_resource :
    ∃ (s : State) (p : Byte) (payload syms : List Byte) (x : List Bool) (y : Byte) (rest : List Bool), s.par.wf = true ∧
    s.pkLen.toNat ≤ s.par.pkCap ∧ s.tableValid = true ∧ PrefixFree s.code ∧ AllCoded s.code syms ∧ s.pkLen ≠ 0#32 ∧
    Memory.read s.pkbuf 0 = some p ∧ p.toNat ≤ 8 ∧ p.toNat ≤ 8 * (s.pkLen.toNat - 1) ∧ Written (payloadInput s) payload ∧
    x = (payload.flatMap bits8).take (8 * (s.pkLen.toNat - 1) - p.toNat) ∧ x.length ≤ s.par.bitCap ∧
    codeAt s.code y ≠ [] ∧ x = codesOf s.code (syms ++ [y]) ++ rest ∧ syms.length = s.par.symCap :=
  ⟨withPacked [1, 0xE4] { coded with par := { small with symCap := 5 } }, 1, [0xE4], aaabb, bits11100 ++ [true, false], 0x61,
    [false], by decide +kernel, by decide +kernel, rfl, prefixFree_tableAB, allCoded_aaabb, by decide +kernel, by decide +kernel,
    by decide, by decide +kernel, by unfold Written; decide +kernel, by decide +kernel, by decide +kernel, by decide +kernel,
    by decide +kernel, by decide +kernel⟩

/-- Nine symbols of two kinds for a BITBUF of eight bits: the last one does not fit. -/
theorem witness_CompressTooLongKeepsTable : ∃ (s : State) (pre post : List Byte) (x : Byte) (cs : Counts),
    s.par.wf = true ∧ s.symLen.toNat ≤ s.par.symCap ∧ Written (symInput s) (pre ++ x :: post) ∧ Counted cs (pre ++ x :: post) ∧
    (codesOf (tableOf cs) pre).length ≤ s.par.bitCap ∧
    s.par.bitCap < (codesOf (tableOf cs) pre).length + codeLen (tableOf cs) x ∧ s.err = false :=
  ⟨withText (aaabb ++ [0x61, 0x61, 0x61, 0x61]) { idle with par := { small with symCap := 9, bitCap := 8 } },
    aaabb ++ [0x61, 0x61, 0x61], [], 0x61, counts [(0x61, 7), (0x62, 2)], by decide +kernel, by decide +kernel,
    by unfold Written; decide +kernel, counted_two _ _ _ _ _ rfl rfl (by decide), by decide +kernel, by decide +kernel,
    by decide +kernel⟩

theorem witness_DecompressRecoversText : ∃ (s : State) (p : Byte) (payload syms : List Byte) (x : List Bool),
    s.par.wf = true ∧ s.pkLen.toNat ≤ s.par.pkCap ∧ s.tableValid = true ∧ PrefixFree s.code ∧ AllCoded s.code syms ∧
    s.pkLen ≠ 0#32 ∧ Memory.read s.pkbuf 0 = some p ∧ p.toNat ≤ 8 ∧ p.toNat ≤ 8 * (s.pkLen.toNat - 1) ∧
    Written (payloadInput s) payload ∧ x = codesOf s.code syms ∧
    x = (payload.flatMap bits8).take (8 * (s.pkLen.toNat - 1) - p.toNat) ∧ x.length ≤ s.par.bitCap ∧
    syms.length ≤ s.par.symCap :=
  ⟨withPacked [0x03, 0xE0] coded, 3, [0xE0], aaabb, bits11100, by decide +kernel, by decide +kernel, rfl, prefixFree_tableAB,
    allCoded_aaabb, by decide +kernel, by decide +kernel, by decide, by decide +kernel, by unfold Written; decide +kernel,
    by decide +kernel, by decide +kernel, by decide +kernel, by decide +kernel⟩

theorem witness_CompressDecompressRoundTrip : ∃ (s t u : State) (syms : List Byte),
    s.par.wf = true ∧ s.symLen.toNat ≤ s.par.symCap ∧ Written (symInput s) syms ∧ s.intStat.getLsbD 0 = false ∧
    exec .compress s = .next t ∧ t.intStat.getLsbD 0 = true ∧ u.par = s.par ∧ u.tableValid = true ∧ u.code = t.code ∧
    u.pkLen = t.pkLen ∧ (∀ off, off < t.pkLen.toNat → bufRead u .pkbuf off = bufRead t .pkbuf off) ∧ u.symbuf = [] := by
  have h := eq_next idle (exec .compress (withText aaabb idle)) (by decide +kernel)
  have h1 : (resultOr idle (exec .compress (withText aaabb idle))).intStat.getLsbD 0 = true := by decide +kernel
  have h2 : (resultOr idle (exec .compress (withText aaabb idle))).tableValid = true := by decide +kernel
  have h3 : (resultOr idle (exec .compress (withText aaabb idle))).par = small := by decide +kernel
  generalize resultOr idle (exec .compress (withText aaabb idle)) = t at h h1 h2 h3
  exact ⟨withText aaabb idle, t, { t with symbuf := [] }, aaabb, by decide +kernel, by decide +kernel,
    by unfold Written; decide +kernel, by decide +kernel, h, h1, h3, h2, rfl, rfl, fun _ _ => rfl, rfl⟩

/-- Every command answers a next state from this one. -/
def ready : State := withText aaabb (withBits bits11100 (withPacked [0x03, 0xE0] { treeAB with code := tableAB, tableValid := true }))

def someOfEach : List Instr :=
  [.nop, .clear, .fcClear, .fcAdd1 0, .fcAdd2 0 255, .fcAdd3 0 255 255, .fcScan, .tbBuild, .ctGen, .encode, .pack, .unpack,
   .decode, .compress, .decompress]

theorem witness_CommandsKeepHostSide :
    (someOfEach.all fun i => goesOn (exec i { ready with count := counts [(0x61, 3)] })) = true := by decide +kernel

theorem witness_RegisterCommandsKeepBuffers :
    ([Instr.nop, .fcClear, .fcScan, .tbBuild, .ctGen].all fun i => goesOn (exec i { ready with count := counts [(0x61, 3)] })) = true ∧
    addedSymbols (.fcAdd2 0 255) = some [0, 255] ∧ goesOn (exec (.fcAdd2 0 255) ready) = true := by decide +kernel

theorem witness_CodecCommandsKeepTables :
    ([Instr.encode, .unpack, .pack, .decode, .decompress, .compress].all fun i => goesOn (exec i ready)) = true := by
  decide +kernel

/-- Accesses that go on; the first and the last offset of each row that is read-only or reserved. -/
theorem witness_HostCannotWriteReadOnlyState :
    goesOn (hostRead 0x8000 .word ready) = true ∧ goesOn (hostWrite 0x8000 .word 1 ready) = true ∧
    goesOn (hostWrite 0x1000 .word 1 ready) = true ∧ ready.resetPin = false ∧ ready.busy = false ∧ busyText.resetPin = false ∧
    (∀ n ∈ [0x000, 0x04C, 0x1000, 0x4FFC, 0x8000, 0x9FEC],
      n % 4 = 0 ∧ target ready.par (BitVec.ofNat 26 n) .word ≠ some .reserved) ∧
    (∀ n ∈ [0x050, 0x3FC, 0x800, 0xFFC, 0x5000, 0x7FFC, 0x9FF0, 0xFFFC],
      n % 4 = 0 ∧ target busyText.par (BitVec.ofNat 26 n) .word = some .reserved) := by decide +kernel

theorem witness_CommandIssue : idle.resetPin = false ∧ idle.busy = false ∧ idle.err = false ∧
    (let s := recordError .resource 9#32 idle; s.resetPin = false ∧ s.busy = false ∧ s.err = true) ∧
    0x20000000#32 ≠ 0x10000000#32 := by decide +kernel

/-- Outside the set and inside it; the boundaries of the reserved offsets that meet a window or the registers. -/
theorem witness_BusyAccessRecordsProtocol :
    busyText.resetPin = false ∧ busyText.busy = true ∧
    target busyText.par 0x010 .word = some (.reg .cmd) ∧ busySafeWrite (.reg .cmd) = false ∧ busySafeRead (.reg .cmd) = true ∧
    target busyText.par 0x1000007 .byte = some (.buffer .symbuf 7) ∧ busySafeRead (.buffer .symbuf 7) = false ∧
    (∀ n ∈ [0x01C, 0x04C, 0x400, 0x7FC, 0x1000, 0x4FFC, 0x8000, 0x9FEC],
      (target busyText.par (BitVec.ofNat 26 n) .word).map busySafeRead = some false) ∧
    (∀ n ∈ [0x01C, 0x050, 0x3FC, 0x800, 0xFFC, 0x5000, 0x7FFC, 0x9FF0, 0xFFFC],
      (target busyText.par (BitVec.ofNat 26 n) .word).map busySafeWrite = some true) := by decide +kernel

/-- Misaligned; not a word; unmapped, at both ends; one byte beyond each buffer. -/
theorem witness_BusErrorChangesNothing :
    idle.resetPin = false ∧ (0x3FFFFFE#26).toNat % Width.word.bytes ≠ 0 ∧
    ((0xFFFC#26).toNat < 0x10000 ∧ Width.half ≠ .word) ∧
    (0x10000 ≤ (0x10000#26).toNat ∧ (0xFFFFFF#26).toNat < 0x1000000) ∧
    Buf.symbuf.base + Buf.symbuf.capacity idle.par < (0x1000008#26).toNat + Width.byte.bytes ∧
    Buf.bitbuf.base + Buf.bitbuf.capacity idle.par < (0x2000004#26).toNat + Width.byte.bytes ∧
    (Buf.pkbuf.base ≤ (0x3000004#26).toNat ∧ (0x3000004#26).toNat < Buf.pkbuf.base + 0x1000000 ∧
      Buf.pkbuf.base + Buf.pkbuf.capacity idle.par < (0x3000004#26).toNat + Width.word.bytes) := by
  simp [Buf.base, Buf.capacity, Width.bytes, idle, small, State.resetOf]

theorem witness_ReadsHaveNoSideEffects :
    goesOn (hostRead 0x1000000 .byte ready) = true ∧ ready.busy = false ∧ goesOn (hostRead 0x014 .word busyText) = true ∧
    target busyText.par 0x014 .word = some (.reg .status) ∧ busySafeRead (.reg .status) = true := by decide +kernel

theorem witness_LengthWritesCheckCapacity : idle.resetPin = false ∧ idle.busy = false ∧
    (8#32).toNat ≤ idle.par.symCap ∧ ¬ (9#32).toNat ≤ idle.par.symCap ∧ (32#32).toNat ≤ idle.par.bitCap ∧
    ¬ (33#32).toNat ≤ idle.par.bitCap ∧ (6#32).toNat ≤ idle.par.pkCap ∧ ¬ (7#32).toNat ≤ idle.par.pkCap := by decide +kernel

theorem witness_CountWindowReadsBack : idle.resetPin = false ∧ idle.busy = false ∧
    target idle.par (countOffset 0) .word = some (.count 0) ∧ target idle.par (countOffset 255) .word = some (.count 255) := by
  decide +kernel

/-- The last word, half word and byte of a buffer. -/
theorem witness_BufferWritesReadBack : idle.par.wf = true ∧ idle.resetPin = false ∧ idle.busy = false ∧
    (4 % Width.word.bytes = 0 ∧ 4 + Width.word.bytes ≤ Buf.symbuf.capacity idle.par) ∧
    (4 % Width.half.bytes = 0 ∧ 4 + Width.half.bytes ≤ Buf.pkbuf.capacity idle.par) ∧
    (3 % Width.byte.bytes = 0 ∧ 3 + Width.byte.bytes ≤ Buf.bitbuf.capacity idle.par) := by decide +kernel

/-- A first unwritten byte for each command, with a table for DECOMPRESS: a symbol, a byte of BITBUF, the header, a payload byte. -/
theorem witness_UnwrittenCommandReadStops :
    (let s := { withText aaabb coded with symLen := 6#32 }
     s.tableValid = true ∧ symInput s = aaabb.map some ++ none :: [] ∧ (codesOf s.code aaabb).length ≤ s.par.bitCap) ∧
    (let s := { withBits (bits8 0xA5) coded with bitLen := 9#32 }
     s.bitLen.toNat / 8 + 2 ≤ s.par.pkCap ∧ 1 < (s.bitLen.toNat + 7) / 8 ∧ Memory.read s.bitbuf 1 = none ∧
     ∀ j, j < 1 → Memory.read s.bitbuf j ≠ none) ∧
    (let s := { coded with pkLen := 1#32 }; s.tableValid = true ∧ s.pkLen ≠ 0#32 ∧ Memory.read s.pkbuf 0 = none) ∧
    (let s := { withPacked [8, 1] coded with pkLen := 3#32 }
     s.tableValid = true ∧ Memory.read s.pkbuf 0 = some 8#8 ∧ (8#8).toNat ≤ 8 ∧ (8#8).toNat ≤ 8 * (s.pkLen.toNat - 1) ∧
     8 * (s.pkLen.toNat - 1) - (8#8).toNat ≤ s.par.bitCap ∧ 2 < s.pkLen.toNat ∧ Memory.read s.pkbuf 2 = none ∧
     ∀ j, j < 2 → Memory.read s.pkbuf j ≠ none) := by decide +kernel

/-- DECODE with the beginning of a code before the unwritten byte, and with none. -/
theorem witness_UnwrittenCommandReadStops_decode :
    ∃ (s : State) (syms : List Byte) (part : List Bool) (rest : List (Option Bool)), s.tableValid = true ∧ PrefixFree s.code ∧
    AllCoded s.code syms ∧ bitInput s = (codesOf s.code syms ++ part).map some ++ none :: rest ∧
    syms.length ≤ s.par.symCap ∧ (∀ y, codeAt s.code y ≠ [] → ¬ (codeAt s.code y <+: part)) ∧ part.length = 6 :=
  ⟨{ withBits (bits8 0x20) codedZ with bitLen := 9#32 }, [0x7A, 0x7A], [true, false, false, false, false, false], [], rfl,
    prefixFree_codedZ, by unfold AllCoded; decide +kernel, by decide +kernel, by decide +kernel,
    fun y hy => codedZ_dead y _ hy, rfl⟩

theorem witness_UnwrittenCommandReadStops_decode_boundary :
    ∃ (s : State) (syms : List Byte) (rest : List (Option Bool)), s.tableValid = true ∧ PrefixFree s.code ∧
    AllCoded s.code syms ∧ bitInput s = (codesOf s.code syms ++ []).map some ++ none :: rest ∧
    syms.length ≤ s.par.symCap ∧ (∀ y, codeAt s.code y ≠ [] → ¬ (codeAt s.code y <+: [])) :=
  ⟨{ withBits (bits8 0xAA) coded with bitLen := 9#32 }, [0x61, 0x62, 0x61, 0x62, 0x61, 0x62, 0x61, 0x62], [], rfl,
    prefixFree_tableAB, by unfold AllCoded; decide +kernel, by decide +kernel, by decide +kernel,
    fun y hy h => hy (List.prefix_nil.1 h)⟩

theorem witness_UnwrittenHostReadStops : ready.par.wf = true ∧ ready.resetPin = false ∧ ready.busy = false ∧
    4 % Width.word.bytes = 0 ∧ 4 + Width.word.bytes ≤ Buf.symbuf.capacity ready.par ∧ 1 < Width.word.bytes ∧
    bufRead ready .symbuf (4 + 1) = none ∧ (∀ j, j < 1 → bufRead ready .symbuf (4 + j) ≠ none) := by decide +kernel

theorem witness_InterruptRegisterWrites : busyText.resetPin = false ∧ idle.resetPin = false := by decide +kernel

/-- The first and the last word of an entry, and the last word of its bits. -/
theorem witness_CodeWindowShowsCode : ready.resetPin = false ∧ ready.busy = false ∧ codeLen ready.code 0x61 ≤ 255 ∧
    target ready.par (codeOffset 255 15) .word = some (.code 255 15) ∧
    target ready.par (codeOffset 0x61 8) .word = some (.code 0x61 8) ∧
    target ready.par (codeOffset 0 0) .word = some (.code 0 0) := by decide +kernel

/-- A leaf, an internal node and an empty entry; the last word of the last entry. -/
theorem witness_NodeWindowShowsEntry : ready.resetPin = false ∧ ready.busy = false ∧
    nodeAt ready.node 0 = some (.leaf 0x61 3) ∧ nodeAt ready.node 2 = some (.internal 5 1 0) ∧ nodeAt ready.node 510 = none ∧
    target ready.par (nodeOffset 510 3) .word = some (.node 510 3) := by decide +kernel

/-- Busy and idle, with an error recorded; CMD's word as its first table row reads it and PAD's as its last does. -/
theorem witness_RegisterReadsShowState : busyText.resetPin = false ∧ (recordError .protocol 9#32 ready).resetPin = false ∧
    ready.busy = false ∧ after (hostRead 0x010 .word busyText) (·.bus) = some (some (readAnswer 0x40000000)) ∧
    after (hostRead 0x044 .word ready) (·.bus) = some (some (readAnswer 3)) := by decide +kernel

end Sys2Proof.Tests
end

/-! ## 10_state.md: errors and interrupts, the length registers, the CODE window -/

namespace Sys2Proof.Machine

/-! ### Accesses of the register page -/

/-- R21, R81: an aligned word access at a register's offset reaches that register. -/
theorem target_reg_offset (p : Params) (r : Reg) : target p r.offset .word = some (.reg r) := by
  cases r <;> rfl

/-- R90: a register read that is performed answers the register's value. -/
theorem hostRead_reg (r : Reg) (s : State) (hr : s.resetPin = false)
    (hb : s.busy = false ∨ busySafeRead (.reg r) = true) :
    hostRead r.offset .word s = .next (answer (readAnswer (readReg s r)) s) :=
  hostRead_performed _ _ s _ _ hr (target_reg_offset s.par r) hb rfl

/-- R90: what a register write that is performed leaves. -/
theorem hostWrite_reg (r : Reg) (v : Word) (s : State) (hr : s.resetPin = false)
    (hb : s.busy = false ∨ busySafeWrite (.reg r) = true) :
    hostWrite r.offset .word v s = .next (answer writeAnswer (writeReg v s r)) :=
  hostWrite_performed _ _ v s _ hr (target_reg_offset s.par r) hb

/-! ### IRQ -/

theorem ne_zero_iff_getLsbD_two (v : BitVec 2) : v ≠ 0#2 ↔ v.getLsbD 0 = true ∨ v.getLsbD 1 = true := by
  revert v; decide

/-- Settles O57: a bit of INT_STAT AND INT_EN is set exactly when it is set in both. -/
theorem irqIsPendingAndEnabled : Obligations.IrqIsPendingAndEnabled := by
  intro s
  rw [irq, bne_iff_ne, ne_zero_iff_getLsbD_two]
  simp only [BitVec.getLsbD_and, Bool.and_eq_true]

/-! ### ERRACK -/

/-- Settles O12: ERRACK is busy-safe for writes (R91), and only bit 0 of the word is looked at (R27). -/
theorem errAckClearsError : Obligations.ErrAckClearsError := by
  intro s v hr
  refine ⟨(hostWrite_reg .errAck v s hr (.inr rfl)).trans ?_, fun hb => hostRead_reg .errAck s hr (.inl hb)⟩
  rw [writeReg, apply_ite (answer writeAnswer)]; rfl

/-! ### The length registers -/

/-- R33: the two ways a write of a length register ends, with the answer on the bus. -/
theorem answer_writeLen (r : BusResponse) (cap : Nat) (v : Word) (s t : State) :
    answer r (writeLen cap v s t) = if v.toNat ≤ cap then answer r t else answer r (recordError .resource v s) := by
  rw [writeLen, apply_ite (answer r)]

/-- Settles O51: the three registers differ in their capacity only. -/
theorem lengthWritesCheckCapacity : Obligations.LengthWritesCheckCapacity := by
  intro s v hr hb
  have hw (r : Reg) := hostWrite_reg r v s hr (.inl hb)
  refine ⟨(hw .symLen).trans ?_, (hw .bitLen).trans ?_, (hw .pkLen).trans ?_⟩ <;>
    rw [writeReg, answer_writeLen] <;> rfl

/-! ### The CODE window -/

theorem bitsNat_append_singleton (x : List Bool) (b : Bool) : bitsNat (x ++ [b]) = Nat.bit b (bitsNat x) := by
  rw [bitsNat, List.foldl_append, Nat.bit_val]; rfl

/-- R7: bit `i` of the number a sequence spells is its bit `i` counted from the end. -/
theorem testBit_bitsNat (x : List Bool) (i : Nat) : (bitsNat x).testBit i = x.reverse.getD i false := by
  induction x using List.reverseRecOn generalizing i with
  | nil => simp [bitsNat]
  | append_singleton x b ih =>
    rw [bitsNat_append_singleton, List.reverse_append]
    cases i with
    | zero => simp
    | succ i => simpa [Nat.testBit_bit_succ] using ih i

/-- R44: bit `31 - j` of a word of a code is the code's bit `32 k + j`, and 0 after its end. -/
theorem getLsbD_codeBitsWord (x : List Bool) (k j : Nat) (hj : j < 32) :
    (codeBitsWord x k).getLsbD (31 - j) = x.getD (32 * k + j) false := by
  have hl : ((x.drop (32 * k)).take 32 ++ zeros (32 - (x.drop (32 * k)).length)).length = 32 := by
    rw [List.length_append, List.length_take, length_zeros]; omega
  rw [codeBitsWord, BitVec.getLsbD_ofNat, testBit_bitsNat, List.getD_reverse _ (by omega), hl,
    show 32 - 1 - (31 - j) = j by omega, decide_eq_true (by omega), Bool.true_and]
  simp only [List.getD_eq_getElem?_getD, zeros, List.getElem?_append, List.getElem?_take, List.getElem?_drop,
    List.getElem?_replicate, List.length_take, List.length_drop]
  by_cases hx : 32 * k + j < x.length
  · rw [if_pos (by omega), if_pos hj]
  · rw [if_neg (by omega), if_pos (by omega), List.getElem?_eq_none (by omega)]; rfl

/-- R44, R81: an aligned word access in the CODE window reaches the word of the entry that its offset names. -/
theorem target_codeOffset (p : Params) (x : Byte) (k : Nat) (hk : k < 16) :
    target p (codeOffset x k) .word = some (.code x k) := by
  have hx := x.isLt
  have ho : (codeOffset x k).toNat = 0x1000 + 64 * x.toNat + 4 * k := by
    rw [codeOffset, BitVec.toNat_ofNat]; omega
  rw [target_word_low p _ (by omega) (by omega), ho, lowTarget, if_neg (by omega), if_neg (by omega), if_neg (by omega),
    if_neg (by omega), if_pos (by omega), show (0x1000 + 64 * x.toNat + 4 * k - 0x1000) / 64 = x.toNat by omega,
    show (0x1000 + 64 * x.toNat + 4 * k) / 4 % 16 = k by omega, BitVec.ofNat_toNat, BitVec.setWidth_eq]

theorem codeWord_zero (x : List Bool) (h : x.length ≤ 255) : (codeWord x 0).toNat = x.length := by
  rw [codeWord, if_pos rfl, BitVec.toNat_ofNat]; omega

theorem getLsbD_codeWord (x : List Bool) (k j : Nat) (h1 : 1 ≤ k) (h8 : k ≤ 8) (hj : j < 32) :
    (codeWord x k).getLsbD (31 - j) = x.getD (32 * (k - 1) + j) false := by
  rw [codeWord, if_neg (by omega), if_pos h8, getLsbD_codeBitsWord x (k - 1) j hj]

theorem codeWord_high (x : List Bool) (k : Nat) (h : 9 ≤ k) : codeWord x k = 0#32 := by
  rw [codeWord, if_neg (by omega), if_neg (by omega)]

/-- Settles O58: the access reaches word `k` of the entry of `x`, whose value is `codeWord`. -/
theorem codeWindowShowsCode : Obligations.CodeWindowShowsCode := by
  intro s x k hr hb hl hk
  have ht := target_codeOffset s.par x k hk
  refine ⟨codeWord (codeAt s.code x) k, hostRead_performed _ _ s _ _ hr ht (.inl hb) rfl, ?_,
    fun j h1 h8 hj => getLsbD_codeWord _ k j h1 h8 hj, codeWord_high _ k,
    fun u => hostWrite_performed _ _ u s _ hr ht (.inl hb)⟩
  rintro rfl
  exact codeWord_zero _ hl

end Sys2Proof.Machine

/-! ## 20_memory.md: bus errors -/

namespace Sys2Proof.Machine

/-! ### Accesses that reach nothing -/

/-- R86: a misaligned access reaches nothing. -/
theorem target_misaligned (p : Params) (off : Offset) (w : Width) (h : off.toNat % w.bytes ≠ 0) :
    target p off w = none := by
  rw [target, if_pos h]

/-- R88: an access of the registers and windows that is not a word reaches nothing. -/
theorem target_low_not_word (p : Params) (off : Offset) (w : Width) (hl : off.toNat < 0x10000) (hw : w ≠ .word) :
    target p off w = none :=
  Option.eq_none_iff_forall_ne_some.2 fun g hg => hw (target_low p off w g hl hg).1

theorem blockBuf_below (off : Nat) (h : off < 0x1000000) : blockBuf off = none := by
  rw [blockBuf, if_pos h]

/-- R81: the offsets from 0x10000 to 0xFFFFFF are unmapped. -/
theorem target_unmapped (p : Params) (off : Offset) (w : Width) (hl : 0x10000 ≤ off.toNat) (hh : off.toNat < 0x1000000) :
    target p off w = none := by
  refine Option.eq_none_iff_forall_ne_some.2 fun g hg => ?_
  obtain ⟨b, idx, rfl⟩ := target_high p off w g hl hg
  obtain ⟨-, -, -, hb⟩ := target_eq_buffer p off w b idx hg
  rw [blockBuf_below _ hh] at hb
  cases hb

/-- R81: the 16 MiB from a buffer's first byte are that buffer's, and its byte indices count from there. -/
theorem blockBuf_of_base_le (b : Buf) (off : Nat) (hl : b.base ≤ off) (hh : off < b.base + 0x1000000) :
    0x1000000 ≤ b.base ∧ blockBuf off = some b ∧ b.base + off % 0x1000000 = off := by
  cases b <;> simp only [Buf.base] at hl hh ⊢ <;> refine ⟨by decide, ?_, by omega⟩ <;> rw [blockBuf, if_neg (by omega)]
  case symbuf => rw [if_pos hh]
  case bitbuf => rw [if_neg (by omega), if_pos hh]
  case pkbuf => rw [if_neg (by omega), if_neg (by omega)]

/-- R81: an access in a buffer's 16 MiB that ends beyond its capacity reaches nothing. -/
theorem target_beyond_capacity (p : Params) (off : Offset) (w : Width) (b : Buf) (hl : b.base ≤ off.toNat)
    (hh : off.toNat < b.base + 0x1000000) (hc : b.base + b.capacity p < off.toNat + w.bytes) :
    target p off w = none := by
  refine Option.eq_none_iff_forall_ne_some.2 fun g hg => ?_
  obtain ⟨hbase, hblock, hoff⟩ := blockBuf_of_base_le b off.toNat hl hh
  obtain ⟨b', idx, rfl⟩ := target_high p off w g (by omega) hg
  obtain ⟨hfit, hidx, -, hb'⟩ := target_eq_buffer p off w b' idx hg
  cases hblock.symm.trans hb'
  omega

/-! ### The answer to an access that reaches nothing -/

/-- R92: a read that reaches nothing answers BERR with data 0 and changes nothing else. -/
theorem hostRead_berr (off : Offset) (w : Width) (s : State) (hr : s.resetPin = false)
    (ht : target s.par off w = none) : hostRead off w s = .next (answer berrRead s) := by
  simp only [hostRead, hr, ht, Bool.false_eq_true, if_false]

/-- R92: a write that reaches nothing answers BERR and changes nothing else. -/
theorem hostWrite_berr (off : Offset) (w : Width) (v : Word) (s : State) (hr : s.resetPin = false)
    (ht : target s.par off w = none) : hostWrite off w v s = .next (answer berrWrite s) := by
  simp only [hostWrite, hr, ht, Bool.false_eq_true, if_false]

/-- Settles O49: each of the four kinds of access reaches nothing, whatever the state, so that BUSY is not looked at (R90). -/
theorem busErrorChangesNothing : Obligations.BusErrorChangesNothing := by
  intro s off w v hr h
  have ht : target s.par off w = none := by
    obtain hm | ⟨hl, hw⟩ | ⟨hl, hh⟩ | ⟨b, hl, hh, hc⟩ := h
    · exact target_misaligned _ _ _ hm
    · exact target_low_not_word _ _ _ hl hw
    · exact target_unmapped _ _ _ hl hh
    · exact target_beyond_capacity _ _ _ b hl hh hc
  exact ⟨hostRead_berr off w s hr ht, hostWrite_berr off w v s hr ht⟩

end Sys2Proof.Machine

/-! ## 30_encoding.md: the command words -/

namespace Sys2Proof

/-! ### A word put together from its fields -/

/-- R112: a word with bits 27:0 zero is its opcode's format Z word. -/
theorem encodeZ_opcField (w : Word) (hz : zField w = 0#28) : encodeZ (opcField w) = w := by
  rw [encodeZ, ← hz]; exact BitVec.extractLsb'_append_extractLsb'

theorem hi24_append_s0Field (w : Word) : w.extractLsb' 8 24 ++ s0Field w = w :=
  BitVec.extractLsb'_append_extractLsb'

theorem hi16_append_s1Field (w : Word) : w.extractLsb' 16 16 ++ s1Field w = w.extractLsb' 8 24 :=
  BitVec.extractLsb'_append_extractLsb'_eq_extractLsb' rfl

theorem hi8_append_s2Field (w : Word) : w.extractLsb' 24 8 ++ s2Field w = w.extractLsb' 16 16 :=
  BitVec.extractLsb'_append_extractLsb'_eq_extractLsb' rfl

theorem hi8_append_middle (w : Word) : w.extractLsb' 24 8 ++ w.extractLsb' 8 16 = w.extractLsb' 8 24 :=
  BitVec.extractLsb'_append_extractLsb'_eq_extractLsb' rfl

/-- R113: bits 31:24 of a format A word are its opcode, two zero bits and N. -/
theorem hi8_eq_of_formatA (w : Word) (ho : opcField w = 3#4) (hr : w.extractLsb' 26 2 = 0#2) :
    w.extractLsb' 24 8 = 0x3#4 ++ (0#2 ++ w.extractLsb' 24 2) := by
  have hlo : w.extractLsb' 26 2 ++ w.extractLsb' 24 2 = w.extractLsb' 24 4 :=
    BitVec.extractLsb'_append_extractLsb'_eq_extractLsb' rfl
  have hall : opcField w ++ w.extractLsb' 24 4 = w.extractLsb' 24 8 :=
    BitVec.extractLsb'_append_extractLsb'_eq_extractLsb' rfl
  rw [← ho, ← hr, hlo, hall]

/-! ### The three rows of FC_ADD: the fixed bits of R115 and the bytes below them make the word -/

theorem encode_fcAdd1_of_fixed (w : Word) (h : w.extractLsb' 8 24 = 0x310000#24) : encode (.fcAdd1 (s0Field w)) = w :=
  calc encode (.fcAdd1 (s0Field w))
    _ = 0x310000#24 ++ s0Field w := rfl
    _ = w := by rw [← h, hi24_append_s0Field]

theorem encode_fcAdd2_of_fixed (w : Word) (h : w.extractLsb' 16 16 = 0x3200#16) :
    encode (.fcAdd2 (s0Field w) (s1Field w)) = w :=
  calc encode (.fcAdd2 (s0Field w) (s1Field w))
    _ = 0x3200#16 ++ s1Field w ++ s0Field w := rfl
    _ = w := by rw [← h, hi16_append_s1Field, hi24_append_s0Field]

theorem encode_fcAdd3_of_fixed (w : Word) (h : w.extractLsb' 24 8 = 0x33#8) :
    encode (.fcAdd3 (s0Field w) (s1Field w) (s2Field w)) = w :=
  calc encode (.fcAdd3 (s0Field w) (s1Field w) (s2Field w))
    _ = 0x33#8 ++ s2Field w ++ s1Field w ++ s0Field w := rfl
    _ = w := by rw [← h, hi8_append_s2Field, hi16_append_s1Field, hi24_append_s0Field]

/-! ### Decoding and then encoding -/

theorem encode_of_decodeA {w : Word} {i : Instr} (h : decodeA w = some i) : encode i = w := by
  unfold decodeA at h
  split_ifs at h with h1 h2 h3 <;> cases h
  · exact encode_fcAdd1_of_fixed w h1
  · exact encode_fcAdd2_of_fixed w h2
  · exact encode_fcAdd3_of_fixed w h3

/-- R112: a word that decodes in format Z is the word of its opcode's command `j`. -/
theorem encode_of_decodeZ {w : Word} {i j : Instr} {k : Nat} (hj : encode j = encodeZ (BitVec.ofNat 4 k))
    (ho : (opcField w).toNat = k) (h : decodeZ j w = some i) : encode i = w := by
  unfold decodeZ at h
  split_ifs at h with hz
  cases h
  rw [hj, ← ho, BitVec.ofNat_toNat, BitVec.setWidth_eq, encodeZ_opcField w hz]

/-- R118: encoding a decoded command gives back its word. -/
theorem encode_of_decode {w : Word} {i : Instr} (h : decode w = some i) : encode i = w := by
  unfold decode at h
  split at h
  case h_4 => exact encode_of_decodeA h
  case h_14 => cases h
  all_goals next ho => exact encode_of_decodeZ rfl ho h

/-! ### Encoding and then decoding -/

theorem decode_encodeA (n : BitVec 2) (s2 s1 s0 : Byte) :
    decode (encodeA n s2 s1 s0) = decodeA (encodeA n s2 s1 s0) := by
  rw [decode, opcField_encodeA]; rfl

/-- R115: the fixed bits 31:8 of FC_ADD's first row hold N = 1. -/
theorem nField_of_fcAdd1_fixed (w : Word) (h : w.extractLsb' 8 24 = 0x310000#24) : w.extractLsb' 24 2 = 1#2 := by
  rw [← encode_fcAdd1_of_fixed w h]; exact nField_encodeA ..

/-- R115: the fixed bits 31:16 of FC_ADD's second row hold N = 2. -/
theorem nField_of_fcAdd2_fixed (w : Word) (h : w.extractLsb' 16 16 = 0x3200#16) : w.extractLsb' 24 2 = 2#2 := by
  rw [← encode_fcAdd2_of_fixed w h]; exact nField_encodeA ..

theorem hi24_encode_fcAdd1 (s0 : Byte) : (encode (.fcAdd1 s0)).extractLsb' 8 24 = 0x310000#24 :=
  BitVec.extractLsb'_append_eq_left

theorem hi16_encode_fcAdd2 (s0 s1 : Byte) : (encode (.fcAdd2 s0 s1)).extractLsb' 16 16 = 0x3200#16 := by
  rw [encode, encodeA, BitVec.extractLsb'_append_eq_of_le (by decide)]
  exact BitVec.extractLsb'_append_eq_left

theorem hi8_encode_fcAdd3 (s0 s1 s2 : Byte) : (encode (.fcAdd3 s0 s1 s2)).extractLsb' 24 8 = 0x33#8 := by
  rw [encode, encodeA, BitVec.extractLsb'_append_eq_of_le (by decide), BitVec.extractLsb'_append_eq_of_le (by decide)]
  exact BitVec.extractLsb'_append_eq_left

theorem decode_encode_fcAdd1 (s0 : Byte) : decode (encode (.fcAdd1 s0)) = some (.fcAdd1 s0) := by
  have hfix := hi24_encode_fcAdd1 s0
  rw [encode] at hfix ⊢
  rw [decode_encodeA, decodeA, if_pos hfix, s0Field_encodeA]

theorem decode_encode_fcAdd2 (s0 s1 : Byte) : decode (encode (.fcAdd2 s0 s1)) = some (.fcAdd2 s0 s1) := by
  have hfix := hi16_encode_fcAdd2 s0 s1
  rw [encode] at hfix ⊢
  have h1 : (encodeA 2#2 0#8 s1 s0).extractLsb' 8 24 ≠ 0x310000#24 := fun h =>
    absurd ((nField_encodeA ..).symm.trans (nField_of_fcAdd1_fixed _ h)) (by decide)
  rw [decode_encodeA, decodeA, if_neg h1, if_pos hfix, s0Field_encodeA, s1Field_encodeA]

theorem decode_encode_fcAdd3 (s0 s1 s2 : Byte) : decode (encode (.fcAdd3 s0 s1 s2)) = some (.fcAdd3 s0 s1 s2) := by
  have hfix := hi8_encode_fcAdd3 s0 s1 s2
  rw [encode] at hfix ⊢
  have h1 : (encodeA 3#2 s2 s1 s0).extractLsb' 8 24 ≠ 0x310000#24 := fun h =>
    absurd ((nField_encodeA ..).symm.trans (nField_of_fcAdd1_fixed _ h)) (by decide)
  have h2 : (encodeA 3#2 s2 s1 s0).extractLsb' 16 16 ≠ 0x3200#16 := fun h =>
    absurd ((nField_encodeA ..).symm.trans (nField_of_fcAdd2_fixed _ h)) (by decide)
  rw [decode_encodeA, decodeA, if_neg h1, if_neg h2, if_pos hfix, s0Field_encodeA, s1Field_encodeA, s2Field_encodeA]

/-- R118: a command's word decodes to the command; a format Z word has no operands, so it is one closed word. -/
theorem decode_encode (i : Instr) : decode (encode i) = some i := by
  cases i with
  | fcAdd1 s0 => exact decode_encode_fcAdd1 s0
  | fcAdd2 s0 s1 => exact decode_encode_fcAdd2 s0 s1
  | fcAdd3 s0 s1 s2 => exact decode_encode_fcAdd3 s0 s1 s2
  | _ => rfl

/-- R118: a word decodes to a command exactly when it is that command's word. -/
theorem decode_eq_some_iff (w : Word) (i : Instr) : decode w = some i ↔ encode i = w :=
  ⟨encode_of_decode, fun h => h ▸ decode_encode i⟩

/-! ### The legal words are the commands' words -/

/-- R118: no command's word is illegal, by the lemma of each command. -/
theorem legalWord_encode (i : Instr) : legalWord (encode i) = true := by
  cases i with
  | nop => exact Laws.EncodeLegal.nop
  | clear => exact Laws.EncodeLegal.clear
  | fcClear => exact Laws.EncodeLegal.fcClear
  | fcAdd1 s0 => exact Laws.EncodeLegal.fcAdd1 s0
  | fcAdd2 s0 s1 => exact Laws.EncodeLegal.fcAdd2 s0 s1
  | fcAdd3 s0 s1 s2 => exact Laws.EncodeLegal.fcAdd3 s0 s1 s2
  | fcScan => exact Laws.EncodeLegal.fcScan
  | tbBuild => exact Laws.EncodeLegal.tbBuild
  | ctGen => exact Laws.EncodeLegal.ctGen
  | encode => exact Laws.EncodeLegal.encode
  | pack => exact Laws.EncodeLegal.pack
  | unpack => exact Laws.EncodeLegal.unpack
  | decode => exact Laws.EncodeLegal.decode
  | compress => exact Laws.EncodeLegal.compress
  | decompress => exact Laws.EncodeLegal.decompress

/-- R117: format A's predicate, one case for each N. -/
theorem legalA_cases {w : Word} (h : legalA w = true) : w.extractLsb' 26 2 = 0#2 ∧
    ((w.extractLsb' 24 2 = 1#2 ∧ w.extractLsb' 8 16 = 0#16) ∨ (w.extractLsb' 24 2 = 2#2 ∧ s2Field w = 0#8) ∨
      w.extractLsb' 24 2 = 3#2) := by
  have only_three : ∀ n : BitVec 2, n ≠ 0#2 → n ≠ 1#2 → n ≠ 2#2 → n = 3#2 := by decide
  simp only [legalA, bne_iff_ne, beq_iff_eq, ne_eq] at h
  split_ifs at h with hr h0 h1 h2 <;> refine ⟨hr, ?_⟩
  · exact .inl ⟨h1, by simpa using h⟩
  · exact .inr (.inl ⟨h2, eq_of_beq h⟩)
  · exact .inr (.inr (only_three _ h0 h1 h2))

/-- R113, R117: a legal format A word is a row of FC_ADD. -/
theorem exists_encode_of_legalA (w : Word) (ho : opcField w = 3#4) (h : legalA w = true) : ∃ i, encode i = w := by
  obtain ⟨hr, hn⟩ := legalA_cases h
  have hhi := hi8_eq_of_formatA w ho hr
  obtain ⟨h1, hmid⟩ | ⟨h2, hs2⟩ | h3 := hn
  · exact ⟨_, encode_fcAdd1_of_fixed w (by rw [← hi8_append_middle, hhi, h1, hmid]; rfl)⟩
  · exact ⟨_, encode_fcAdd2_of_fixed w (by rw [← hi8_append_s2Field, hhi, h2, hs2]; rfl)⟩
  · exact ⟨_, encode_fcAdd3_of_fixed w (by rw [hhi, h3]; rfl)⟩

/-- R115: every opcode below 0xD but FC_ADD's is a format Z command's. -/
theorem exists_encode_eq_encodeZ (o : BitVec 4) (h3 : o ≠ 3#4) (hd : o.ult 0xD#4 = true) : ∃ i, encode i = encodeZ o := by
  have hsome : ∀ o : BitVec 4, o ≠ 3#4 → o.ult 0xD#4 = true → (decode (encodeZ o)).isSome = true := by decide
  obtain ⟨i, hi⟩ := Option.isSome_iff_exists.1 (hsome o h3 hd)
  exact ⟨i, encode_of_decode hi⟩

theorem exists_encode_of_legalWord (w : Word) (h : legalWord w = true) : ∃ i, encode i = w := by
  unfold legalWord at h
  split_ifs at h with ho hd
  · exact exists_encode_of_legalA w (eq_of_beq ho) h
  · have hz : zField w = 0#28 := eq_of_beq h
    exact encodeZ_opcField w hz ▸ exists_encode_eq_encodeZ _ (by simpa using ho) hd

/-- R117: the legal words are the words of the commands. -/
theorem legalWord_iff_exists_encode (w : Word) : legalWord w = true ↔ ∃ i, encode i = w :=
  ⟨exists_encode_of_legalWord w, fun ⟨i, hi⟩ => hi ▸ legalWord_encode i⟩

/-- Settles O1: a word decodes to a command exactly when it is the command's word, and the legal words are the commands'. -/
theorem decodeInvertsEncode : Obligations.DecodeInvertsEncode := by
  refine ⟨fun i _ => decode_encode i, fun _ _ => encode_of_decode, fun w => ?_⟩
  simp only [legalWord_iff_exists_encode, decode_eq_some_iff]

end Sys2Proof

/-! ## 40_frequency_counter.md: FC_CLEAR, FC_ADD and FC_CLEAR before FC_SCAN -/

namespace Sys2Proof.Machine

/-! ### FC_CLEAR -/

/-- R140: the state FC_CLEAR ends in. -/
theorem exec_fcClear (s : State) : exec .fcClear s = .next (complete { s with count := noCounts }) := rfl

/-- Settles O17: the counters FC_CLEAR leaves are those of the empty map. -/
theorem fcClearEmptiesMap : Obligations.FcClearEmptiesMap :=
  fun s => ⟨noCounts, exec_fcClear s, countAt_noCounts, numSyms_noCounts, fcTotal_noCounts⟩

/-! ### Counting, as a command -/

/-- R143, R144: a command that counts symbols which fit completes with all of them added. -/
theorem finish_perfCount_of_fit (s : State) (syms : List Byte) (h : CountsFit s.count syms) :
    ∃ cs, (perfCount (syms.map some) s).finish = .next (complete { s with count := cs }) ∧
      CountsAdded s.count cs syms := by
  obtain ⟨cs, hadd, hloop⟩ := countSymbols_fit s.count 0 syms h
  exact ⟨cs, by rw [perfCount, hloop]; rfl, hadd⟩

/-- R142, R144: a command that counts symbols stops at the first one whose counter is at 2^32 - 1, naming its position. -/
theorem finish_perfCount_of_overflow (s : State) (syms : List Byte) (x : Byte) (r : List (Option Byte))
    (h : CountsFit s.count syms) (hx : (countAt s.count x).toNat + syms.count x = 2 ^ 32 - 1) :
    ∃ cs, (perfCount (syms.map some ++ some x :: r) s).finish =
        .next (raiseError .countOverflow (BitVec.ofNat 32 syms.length) [] { s with count := cs }) ∧
      CountsAdded s.count cs syms := by
  obtain ⟨cs, hadd, hloop⟩ := countSymbols_overflow s.count 0 syms x r h hx
  exact ⟨cs, by rw [perfCount, hloop, Nat.zero_add]; rfl, hadd⟩

/-! ### FC_ADD -/

/-- R142: the lanes before lane `k`, lane `k`, and the lanes after it. -/
theorem lanes_eq_take_append (syms : List Byte) (k : Nat) (x : Byte) (h : syms[k]? = some x) :
    lanes syms = (syms.take k).map some ++ some x :: lanes (syms.drop (k + 1)) := by
  obtain ⟨hk, rfl⟩ := List.getElem?_eq_some_iff.1 h
  rw [lanes, lanes, ← List.map_cons, ← List.map_append, ← List.drop_eq_getElem_cons hk, List.take_append_drop]

/-- Settles O18: FC_ADD counts its lanes; lane `k` is the first that does not fit exactly when the lanes before it fit and bring
its counter to 2^32 - 1. -/
theorem fcAddAddsEveryLane : Obligations.FcAddAddsEveryLane := by
  intro s i syms hi
  rw [exec_fcAdd i syms s hi]
  refine ⟨finish_perfCount_of_fit s syms, fun k x hk hfit hmax => ?_⟩
  have hlen : (syms.take k).length = k := List.length_take_of_le (List.getElem?_eq_some_iff.1 hk).1.le
  have hover := finish_perfCount_of_overflow s (syms.take k) x (lanes (syms.drop (k + 1))) hfit hmax
  rwa [← lanes_eq_take_append syms k x hk, hlen] at hover

/-! ### NUM_SYMS and FC_TOTAL over the symbols -/

/-- The 256 symbol values in ascending order, the order in which COUNT lists its counters (R40). -/
def allSymbols : List Byte := (List.finRange 256).map BitVec.ofFin

theorem mem_allSymbols (x : Byte) : x ∈ allSymbols := List.mem_map.2 ⟨x.toFin, List.mem_finRange _, rfl⟩

theorem nodup_allSymbols : allSymbols.Nodup :=
  (List.nodup_finRange 256).map fun _ _ h => congrArg BitVec.toFin h

/-- R40: COUNT lists the counter of each symbol. -/
theorem toList_eq_map_countAt (cs : Counts) : cs.toList = allSymbols.map (countAt cs) := by
  refine List.ext_getElem (by simp [allSymbols]) fun i _ _ => ?_
  simp [allSymbols, countAt]

/-- R34: NUM_SYMS is the number of symbols with a counter above 0. -/
theorem numSyms_eq_card (cs : Counts) : numSyms cs = {x ∈ allSymbols.toFinset | countAt cs x ≠ 0#32}.card := by
  rw [nodup_allSymbols.card_eq_countP, numSyms, toList_eq_map_countAt, List.countP_map]
  exact List.countP_congr fun x _ => by simp

/-- R35: FC_TOTAL is the sum of the counters over the symbols. -/
theorem fcTotal_eq_sum (cs : Counts) : fcTotal cs = ∑ x ∈ allSymbols.toFinset, (countAt cs x).toNat := by
  rw [List.sum_toFinset _ nodup_allSymbols, fcTotal, toList_eq_map_countAt, List.map_map]
  rfl

/-! ### A map that counts a symbol sequence -/

/-- R146: NUM_SYMS of a map that counts a sequence is the number of distinct symbols in it. -/
theorem numSyms_of_counted {cs : Counts} {syms : List Byte} (h : Counted cs syms) : numSyms cs = syms.toFinset.card := by
  have hne : ∀ x, countAt cs x ≠ 0#32 ↔ x ∈ syms := fun x => by
    rw [← List.count_pos_iff, ← h x, Nat.pos_iff_ne_zero, Ne, ← BitVec.toNat_inj, BitVec.toNat_zero]
  rw [numSyms_eq_card]
  refine congrArg Finset.card (Finset.ext fun x => ?_)
  simp only [Finset.mem_filter, List.mem_toFinset, mem_allSymbols, hne, true_and]

/-- R146: FC_TOTAL of a map that counts a sequence is the sequence's length. -/
theorem fcTotal_of_counted {cs : Counts} {syms : List Byte} (h : Counted cs syms) : fcTotal cs = syms.length :=
  calc fcTotal cs
    _ = ∑ x ∈ allSymbols.toFinset, (countAt cs x).toNat := fcTotal_eq_sum cs
    _ = ∑ x ∈ allSymbols.toFinset, Multiset.count x (syms : Multiset Byte) :=
      Finset.sum_congr rfl fun x _ => (h x).trans (Multiset.coe_count x syms).symm
    _ = syms.length := Multiset.sum_count_eq_card fun x _ => List.mem_toFinset.2 (mem_allSymbols x)

/-! ### FC_CLEAR, then FC_SCAN -/

/-- R144: FC_SCAN counts the symbols of SYMBUF. -/
theorem exec_fcScan (s : State) : exec .fcScan s = (perfCount (symInput s) s).finish := rfl

/-- R144: FC_SCAN of written symbols that fit completes with all of them added. -/
theorem exec_fcScan_of_fit (s : State) (syms : List Byte) (hw : Written (symInput s) syms) (h : CountsFit s.count syms) :
    ∃ cs, exec .fcScan s = .next (complete { s with count := cs }) ∧ CountsAdded s.count cs syms := by
  rw [exec_fcScan, hw]
  exact finish_perfCount_of_fit s syms h

/-- R30: there are SYM_LEN input symbols. -/
theorem length_of_written_symInput {s : State} {syms : List Byte} (h : Written (symInput s) syms) :
    syms.length = s.symLen.toNat :=
  ((Memory.readBytes_eq_map_some _ _ _ _).1 h).1

/-- R141: fewer than 2^32 symbols fit on the empty map. -/
theorem countsFit_noCounts {syms : List Byte} (h : syms.length < 2 ^ 32) : CountsFit noCounts syms := fun x => by
  rw [countAt_noCounts, BitVec.toNat_zero, Nat.zero_add]
  exact List.count_le_length.trans_lt h

/-- Symbols added to the empty map are counted. -/
theorem counted_of_added_to_noCounts {cs : Counts} {syms : List Byte} (h : CountsAdded noCounts cs syms) :
    Counted cs syms := fun x => by
  rw [h x, countAt_noCounts, BitVec.toNat_zero, Nat.zero_add]

/-- Settles O20: FC_SCAN adds the text to the empty map that FC_CLEAR leaves, where it fits because SYM_LEN is below 2^32. -/
theorem clearThenScanCountsInput : Obligations.ClearThenScanCountsInput := by
  intro s syms hw
  have hlen : syms.length < 2 ^ 32 := length_of_written_symInput hw ▸ s.symLen.isLt
  obtain ⟨cs, hscan, hadd⟩ :=
    exec_fcScan_of_fit (complete { s with count := noCounts }) syms hw (countsFit_noCounts hlen)
  have hcounted := counted_of_added_to_noCounts hadd
  exact ⟨_, _, exec_fcClear s, hscan, hcounted, numSyms_of_counted hcounted, fcTotal_of_counted hcounted⟩

end Sys2Proof.Machine

/-! ## 41_tree_builder.md: TB_BUILD, the arena it leaves, the tree in it and the order of the merges -/

namespace Sys2Proof.Machine

/-! ### TB_BUILD -/

/-- R161: what TB_BUILD does, and then the end of the engine's step. -/
theorem exec_tbBuild (s : State) : exec .tbBuild s = (perfTbBuild s).finish := rfl

/-- Settles O22: TB_BUILD raises EMPTY_HISTOGRAM in the state its clearing leaves, or installs the tree there and completes. -/
theorem tbBuildInstallsTree : Obligations.TbBuildInstallsTree := by
  refine ⟨rfl, fun s => ?_⟩
  rw [exec_tbBuild]
  rcases perfTbBuild_cases s with ⟨hperf, h0⟩ | ⟨hperf, h0⟩ <;> rw [hperf]
  · exact ⟨fun h => absurd h0 h, fun _ => ⟨clearTables s, rfl, rfl⟩⟩
  · exact ⟨fun _ => rfl, fun h => absurd h h0⟩

/-! ### The leaves -/

/-- R162: the leaf of a symbol, with its counter as FREQ. -/
def leafOf (cs : Counts) (x : Byte) : Node := .leaf x ((countAt cs x).setWidth 40)

/-- R34: the keys of the map, in ascending order. -/
def leafSymbols (cs : Counts) : List Byte := allSymbols.filter fun x => countAt cs x ≠ 0#32

theorem mem_leafSymbols (cs : Counts) (x : Byte) : x ∈ leafSymbols cs ↔ countAt cs x ≠ 0#32 := by
  simp [leafSymbols, mem_allSymbols]

theorem pairwise_lt_leafSymbols (cs : Counts) : (leafSymbols cs).Pairwise fun x y => x.toNat < y.toNat :=
  List.Pairwise.filter _ (List.pairwise_map.2 (List.pairwise_lt_finRange 256))

theorem allSymbols_eq_map_range' : allSymbols = (List.range' 0 256).map (BitVec.ofNat 8) :=
  List.ext_getElem (by simp [allSymbols]) fun i h _ => BitVec.eq_of_toNat_eq (by
    have : i < 256 := by simpa [allSymbols] using h
    simp [allSymbols, Nat.mod_eq_of_lt this])

theorem leavesFrom_map_range' (cs : Counts) (n k : Nat) :
    leavesFrom n (((List.range' n k).map (BitVec.ofNat 8)).map (countAt cs)) =
      (((List.range' n k).map (BitVec.ofNat 8)).filter fun x => countAt cs x ≠ 0#32).map (leafOf cs) := by
  induction k generalizing n with
  | zero => rfl
  | succ k ih =>
    simp only [List.range'_succ, List.map_cons, leavesFrom, ih]
    split_ifs with h
    · rw [List.filter_cons_of_neg (by simpa using h)]
    · rw [List.filter_cons_of_pos (by simpa using h), List.map_cons, leafOf]

/-- R162: the leaves are those of the map's keys, in ascending order. -/
theorem leavesFrom_toList (cs : Counts) : leavesFrom 0 cs.toList = (leafSymbols cs).map (leafOf cs) := by
  rw [toList_eq_map_countAt, leafSymbols, allSymbols_eq_map_range', leavesFrom_map_range']

theorem length_leafSymbols (cs : Counts) : (leafSymbols cs).length = numSyms cs :=
  calc (leafSymbols cs).length
    _ = (leavesFrom 0 cs.toList).length := by rw [leavesFrom_toList, List.length_map]
    _ = numSyms cs := length_leavesFrom 0 cs.toList

theorem sum_freq_leavesFrom (n : Nat) (l : List (BitVec 32)) :
    ((leavesFrom n l).map fun m => m.freq.toNat).sum = (l.map BitVec.toNat).sum := by
  induction l generalizing n with
  | nil => rfl
  | cons c l ih =>
    rw [leavesFrom]
    split_ifs with h
    · simp [ih, h]
    · rw [List.map_cons, List.sum_cons, ih, List.map_cons, List.sum_cons, Node.freq,
        BitVec.toNat_setWidth_of_le (by decide)]

@[simp] theorem children_leafOf (cs : Counts) (x : Byte) : (leafOf cs x).children = [] := rfl

/-! ### The sizes: 511 nodes, 40 bits of FREQ (R160, R41) -/

theorem numSyms_le (cs : Counts) : numSyms cs ≤ 256 := by
  simpa [numSyms] using List.countP_le_length (p := fun v => v != 0#32) (l := cs.toList)

theorem fcTotal_lt (cs : Counts) : fcTotal cs < 2 ^ 40 := by
  have h := List.sum_le_card_nsmul (cs.toList.map BitVec.toNat) (2 ^ 32 - 1) fun v hv => by
    obtain ⟨c, _, rfl⟩ := List.mem_map.1 hv
    exact Nat.le_pred_of_lt c.isLt
  rw [fcTotal]
  simp at h
  omega

theorem toNat_ofNat_idx {i : Nat} (h : i < 512) : (BitVec.ofNat 9 i : NodeIdx).toNat = i := Nat.mod_eq_of_lt h

/-! ### Waiting nodes and keys, as the arena grows -/

theorem waiting_append {nodes new : List Node} {k i : Nat} (hk : k ≤ nodes.length) :
    Waiting (nodes ++ new) k i ↔ Waiting nodes k i :=
  and_congr_right fun _ => forall₃_congr fun j n hj => by rw [List.getElem?_append_left (hj.trans_le hk)]

/-- R162: making node `k` takes its children out of the set. -/
theorem waiting_succ {nodes : List Node} {k i : Nat} {n : Node} (hn : nodes[k]? = some n) (hi : i < k) :
    Waiting nodes (k + 1) i ↔ Waiting nodes k i ∧ BitVec.ofNat 9 i ∉ n.children := by
  constructor
  · rintro ⟨-, h⟩
    exact ⟨⟨hi, fun j m hj => h j m (hj.trans k.lt_succ_self)⟩, h k n k.lt_succ_self hn⟩
  · rintro ⟨⟨-, h⟩, hk⟩
    refine ⟨hi.trans k.lt_succ_self, fun j m hj hm => ?_⟩
    obtain hj | rfl := Nat.lt_succ_iff_lt_or_eq.1 hj
    · exact h j m hj hm
    · cases hn.symm.trans hm
      exact hk

theorem getElem?_append_of_some {α : Type} {l : List α} {i : Nat} {a : α} (new : List α) (h : l[i]? = some a) :
    (l ++ new)[i]? = some a := by
  rw [List.getElem?_append_left (List.getElem?_eq_some_iff.1 h).1, h]

theorem KeyBefore.append {nodes : List Node} {i j : Nat} (new : List Node) (h : KeyBefore nodes i j) :
    KeyBefore (nodes ++ new) i j := by
  obtain ⟨m, n, hm, hn, hkey⟩ := h
  exact ⟨m, n, getElem?_append_of_some new hm, getElem?_append_of_some new hn, hkey⟩

/-! ### One merge -/

/-- R162, R163: node `k` merges the two waiting nodes of smallest key, the smaller as LEFT, and its FREQ is their sum. -/
structure MergeOf (nodes : List Node) (k : Nat) (f : Freq) (l r : NodeIdx) : Prop where
  waitingLeft : Waiting nodes k l.toNat
  waitingRight : Waiting nodes k r.toNat
  ne : l ≠ r
  leftFirst : ∀ i, Waiting nodes k i → i = l.toNat ∨ KeyBefore nodes l.toNat i
  rightNext : ∀ i, Waiting nodes k i → i = l.toNat ∨ i = r.toNat ∨ KeyBefore nodes r.toNat i
  sum : ∃ a b, nodes[l.toNat]? = some a ∧ nodes[r.toNat]? = some b ∧ f.toNat = a.freq.toNat + b.freq.toNat

/-- R162: the node that merges two members of the set. -/
def mergeNode (a b : QEntry) : Node := .internal (a.freq + b.freq) (BitVec.ofNat 9 a.idx) (BitVec.ofNat 9 b.idx)

theorem not_mem_children_mergeNode {a b : QEntry} {i : Nat} (hi : i < 512) (ha : a.idx < 512) (hb : b.idx < 512) :
    BitVec.ofNat 9 i ∉ (mergeNode a b).children ↔ i ≠ a.idx ∧ i ≠ b.idx := by
  simp only [mergeNode, Node.children, List.mem_pair, ← BitVec.toNat_inj, toNat_ofNat_idx, hi, ha, hb, not_or]

/-- A merge stays one as later nodes are made. -/
theorem MergeOf.append {nodes : List Node} {k : Nat} {f : Freq} {l r : NodeIdx} (new : List Node)
    (hk : k ≤ nodes.length) (h : MergeOf nodes k f l r) : MergeOf (nodes ++ new) k f l r := by
  obtain ⟨a, b, ha, hb, hsum⟩ := h.sum
  constructor
  case waitingLeft => exact (waiting_append hk).2 h.waitingLeft
  case waitingRight => exact (waiting_append hk).2 h.waitingRight
  case ne => exact h.ne
  case leftFirst => exact fun i hi => (h.leftFirst i ((waiting_append hk).1 hi)).imp_right (·.append new)
  case rightNext =>
    exact fun i hi => (h.rightNext i ((waiting_append hk).1 hi)).imp_right (Or.imp_right (·.append new))
  case sum => exact ⟨a, b, getElem?_append_of_some new ha, getElem?_append_of_some new hb, hsum⟩

/-! ### The arena while it is built -/

/-- R160, R162: the arena so far, the leaves first and then a merge at each index. -/
structure MergedArena (cs : Counts) (nodes : List Node) : Prop where
  leaves : (leafSymbols cs).map (leafOf cs) <+: nodes
  merged : ∀ k, numSyms cs ≤ k → k < nodes.length →
    ∃ f l r, nodes[k]? = some (.internal f l r) ∧ MergeOf nodes k f l r

namespace MergedArena

variable {cs : Counts} {nodes : List Node}

theorem getElem?_leaf (h : MergedArena cs nodes) {i : Nat} {x : Byte} (hx : (leafSymbols cs)[i]? = some x) :
    nodes[i]? = some (leafOf cs x) := by
  obtain ⟨new, rfl⟩ := h.leaves
  exact getElem?_append_of_some new (by rw [List.getElem?_map, hx]; rfl)

/-- R160: a node is the leaf of the key at its index, or a merge at an index from n on. -/
theorem node_cases (h : MergedArena cs nodes) {k : Nat} {n : Node} (hn : nodes[k]? = some n) :
    (∃ x, (leafSymbols cs)[k]? = some x ∧ n = leafOf cs x) ∨
    (∃ f l r, n = .internal f l r ∧ MergeOf nodes k f l r) := by
  rcases Nat.lt_or_ge k (numSyms cs) with hk | hk
  · have hx := List.getElem?_eq_getElem ((length_leafSymbols cs).symm ▸ hk)
    exact .inl ⟨_, hx, Option.some.inj (hn.symm.trans (h.getElem?_leaf hx))⟩
  · obtain ⟨f, l, r, hk', hm⟩ := h.merged k hk (List.getElem?_eq_some_iff.1 hn).1
    exact .inr ⟨f, l, r, Option.some.inj (hn.symm.trans hk'), hm⟩

theorem leaf_symbol (h : MergedArena cs nodes) {i : Nat} {x : Byte} {f : Freq} (hi : nodes[i]? = some (.leaf x f)) :
    (leafSymbols cs)[i]? = some x ∧ f = (countAt cs x).setWidth 40 := by
  obtain ⟨y, hy, heq⟩ | ⟨g, l, r, heq, -⟩ := h.node_cases hi
  · cases heq
    exact ⟨hy, rfl⟩
  · cases heq

theorem mergeOf (h : MergedArena cs nodes) {k : Nat} {f : Freq} {l r : NodeIdx}
    (hk : nodes[k]? = some (.internal f l r)) : MergeOf nodes k f l r := by
  obtain ⟨y, -, heq⟩ | ⟨g, l', r', heq, hm⟩ := h.node_cases hk
  · cases heq
  · cases heq
    exact hm

/-- R162: when a node is made its children are waiting. -/
theorem waiting_of_mem_children (h : MergedArena cs nodes) {k : Nat} {n : Node} {c : NodeIdx} (hn : nodes[k]? = some n)
    (hc : c ∈ n.children) : Waiting nodes k c.toNat := by
  obtain ⟨x, -, rfl⟩ | ⟨f, l, r, rfl, hm⟩ := h.node_cases hn
  · cases hc
  · rcases List.mem_pair.1 hc with rfl | rfl
    · exact hm.waitingLeft
    · exact hm.waitingRight

/-- R164: the last node made waits, as all children lie below their parent. -/
theorem waiting_last (h : MergedArena cs nodes) {i : Nat} (hi : i < 512) : Waiting nodes (i + 1) i := by
  refine ⟨i.lt_succ_self, fun j n hj hn hc => ?_⟩
  have hlt := (h.waiting_of_mem_children hn hc).1
  rw [toNat_ofNat_idx hi] at hlt
  omega

/-- R160: in ascending symbol order. -/
theorem leaves_ascending (h : MergedArena cs nodes) {i j : Nat} {x y : Byte} {f g : Freq} (hij : i < j)
    (hi : nodes[i]? = some (.leaf x f)) (hj : nodes[j]? = some (.leaf y g)) : x.toNat < y.toNat := by
  obtain ⟨hi', rfl⟩ := List.getElem?_eq_some_iff.1 (h.leaf_symbol hi).1
  obtain ⟨hj', rfl⟩ := List.getElem?_eq_some_iff.1 (h.leaf_symbol hj).1
  exact List.pairwise_iff_getElem.1 (pairwise_lt_leafSymbols cs) i j hi' hj' hij

/-- R164: no symbol has two leaves. -/
theorem leaf_unique (h : MergedArena cs nodes) {i j : Nat} {x : Byte} {f g : Freq}
    (hi : nodes[i]? = some (.leaf x f)) (hj : nodes[j]? = some (.leaf x g)) : j = i := by
  rcases Nat.lt_trichotomy i j with hij | hij | hij
  · exact absurd (h.leaves_ascending hij hi hj) (lt_irrefl _)
  · exact hij.symm
  · exact absurd (h.leaves_ascending hij hj hi) (lt_irrefl _)

theorem not_lt_of_mem_children (h : MergedArena cs nodes) {j k : Nat} {m n : Node} {c : NodeIdx}
    (hm : nodes[j]? = some m) (hn : nodes[k]? = some n) (hcm : c ∈ m.children) (hcn : c ∈ n.children) : ¬ j < k := by
  intro hjk
  have hnot := (h.waiting_of_mem_children hn hcn).2 j m hjk hm
  rw [BitVec.ofNat_toNat, BitVec.setWidth_eq] at hnot
  exact hnot hcm

/-- R164: no node has two parents, as the children of the later one were still waiting. -/
theorem parent_unique (h : MergedArena cs nodes) {j k : Nat} {m n : Node} {c : NodeIdx} (hm : nodes[j]? = some m)
    (hn : nodes[k]? = some n) (hcm : c ∈ m.children) (hcn : c ∈ n.children) : j = k :=
  le_antisymm (Nat.le_of_not_lt (h.not_lt_of_mem_children hn hm hcn hcm))
    (Nat.le_of_not_lt (h.not_lt_of_mem_children hm hn hcm hcn))

theorem append (h : MergedArena cs nodes) {f : Freq} {l r : NodeIdx} (hm : MergeOf nodes nodes.length f l r) :
    MergedArena cs (nodes ++ [.internal f l r]) := by
  refine ⟨h.leaves.trans (List.prefix_append _ _), fun k hn hk => ?_⟩
  obtain hk | rfl : k < nodes.length ∨ k = nodes.length := by simp at hk; omega
  · obtain ⟨f', l', r', hk', hm'⟩ := h.merged k hn hk
    exact ⟨f', l', r', getElem?_append_of_some _ hk', hm'.append _ hk.le⟩
  · exact ⟨f, l, r, by simp, hm.append _ le_rfl⟩

end MergedArena

/-! ### The priority set while the arena is built -/

/-- R162: the set Q lists the waiting nodes, each once, with their FREQ. -/
structure QueueOf (nodes : List Node) (Q : List QEntry) : Prop where
  nodup : (Q.map QEntry.idx).Nodup
  mem : ∀ e, e ∈ Q ↔ Waiting nodes nodes.length e.idx ∧ ∃ n, nodes[e.idx]? = some n ∧ n.freq = e.freq

namespace QueueOf

variable {nodes : List Node} {Q : List QEntry}

theorem perm {Q' : List QEntry} (hp : Q.Perm Q') (h : QueueOf nodes Q) : QueueOf nodes Q' :=
  ⟨(hp.map _).nodup_iff.1 h.nodup, fun e => hp.mem_iff.symm.trans (h.mem e)⟩

theorem waiting (h : QueueOf nodes Q) {e : QEntry} (he : e ∈ Q) : Waiting nodes nodes.length e.idx := ((h.mem e).1 he).1

theorem exists_mem (h : QueueOf nodes Q) {i : Nat} (hi : Waiting nodes nodes.length i) : ∃ e ∈ Q, e.idx = i :=
  ⟨⟨(nodes[i]'hi.1).freq, i⟩, (h.mem _).2 ⟨hi, _, List.getElem?_eq_getElem hi.1, rfl⟩, rfl⟩

theorem keyBefore (h : QueueOf nodes Q) {d e : QEntry} (hd : d ∈ Q) (he : e ∈ Q) (hne : d.idx ≠ e.idx)
    (hk : keyLt e d = false) : KeyBefore nodes d.idx e.idx := by
  obtain ⟨-, m, hm, hmf⟩ := (h.mem d).1 hd
  obtain ⟨-, n, hn, hnf⟩ := (h.mem e).1 he
  refine ⟨m, n, hm, hn, ?_⟩
  rw [hmf, hnf]
  exact ((keyLt_eq_false e d).1 hk).imp_right fun ⟨hf, hi⟩ => ⟨BitVec.eq_of_toNat_eq hf, lt_of_le_of_ne hi hne⟩

variable {a b : QEntry} {rest : List QEntry}

/-- R162, R163: merging the two members of smallest key. -/
theorem mergeOf (h : QueueOf nodes (a :: b :: rest)) (hlen : nodes.length ≤ 511)
    (ha : ∀ e ∈ b :: rest, keyLt e a = false) (hb : ∀ e ∈ rest, keyLt e b = false)
    (hsum : a.freq.toNat + b.freq.toNat < 2 ^ 40) :
    MergeOf nodes nodes.length (a.freq + b.freq) (BitVec.ofNat 9 a.idx) (BitVec.ofNat 9 b.idx) := by
  have hma : a ∈ a :: b :: rest := by simp
  have hmb : b ∈ a :: b :: rest := by simp
  have hne : a.idx ≠ b.idx := fun heq => (List.nodup_cons.1 h.nodup).1 (by simp [heq])
  have hia := toNat_ofNat_idx (i := a.idx) (by have := (h.waiting hma).1; omega)
  have hib := toNat_ofNat_idx (i := b.idx) (by have := (h.waiting hmb).1; omega)
  constructor
  case waitingLeft => exact hia.symm ▸ h.waiting hma
  case waitingRight => exact hib.symm ▸ h.waiting hmb
  case ne => exact fun heq => hne (hia ▸ hib ▸ congrArg BitVec.toNat heq)
  case leftFirst =>
    intro i hi
    obtain ⟨e, he, rfl⟩ := h.exists_mem hi
    rw [hia]
    refine or_iff_not_imp_left.2 fun hea => h.keyBefore hma he (Ne.symm hea) (ha e ?_)
    exact List.mem_of_ne_of_mem (fun heq => hea (congrArg _ heq)) he
  case rightNext =>
    intro i hi
    obtain ⟨e, he, rfl⟩ := h.exists_mem hi
    rw [hia, hib]
    refine or_iff_not_imp_left.2 fun hea => or_iff_not_imp_left.2 fun heb =>
      h.keyBefore hmb he (Ne.symm heb) (hb e ?_)
    exact List.mem_of_ne_of_mem (fun heq => heb (congrArg _ heq))
      (List.mem_of_ne_of_mem (fun heq => hea (congrArg _ heq)) he)
  case sum =>
    obtain ⟨-, m, hm, hmf⟩ := (h.mem a).1 hma
    obtain ⟨-, n, hn, hnf⟩ := (h.mem b).1 hmb
    exact ⟨m, n, hia.symm ▸ hm, hib.symm ▸ hn, by rw [hmf, hnf, BitVec.toNat_add, Nat.mod_eq_of_lt hsum]⟩

/-- R162: while the set is without its two first members, which the new node has as children. -/
theorem mem_rest_iff (h : QueueOf nodes (a :: b :: rest)) (hlen : nodes.length ≤ 511) (e : QEntry)
    (he : e.idx < nodes.length) :
    e ∈ rest ↔ e ∈ a :: b :: rest ∧ BitVec.ofNat 9 e.idx ∉ (mergeNode a b).children := by
  have hlt : ∀ d ∈ a :: b :: rest, d.idx < 512 := fun d hd => by have := (h.waiting hd).1; omega
  rw [not_mem_children_mergeNode (by omega) (hlt a (by simp)) (hlt b (by simp))]
  have hnd := h.nodup
  simp only [List.map_cons, List.nodup_cons, List.mem_cons, List.mem_map, not_or, not_exists, not_and] at hnd ⊢
  obtain ⟨⟨-, ha⟩, hb, -⟩ := hnd
  constructor
  · exact fun hr => ⟨.inr (.inr hr), ha e hr, hb e hr⟩
  · rintro ⟨rfl | rfl | hr, hne⟩
    · exact absurd rfl hne.1
    · exact absurd rfl hne.2
    · exact hr

/-- R162: after a merge the set lists the waiting nodes again, the new one in place of its children. -/
theorem merge {cs : Counts} (h : QueueOf nodes (a :: b :: rest)) (hlen : nodes.length ≤ 511)
    (harena : MergedArena cs (nodes ++ [mergeNode a b])) :
    QueueOf (nodes ++ [mergeNode a b]) (⟨a.freq + b.freq, nodes.length⟩ :: rest) := by
  have hrest : ∀ e ∈ rest, e.idx < nodes.length := fun e he => (h.waiting (by simp [he])).1
  have hnew : (nodes ++ [mergeNode a b])[nodes.length]? = some (mergeNode a b) := by simp
  constructor
  case nodup =>
    have hnd : (rest.map QEntry.idx).Nodup := (List.nodup_cons.1 (List.nodup_cons.1 h.nodup).2).2
    refine List.nodup_cons.2 ⟨fun hm => ?_, hnd⟩
    obtain ⟨e, he, heq⟩ := List.mem_map.1 hm
    exact absurd heq (hrest e he).ne
  case mem =>
    intro e
    rw [List.length_append, List.length_singleton]
    rcases Nat.lt_or_ge e.idx nodes.length with hlt | hge
    · have hne : e ≠ ⟨a.freq + b.freq, nodes.length⟩ := fun heq => hlt.ne (congrArg QEntry.idx heq)
      rw [List.mem_cons, or_iff_right hne, h.mem_rest_iff hlen e hlt, h.mem e, waiting_succ hnew hlt,
        waiting_append le_rfl, List.getElem?_append_left hlt, and_right_comm]
    · rw [List.mem_cons, or_iff_left fun he => hge.not_gt (hrest e he)]
      constructor
      · rintro rfl
        exact ⟨harena.waiting_last (by omega), _, hnew, rfl⟩
      · rintro ⟨hw, n, hn, hf⟩
        have hi : e.idx = nodes.length := by have := hw.1; omega
        rw [hi] at hn
        cases hnew.symm.trans hn
        obtain ⟨f, i⟩ := e
        cases hi
        cases hf
        rfl

end QueueOf

/-! ### The merge loop -/

/-- R162: what the merge loop keeps. -/
structure MergeInv (cs : Counts) (Q : List QEntry) (nodes : List Node) : Prop where
  arena : MergedArena cs nodes
  queue : QueueOf nodes Q
  size : nodes.length + Q.length = 2 * numSyms cs
  total : (Q.map fun e => e.freq.toNat).sum = fcTotal cs

theorem MergeInv.perm {cs : Counts} {Q Q' : List QEntry} {nodes : List Node} (hp : Q.Perm Q') (h : MergeInv cs Q nodes) :
    MergeInv cs Q' nodes :=
  ⟨h.arena, h.queue.perm hp, hp.length_eq ▸ h.size, (hp.map fun e => e.freq.toNat).sum_eq ▸ h.total⟩

theorem MergeInv.merge {cs : Counts} {a b : QEntry} {rest : List QEntry} {nodes : List Node}
    (h : MergeInv cs (a :: b :: rest) nodes) (ha : ∀ e ∈ b :: rest, keyLt e a = false)
    (hb : ∀ e ∈ rest, keyLt e b = false) :
    MergeInv cs (⟨a.freq + b.freq, nodes.length⟩ :: rest) (nodes ++ [mergeNode a b]) := by
  obtain ⟨harena, hqueue, hsize, htotal⟩ := h
  simp only [List.length_cons, List.map_cons, List.sum_cons] at hsize htotal
  have hlen : nodes.length ≤ 511 := by have := numSyms_le cs; omega
  have hsum : a.freq.toNat + b.freq.toNat < 2 ^ 40 := by have := fcTotal_lt cs; omega
  have harena' := harena.append (hqueue.mergeOf hlen ha hb hsum)
  constructor
  case arena => exact harena'
  case queue => exact hqueue.merge hlen harena'
  case size => simp; omega
  case total =>
    rw [List.map_cons, List.sum_cons, BitVec.toNat_add, Nat.mod_eq_of_lt hsum]
    omega

/-- R162: the loop goes on to the set of one member, the root. -/
theorem mergeLoop_inv {cs : Counts} (fuel : Nat) (q : QEntry) (qs : List QEntry) (nodes : List Node)
    (hfuel : qs.length ≤ fuel) (h : MergeInv cs (q :: qs) nodes) :
    ∃ q', (mergeLoop fuel q qs nodes).2 = q'.idx ∧ MergeInv cs [q'] (mergeLoop fuel q qs nodes).1 := by
  induction fuel generalizing q qs nodes with
  | zero =>
    obtain rfl := List.length_eq_zero_iff.1 (Nat.le_zero.1 hfuel)
    exact ⟨q, rfl, h⟩
  | succ fuel ih =>
    have hp := extractMin_perm q qs
    have hmin := (extractMin_min q qs).2
    have hl := length_extractMin q qs
    rw [mergeLoop]
    split
    · next a hm =>
      rw [hm] at hp
      exact ⟨a, rfl, h.perm hp.symm⟩
    · next a x xs hm =>
      rw [hm] at hp hmin hl
      have hp2 := extractMin_perm x xs
      refine ih _ _ _ ?_ (MergeInv.merge (h.perm (hp.symm.trans (hp2.symm.cons a))) ?_ (extractMin_min x xs).2)
      · simp only [length_extractMin, List.length_cons] at hl ⊢
        omega
      · exact fun e he => hmin e (hp2.mem_iff.1 he)

/-! ### The start of the loop -/

theorem map_idx_queueFrom (i : Nat) (l : List Node) : (queueFrom i l).map QEntry.idx = List.range' i l.length := by
  induction l generalizing i with
  | nil => rfl
  | cons n l ih => simp [queueFrom, ih, List.range'_succ]

theorem map_freq_queueFrom (i : Nat) (l : List Node) : (queueFrom i l).map QEntry.freq = l.map Node.freq := by
  induction l generalizing i with
  | nil => rfl
  | cons n l ih => simp [queueFrom, ih]

theorem mem_queueFrom_zero (l : List Node) (e : QEntry) :
    e ∈ queueFrom 0 l ↔ ∃ n, l[e.idx]? = some n ∧ n.freq = e.freq := by
  simp only [List.mem_iff_getElem?, getElem?_queueFrom, Option.map_eq_some_iff, Nat.zero_add]
  constructor
  · rintro ⟨k, n, hn, rfl⟩
    exact ⟨n, hn, rfl⟩
  · rintro ⟨n, hn, hf⟩
    exact ⟨e.idx, n, hn, by rw [hf]⟩

/-- R162: the set starts as the leaves, none of which is a child. -/
theorem mergeInv_leaves (cs : Counts) : MergeInv cs (queueFrom 0 (leavesFrom 0 cs.toList)) (leavesFrom 0 cs.toList) := by
  have hlen : (leavesFrom 0 cs.toList).length = numSyms cs := length_leavesFrom 0 cs.toList
  have hwait : ∀ i, i < (leavesFrom 0 cs.toList).length →
      Waiting (leavesFrom 0 cs.toList) (leavesFrom 0 cs.toList).length i := by
    refine fun i hi => ⟨hi, fun j n _ hn => ?_⟩
    rw [leavesFrom_toList] at hn
    obtain ⟨x, -, rfl⟩ := List.mem_map.1 (List.mem_of_getElem? hn)
    simp
  constructor
  case arena => exact ⟨leavesFrom_toList cs ▸ List.prefix_rfl, fun k hk hk' => absurd (hlen ▸ hk') hk.not_gt⟩
  case queue =>
    refine ⟨map_idx_queueFrom _ _ ▸ List.nodup_range', fun e => ?_⟩
    rw [mem_queueFrom_zero]
    exact ⟨fun ⟨n, hn, hf⟩ => ⟨hwait _ (List.getElem?_eq_some_iff.1 hn).1, n, hn, hf⟩, And.right⟩
  case size => rw [length_queueFrom, hlen, two_mul]
  case total =>
    have hf : ∀ l : List QEntry, l.map (fun e => e.freq.toNat) = (l.map QEntry.freq).map BitVec.toNat := by simp
    rw [hf, map_freq_queueFrom, List.map_map, fcTotal, ← sum_freq_leavesFrom 0 cs.toList]
    rfl

/-- R162: `build` ends with the root the one member of the set. -/
theorem build_inv (cs : Counts) (h0 : numSyms cs ≠ 0) : ∃ q, (build cs).2 = q.idx ∧ MergeInv cs [q] (build cs).1 := by
  have hinv := mergeInv_leaves cs
  rw [build]
  split
  · next hq =>
    have hlen := congrArg List.length hq
    rw [length_queueFrom, length_leavesFrom] at hlen
    exact absurd hlen h0
  · next q qs hq => exact mergeLoop_inv _ _ _ _ le_rfl (hq ▸ hinv)

/-! ### The built tree -/

section

variable {cs : Counts} {nodes : List Node} {root : Nat}

/-- R162, R166: what the loop leaves, in terms of the answer of `build`: the arena, its size, the root as its last node and the
one node that waits, and FC_TOTAL as its FREQ. -/
structure BuiltTree (cs : Counts) (nodes : List Node) (root : Nat) : Prop where
  arena : MergedArena cs nodes
  size : nodes.length = 2 * numSyms cs - 1
  rootLast : root = 2 * numSyms cs - 2
  onlyRootWaits : ∀ i, Waiting nodes nodes.length i → i = root
  total : ∃ n, nodes[root]? = some n ∧ n.freq.toNat = fcTotal cs

theorem builtTree (h : build cs = (nodes, root)) (h0 : numSyms cs ≠ 0) : BuiltTree cs nodes root := by
  obtain ⟨q, hroot, harena, hqueue, hsize, htotal⟩ := build_inv cs h0
  rw [h] at hroot harena hqueue hsize
  cases hroot
  have hlen : nodes.length = 2 * numSyms cs - 1 := Nat.eq_sub_of_add_eq hsize
  have honly : ∀ i, Waiting nodes nodes.length i → i = q.idx := fun i hi => by
    obtain ⟨e, he, rfl⟩ := hqueue.exists_mem hi
    rw [List.mem_singleton.1 he]
  have hlast : Waiting nodes nodes.length (2 * numSyms cs - 2) := by
    rw [hlen, show 2 * numSyms cs - 1 = 2 * numSyms cs - 2 + 1 by omega]
    exact harena.waiting_last (by have := numSyms_le cs; omega)
  obtain ⟨-, n, hn, hf⟩ := (hqueue.mem q).1 (List.mem_singleton_self q)
  exact ⟨harena, hlen, (honly _ hlast).symm, honly, n, hn, by simpa [hf] using htotal⟩

/-- R164: every node but the root has a parent, as only the root still waits. -/
theorem BuiltTree.exists_parent (h : BuiltTree cs nodes root) {i : Nat} (hi : i < nodes.length) (hne : i ≠ root) :
    ∃ (k : Nat) (n : Node), nodes[k]? = some n ∧ BitVec.ofNat 9 i ∈ n.children := by
  by_contra hno
  exact hne (h.onlyRootWaits i ⟨hi, fun j n _ hn hc => hno ⟨j, n, hn, hc⟩⟩)

/-- The empty map has no tree. -/
theorem numSyms_ne_zero_of_build {k : Nat} {n : Node} (h : build cs = (nodes, root)) (hk : nodes[k]? = some n) :
    numSyms cs ≠ 0 := by
  intro h0
  have hnil : leavesFrom 0 cs.toList = [] := List.length_eq_zero_iff.1 ((length_leavesFrom 0 cs.toList).trans h0)
  rw [build, hnil] at h
  cases h
  cases hk

end

/-- Settles O23: the arena is the leaves of the keys in ascending order and then a merge at each index. -/
theorem builtArenaLayout : Obligations.BuiltArenaLayout := by
  rintro cs _ rfl h0
  have h := builtTree (cs := cs) rfl h0
  have hlen := length_leafSymbols cs
  refine ⟨_, _, rfl, h.size, ?_, h.rootLast, fun i hi => ?_, fun i j x y f g => h.arena.leaves_ascending, fun x hx => ?_,
    fun k hk hk' => ?_⟩
  · have := numSyms_le cs
    have := h.size
    omega
  · have hx := List.getElem?_eq_getElem (hlen.symm ▸ hi)
    exact ⟨_, h.arena.getElem?_leaf hx, (mem_leafSymbols cs _).1 (List.mem_of_getElem? hx)⟩
  · obtain ⟨i, hi⟩ := List.mem_iff_getElem?.1 ((mem_leafSymbols cs x).2 hx)
    exact ⟨i, hlen ▸ (List.getElem?_eq_some_iff.1 hi).1, h.arena.getElem?_leaf hi⟩
  · obtain ⟨f, l, r, hn, -⟩ := h.arena.merged k hk (h.size ▸ hk')
    exact ⟨f, l, r, hn⟩

/-- Settles O24: children were waiting when their parent was made, so they lie below it and have no other parent; at the
end only the root waits, and the sum of the FREQs of the set has stayed FC_TOTAL. -/
theorem builtTreeIsBinary : Obligations.BuiltTreeIsBinary := by
  intro cs nodes root hb h0
  have h := builtTree hb h0
  refine ⟨fun i x f hi => ?_, fun k f l r hk => ?_, fun i hi hne => ?_, h.total⟩
  · obtain ⟨hx, rfl⟩ := h.arena.leaf_symbol hi
    exact ⟨(mem_leafSymbols cs x).1 (List.mem_of_getElem? hx), BitVec.toNat_setWidth_of_le (by decide),
      fun j g hj => h.arena.leaf_unique hi hj⟩
  · have hm := h.arena.mergeOf hk
    exact ⟨hm.ne, hm.waitingLeft.1, hm.waitingRight.1, hm.sum⟩
  · obtain ⟨k, n, hn, hc⟩ := h.exists_parent hi hne
    exact ⟨k, ⟨n, hn, hc⟩, fun j ⟨m, hm, hcm⟩ => h.arena.parent_unique hm hn hcm hc⟩

/-- Settles O25: an internal node of a built tree is a merge, as the loop makes them. -/
theorem mergesTakeSmallestKeys : Obligations.MergesTakeSmallestKeys := by
  intro cs nodes root k f l r hb hk
  have hm := (builtTree hb (numSyms_ne_zero_of_build hb hk)).arena.mergeOf hk
  exact ⟨hm.waitingLeft, hm.waitingRight, hm.ne, hm.leftFirst, hm.rightNext⟩

end Sys2Proof.Machine

/-! ## 42_code_table.md: the codes of a generated table are the leaf paths of the tree -/

namespace Sys2Proof.Machine

/-! ### Following a path -/

theorem follow_append (a : Arena) (i : NodeIdx) (p q : List Bool) :
    follow a i (p ++ q) = (follow a i p).bind fun j => follow a j q := by
  induction p generalizing i with
  | nil => rfl
  | cons b p ih =>
    rw [List.cons_append, follow, follow]
    split
    · exact ih _
    · rfl

/-- R183: a path goes on only at an internal node, to its LEFT on 0 and to its RIGHT on 1. -/
theorem follow_concat {a : Arena} {i j : NodeIdx} {p : List Bool} {b : Bool} :
    follow a i (p ++ [b]) = some j ↔
      ∃ k f l r, follow a i p = some k ∧ nodeAt a k = some (.internal f l r) ∧ (if b then r else l) = j := by
  rw [follow_append, Option.bind_eq_some_iff]
  refine exists_congr fun k => ?_
  rcases hk : nodeAt a k with _ | ⟨x, f⟩ | ⟨f, l, r⟩ <;> simp [follow, hk]

/-- R183: a path from node `i` to a leaf of symbol `x`. -/
def LeafPath (a : Arena) (i : NodeIdx) (x : Byte) (p : List Bool) : Prop :=
  ∃ j f, follow a i p = some j ∧ nodeAt a j = some (.leaf x f)

theorem leafPath_cons {a : Arena} {i l r : NodeIdx} {f : Freq} (hi : nodeAt a i = some (.internal f l r)) {x : Byte}
    {b : Bool} {p : List Bool} : LeafPath a i x (b :: p) ↔ LeafPath a (if b then r else l) x p := by
  simp [LeafPath, follow, hi]

/-- R183: a leaf path ends at a leaf and goes on from an internal node to a child. -/
theorem LeafPath.cases {a : Arena} {i : NodeIdx} {x : Byte} {p : List Bool} (hp : LeafPath a i x p) :
    (∃ f, nodeAt a i = some (.leaf x f) ∧ p = []) ∨
    ∃ b q f l r, nodeAt a i = some (.internal f l r) ∧ p = b :: q ∧ LeafPath a (if b then r else l) x q := by
  obtain ⟨j, f, hj, hleaf⟩ := hp
  cases p with
  | nil =>
    cases hj
    exact .inl ⟨f, hleaf, rfl⟩
  | cons b q =>
    rw [follow] at hj
    split at hj
    · next g l r hi => exact .inr ⟨b, q, g, l, r, hi, rfl, j, f, hj, hleaf⟩
    · cases hj

/-- R185: no leaf path goes on past its leaf. -/
theorem LeafPath.eq_of_prefix {a : Arena} {i : NodeIdx} {x y : Byte} {p q : List Bool} (hx : LeafPath a i x p)
    (hy : LeafPath a i y q) (hpq : p <+: q) : p = q ∧ x = y := by
  obtain ⟨j, f, hp, hj⟩ := hx
  obtain ⟨k, g, hq, hk⟩ := hy
  obtain ⟨rest, rfl⟩ := hpq
  rw [follow_append, hp, Option.bind_some] at hq
  cases rest with
  | nil =>
    cases hq
    cases hj.symm.trans hk
    exact ⟨(List.append_nil p).symm, rfl⟩
  | cons b rest => simp [follow, hj] at hq

/-! ### The walk -/

/-- R183: a walk from the empty table gives a symbol nothing but a path to a leaf of it. -/
theorem codeAt_walk_noCodes {a : Arena} {fuel : Nat} {i : NodeIdx} {x : Byte}
    (hx : codeAt (walk a fuel i [] noCodes) x ≠ []) : LeafPath a i x (codeAt (walk a fuel i [] noCodes) x) := by
  obtain h | ⟨p, j, f, -, hp, hj, h⟩ := codeAt_walk a fuel i [] noCodes x
  · exact absurd (h.trans (codeAt_noCodes x)) hx
  · exact h.symm ▸ ⟨j, f, hp, hj⟩

/-- R183: a leaf within the fuel's reach is visited, so its symbol's code is a path to a leaf of it. -/
theorem codeAt_walk_of_leafPath {a : Arena} {i : NodeIdx} {x : Byte} {p : List Bool} (hp : LeafPath a i x p) {fuel : Nat}
    (hlen : p.length < fuel) (path : List Bool) (t : Codes) :
    ∃ q, LeafPath a i x q ∧ codeAt (walk a fuel i path t) x = path ++ q := by
  induction fuel generalizing i p path t with
  | zero => cases hlen
  | succ fuel ih =>
    obtain ⟨f, hi, rfl⟩ | ⟨b, p, f, l, r, hi, rfl, hp'⟩ := hp.cases
    · exact ⟨[], hp, by rw [walk, hi, codeAt_codePut, if_pos rfl, List.append_nil]⟩
    · have hlen' : p.length < fuel := Nat.lt_of_succ_lt_succ hlen
      rw [walk, hi]
      cases b with
      | true =>
        obtain ⟨q, hq, hcode⟩ := ih hp' hlen' (path ++ [true]) (walk a fuel l (path ++ [false]) t)
        exact ⟨true :: q, (leafPath_cons hi).2 hq, by simpa using hcode⟩
      | false =>
        obtain hkeep | ⟨q, j, g, -, hq, hj, hcode⟩ :=
          codeAt_walk a fuel r (path ++ [true]) (walk a fuel l (path ++ [false]) t) x
        · obtain ⟨q, hq, hcode⟩ := ih hp' hlen' (path ++ [false]) t
          exact ⟨false :: q, (leafPath_cons hi).2 hq, by simpa [hkeep] using hcode⟩
        · exact ⟨true :: q, (leafPath_cons hi).2 ⟨j, g, hq, hj⟩, by simpa using hcode⟩

theorem prefixFree_walk (a : Arena) (fuel : Nat) (i : NodeIdx) : PrefixFree (walk a fuel i [] noCodes) :=
  fun _ _ hxy hx hy hpre => hxy ((codeAt_walk_noCodes hx).eq_of_prefix (codeAt_walk_noCodes hy) hpre).2

/-! ### The paths of a built tree -/

/-- R183: a path from the root of the arena of a list of nodes to node `i`. -/
abbrev TreePath (nodes : List Node) (root : Nat) (p : List Bool) (i : NodeIdx) : Prop :=
  follow (arenaOf nodes) (BitVec.ofNat 9 root) p = some i

theorem ite_mem_children (b : Bool) (f : Freq) (l r : NodeIdx) :
    (if b then r else l) ∈ (Node.internal f l r).children := by
  cases b <;> simp [Node.children]

theorem ite_children_inj {b c : Bool} {l r : NodeIdx} (hne : l ≠ r) (h : (if b then r else l) = if c then r else l) :
    b = c :=
  match b, c with
  | true, true | false, false => rfl
  | true, false => absurd h.symm hne
  | false, true => absurd h hne

/-- R160: the internal nodes come after the leaves. -/
theorem MergedArena.numSyms_le_of_internal {cs : Counts} {nodes : List Node} (h : MergedArena cs nodes) {k : Nat} {f : Freq}
    {l r : NodeIdx} (hk : nodes[k]? = some (.internal f l r)) : numSyms cs ≤ k := by
  by_contra hlt
  have hx := List.getElem?_eq_getElem (l := leafSymbols cs) (i := k) (by rw [length_leafSymbols]; omega)
  cases hk.symm.trans (h.getElem?_leaf hx)

namespace BuiltTree

variable {cs : Counts} {nodes : List Node} {root : Nat} {p q : List Bool} {i : NodeIdx} {x : Byte}

theorem length_le (h : BuiltTree cs nodes root) : nodes.length ≤ 511 := by
  have := h.size
  have := numSyms_le cs
  omega

theorem nodeAt_arena (h : BuiltTree cs nodes root) (i : NodeIdx) : nodeAt (arenaOf nodes) i = nodes[i.toNat]? := by
  have hlen := h.length_le
  by_cases hi : i.toNat < 511
  · exact nodeAt_arenaOf nodes i hi
  · rw [nodeAt, dif_neg hi, List.getElem?_eq_none (by omega)]

theorem toNat_root (h : BuiltTree cs nodes root) : (BitVec.ofNat 9 root : NodeIdx).toNat = root :=
  toNat_ofNat_idx (by have := h.rootLast; have := numSyms_le cs; omega)

/-- R183: the last step of a path comes from an internal node. -/
theorem parent_of_concat (h : BuiltTree cs nodes root) {b : Bool} (hp : TreePath nodes root (p ++ [b]) i) :
    ∃ k f l r, TreePath nodes root p k ∧ nodes[k.toNat]? = some (.internal f l r) ∧ (if b then r else l) = i := by
  simpa only [h.nodeAt_arena] using follow_concat.1 hp

/-- R164: the indices fall along a path, as a child lies below its parent. -/
theorem length_add_le (h : BuiltTree cs nodes root) (hp : TreePath nodes root p i) : p.length + i.toNat ≤ root := by
  induction p using List.reverseRecOn generalizing i with
  | nil =>
    cases hp
    simp [h.toNat_root]
  | append_singleton p b ih =>
    obtain ⟨k, f, l, r, hk, hn, rfl⟩ := h.parent_of_concat hp
    have hlt := (h.arena.waiting_of_mem_children hn (ite_mem_children b f l r)).1
    have := ih hk
    rw [List.length_append, List.length_singleton]
    omega

theorem exists_node (h : BuiltTree cs nodes root) (hp : TreePath nodes root p i) : ∃ n, nodes[i.toNat]? = some n := by
  have := h.length_add_le hp
  obtain ⟨n, hn, -⟩ := h.total
  have := (List.getElem?_eq_some_iff.1 hn).1
  exact ⟨_, List.getElem?_eq_getElem (by omega)⟩

theorem path_root_eq_nil (h : BuiltTree cs nodes root) (hp : TreePath nodes root p (BitVec.ofNat 9 root)) : p = [] := by
  have := h.length_add_le hp
  rw [h.toNat_root] at this
  exact List.length_eq_zero_iff.1 (by omega)

/-- R164: one parent each, so one path to each node. -/
theorem path_unique (h : BuiltTree cs nodes root) (hp : TreePath nodes root p i)
    (hq : TreePath nodes root q i) : p = q := by
  induction p using List.reverseRecOn generalizing i q with
  | nil =>
    cases hp
    exact (h.path_root_eq_nil hq).symm
  | append_singleton p b ih =>
    cases q using List.reverseRecOn with
    | nil =>
      cases hq
      exact h.path_root_eq_nil hp
    | append_singleton q c _ =>
      obtain ⟨k, f, l, r, hk, hn, rfl⟩ := h.parent_of_concat hp
      obtain ⟨k', f', l', r', hk', hn', hi⟩ := h.parent_of_concat hq
      have hkk := BitVec.eq_of_toNat_eq
        (h.arena.parent_unique hn hn' (ite_mem_children b f l r) (hi ▸ ite_mem_children c f' l' r'))
      subst hkk
      cases hn.symm.trans hn'
      have hne := (h.arena.mergeOf hn).ne
      rw [ih hk hk', ite_children_inj hne hi.symm]

/-- R164: every node is below the root. -/
theorem exists_path (h : BuiltTree cs nodes root) {k : Nat} (hk : k < nodes.length) :
    ∃ p, TreePath nodes root p (BitVec.ofNat 9 k) := by
  by_cases hr : k = root
  · exact ⟨[], hr ▸ rfl⟩
  · obtain ⟨j, n, hn, hc⟩ := h.exists_parent hk hr
    have hlen := h.length_le
    have hj := (List.getElem?_eq_some_iff.1 hn).1
    have hkj : k < j := by
      have := (h.arena.waiting_of_mem_children hn hc).1
      rwa [toNat_ofNat_idx (by omega)] at this
    obtain ⟨p, hp⟩ := h.exists_path hj
    obtain ⟨x, -, rfl⟩ | ⟨f, l, r, rfl, -⟩ := h.arena.node_cases hn
    · cases hc
    · have hnode : nodeAt (arenaOf nodes) (BitVec.ofNat 9 j) = some (.internal f l r) := by
        rw [h.nodeAt_arena, toNat_ofNat_idx (by omega), hn]
      obtain hl | hr := List.mem_pair.1 hc
      · exact ⟨p ++ [false], follow_concat.2 ⟨_, f, l, r, hp, hnode, hl.symm⟩⟩
      · exact ⟨p ++ [true], follow_concat.2 ⟨_, f, l, r, hp, hnode, hr.symm⟩⟩
termination_by nodes.length - k
decreasing_by omega

/-! ### The leaf paths of a built tree -/

/-- R164: one leaf for each symbol, so one leaf path. -/
theorem leafPath_unique (h : BuiltTree cs nodes root) (hp : LeafPath (arenaOf nodes) (BitVec.ofNat 9 root) x p)
    (hq : LeafPath (arenaOf nodes) (BitVec.ofNat 9 root) x q) : p = q := by
  obtain ⟨i, f, hp, hi⟩ := hp
  obtain ⟨j, g, hq, hj⟩ := hq
  rw [h.nodeAt_arena] at hi hj
  obtain rfl := BitVec.eq_of_toNat_eq (h.arena.leaf_unique hi hj)
  exact h.path_unique hp hq

/-- R185: the symbols with a leaf path are the counted ones. -/
theorem exists_leafPath_iff (h : BuiltTree cs nodes root) :
    (∃ p, LeafPath (arenaOf nodes) (BitVec.ofNat 9 root) x p) ↔ countAt cs x ≠ 0#32 := by
  rw [← mem_leafSymbols]
  constructor
  · rintro ⟨p, i, f, -, hi⟩
    rw [h.nodeAt_arena] at hi
    exact List.mem_of_getElem? (h.arena.leaf_symbol hi).1
  · intro hx
    obtain ⟨k, hk⟩ := List.mem_iff_getElem?.1 hx
    have hn := h.arena.getElem?_leaf hk
    have hlt := (List.getElem?_eq_some_iff.1 hn).1
    obtain ⟨p, hp⟩ := h.exists_path hlt
    refine ⟨p, _, (countAt cs x).setWidth 40, hp, ?_⟩
    rw [h.nodeAt_arena, toNat_ofNat_idx (by have := h.length_le; omega), hn, leafOf]

/-- R168: an internal node lies fewer than n - 1 levels below the root. -/
theorem length_lt_of_internal (h : BuiltTree cs nodes root) (hp : TreePath nodes root p i) {f : Freq} {l r : NodeIdx}
    (hn : nodes[i.toNat]? = some (.internal f l r)) : p.length + 1 < numSyms cs := by
  have := h.length_add_le hp
  have := h.arena.numSyms_le_of_internal hn
  have := h.rootLast
  have := (List.getElem?_eq_some_iff.1 hn).1
  have := h.size
  omega

/-- R168: a leaf lies at most n - 1 levels below the root. -/
theorem leafPath_length_lt (h : BuiltTree cs nodes root) (h0 : numSyms cs ≠ 0)
    (hp : LeafPath (arenaOf nodes) (BitVec.ofNat 9 root) x p) : p.length < numSyms cs := by
  obtain ⟨i, f, hp, -⟩ := hp
  cases p using List.reverseRecOn with
  | nil => exact Nat.pos_of_ne_zero h0
  | append_singleton p b _ =>
    obtain ⟨k, f, l, r, hk, hn, -⟩ := h.parent_of_concat hp
    simpa using h.length_lt_of_internal hk hn

theorem root_internal (h : BuiltTree cs nodes root) (h2 : 2 ≤ numSyms cs) :
    ∃ f l r, nodeAt (arenaOf nodes) (BitVec.ofNat 9 root) = some (.internal f l r) := by
  have := h.size
  have := h.rootLast
  obtain ⟨f, l, r, hn, -⟩ := h.arena.merged root (by omega) (by omega)
  exact ⟨f, l, r, by rw [h.nodeAt_arena, h.toNat_root, hn]⟩

end BuiltTree

/-! ### The table of two or more symbols (R183) -/

section

variable {cs : Counts} {x : Byte} {p : List Bool}

theorem builtTree_build (h0 : numSyms cs ≠ 0) : BuiltTree cs (build cs).1 (build cs).2 := builtTree rfl h0

/-- R183: a leaf path of the tree that is built from a frequency map. -/
def BuiltLeafPath (cs : Counts) (x : Byte) (p : List Bool) : Prop :=
  LeafPath (arenaOf (build cs).1) (BitVec.ofNat 9 (build cs).2) x p

theorem tableOf_eq_walk (h2 : 2 ≤ numSyms cs) :
    tableOf cs = walk (arenaOf (build cs).1) 256 (BitVec.ofNat 9 (build cs).2) [] noCodes := by
  obtain ⟨f, l, r, hroot⟩ := (builtTree_build (cs := cs) (by omega)).root_internal h2
  rw [tableOf, codeTable, hroot]

theorem builtLeafPath_codeAt (h2 : 2 ≤ numSyms cs) (hx : codeAt (tableOf cs) x ≠ []) :
    BuiltLeafPath cs x (codeAt (tableOf cs) x) := by
  rw [tableOf_eq_walk h2] at hx ⊢
  exact codeAt_walk_noCodes hx

/-- R187: the code of a symbol is its leaf path. -/
theorem codeAt_tableOf (h2 : 2 ≤ numSyms cs) (hp : BuiltLeafPath cs x p) : codeAt (tableOf cs) x = p := by
  have h := builtTree_build (cs := cs) (by omega)
  have hlen := h.leafPath_length_lt (by omega) hp
  obtain ⟨q, hq, hcode⟩ := codeAt_walk_of_leafPath hp (hlen.trans_le (numSyms_le cs)) [] noCodes
  rw [tableOf_eq_walk h2, hcode, List.nil_append, h.leafPath_unique hp hq]

theorem builtLeafPath_ne_nil (h2 : 2 ≤ numSyms cs) (hp : BuiltLeafPath cs x p) : p ≠ [] := by
  rintro rfl
  obtain ⟨f, l, r, hroot⟩ := (builtTree_build (cs := cs) (by omega)).root_internal h2
  obtain ⟨i, g, hi, hleaf⟩ := hp
  cases hi
  cases hroot.symm.trans hleaf

theorem prefixFree_tableOf (h2 : 2 ≤ numSyms cs) : PrefixFree (tableOf cs) :=
  tableOf_eq_walk h2 ▸ prefixFree_walk _ _ _

theorem codeAt_tableOf_ne_nil_iff (h2 : 2 ≤ numSyms cs) : codeAt (tableOf cs) x ≠ [] ↔ countAt cs x ≠ 0#32 := by
  rw [← (builtTree_build (cs := cs) (by omega)).exists_leafPath_iff]
  constructor
  · exact fun hx => ⟨_, builtLeafPath_codeAt h2 hx⟩
  · rintro ⟨p, hp⟩
    rw [codeAt_tableOf h2 hp]
    exact builtLeafPath_ne_nil h2 hp

/-! ### Completeness (R185) -/

/-- R185: a symbol's share of the sum, 2^(-CODE_LEN) times 2^255, for a symbol with an entry. -/
def codeShare (t : Codes) (x : Byte) : Nat := if codeLen t x = 0 then 0 else 2 ^ (255 - codeLen t x)

theorem codeShare_of_codeAt {t : Codes} (h : codeAt t x = p) (hp : p ≠ []) : codeShare t x = 2 ^ (255 - p.length) := by
  rw [codeShare, codeLen, h, if_neg (by simpa using hp)]

theorem codeShare_eq_zero {t : Codes} (h : codeAt t x = []) : codeShare t x = 0 := by
  rw [codeShare, codeLen, h, if_pos List.length_nil]

/-- A sequence that a path begins is the path, or goes on from it with one of the two bits. -/
theorem ite_prefix_split {path code : List Bool} {w : Nat} (hw : code = path → w = 0) :
    (if path <+: code then w else 0) =
      (if path ++ [false] <+: code then w else 0) + (if path ++ [true] <+: code then w else 0) := by
  by_cases hpre : path <+: code
  · obtain ⟨rest, rfl⟩ := hpre
    rcases rest with _ | ⟨b, rest⟩
    · simp [hw]
    · cases b <;> simp [List.prefix_append_right_inj]
  · have hno : ∀ b, ¬ path ++ [b] <+: code := fun b hb => hpre ((List.prefix_append path [b]).trans hb)
    simp [hpre, hno]

/-- R185: the sum of the shares of the codes that a path begins. -/
def shareBelow (t : Codes) (path : List Bool) : Nat := ∑ x : Byte, (if path <+: codeAt t x then codeShare t x else 0)

theorem shareBelow_nil (t : Codes) : shareBelow t [] = ∑ x : Byte, codeShare t x := by simp [shareBelow]

/-- R185: a leaf path begins its own code and no other. -/
theorem shareBelow_leafPath (h2 : 2 ≤ numSyms cs) (hx : BuiltLeafPath cs x p) :
    shareBelow (tableOf cs) p = 2 ^ (255 - p.length) := by
  have hne := builtLeafPath_ne_nil h2 hx
  have hcode := codeAt_tableOf h2 hx
  rw [shareBelow, Finset.sum_eq_single x]
  · rw [if_pos (by rw [hcode]), codeShare_of_codeAt hcode hne]
  · intro y _ hyx
    refine if_neg fun hpre => hyx ?_
    have hy := builtLeafPath_codeAt h2 fun h0 => hne (List.prefix_nil.1 (h0 ▸ hpre))
    exact (hx.eq_of_prefix hy hpre).2.symm
  · exact fun hno => absurd (Finset.mem_univ x) hno

/-- R185: below an internal node every code goes on to one of its two children. -/
theorem shareBelow_internal (h2 : 2 ≤ numSyms cs) {i : NodeIdx} {f : Freq} {l r : NodeIdx}
    (hi : TreePath (build cs).1 (build cs).2 p i)
    (hn : nodeAt (arenaOf (build cs).1) i = some (.internal f l r)) :
    shareBelow (tableOf cs) p = shareBelow (tableOf cs) (p ++ [false]) + shareBelow (tableOf cs) (p ++ [true]) := by
  have hself : ∀ x, codeAt (tableOf cs) x = p → codeShare (tableOf cs) x = 0 := by
    intro x hx
    by_contra hne
    obtain ⟨j, g, hj, hleaf⟩ := builtLeafPath_codeAt h2 fun h0 => hne (codeShare_eq_zero h0)
    rw [hx, hi] at hj
    cases hj
    cases hn.symm.trans hleaf
  simp only [shareBelow, ← Finset.sum_add_distrib]
  exact Finset.sum_congr rfl fun x _ => ite_prefix_split (hself x)

/-- R185: the codes below a node share what its path would have as a code, as an internal node has two children. -/
theorem shareBelow_path (h2 : 2 ≤ numSyms cs) {p : List Bool} {i : NodeIdx}
    (hi : TreePath (build cs).1 (build cs).2 p i) :
    shareBelow (tableOf cs) p = 2 ^ (255 - p.length) := by
  have h := builtTree_build (cs := cs) (by omega)
  obtain ⟨n, hn⟩ := h.exists_node hi
  obtain ⟨x, -, rfl⟩ | ⟨f, l, r, rfl, -⟩ := h.arena.node_cases hn
  · exact shareBelow_leafPath h2 ⟨i, _, hi, (h.nodeAt_arena i).trans hn⟩
  · have hnode := (h.nodeAt_arena i).trans hn
    have hlt : ∀ b, (if b = true then r else l).toNat < i.toNat := fun b =>
      (h.arena.waiting_of_mem_children hn (ite_mem_children b f l r)).1
    have hchild : ∀ b, shareBelow (tableOf cs) (p ++ [b]) = 2 ^ (255 - (p.length + 1)) := fun b => by
      have := hlt b
      rw [shareBelow_path h2 (follow_concat.2 ⟨i, f, l, r, hi, hnode, rfl⟩), List.length_append, List.length_singleton]
    have hlen : 255 - (p.length + 1) + 1 = 255 - p.length := by
      have := h.length_lt_of_internal hi hn
      have := numSyms_le cs
      omega
    rw [shareBelow_internal h2 hi hnode, hchild, hchild, ← two_mul, ← pow_succ', hlen]
termination_by i.toNat

/-- R185: a table of two or more symbols is complete. -/
theorem sum_codeShare (h2 : 2 ≤ numSyms cs) : ∑ x : Byte, codeShare (tableOf cs) x = 2 ^ 255 := by
  rw [← shareBelow_nil, shareBelow_path h2 (i := BitVec.ofNat 9 (build cs).2) rfl, List.length_nil]

end

/-! ### The table of one symbol (R184) -/

theorem leafSymbols_of_single {cs : Counts} (h1 : numSyms cs = 1) : ∃ x, leafSymbols cs = [x] :=
  List.length_eq_one_iff.1 ((length_leafSymbols cs).trans h1)

theorem tableOf_of_single {cs : Counts} {x : Byte} (h : leafSymbols cs = [x]) : tableOf cs = codePut noCodes x [false] := by
  have h1 : numSyms cs = 1 := by rw [← length_leafSymbols, h]; rfl
  have hb := builtTree_build (cs := cs) (by omega)
  have hroot : (build cs).2 = 0 := by rw [hb.rootLast, h1]
  have hleaf : (build cs).1[0]? = some (leafOf cs x) := hb.arena.getElem?_leaf (by rw [h]; rfl)
  have hn : nodeAt (arenaOf (build cs).1) (BitVec.ofNat 9 (build cs).2) = some (leafOf cs x) := by
    rw [hb.nodeAt_arena, hb.toNat_root, hroot, hleaf]
  rw [tableOf, codeTable, hn, leafOf]

theorem codeAt_tableOf_of_single {cs : Counts} {x : Byte} (h : leafSymbols cs = [x]) (y : Byte) :
    codeAt (tableOf cs) y = if y = x then [false] else [] := by
  rw [tableOf_of_single h, codeAt_codePut, codeAt_noCodes]

theorem prefixFree_of_single {cs : Counts} {x : Byte} (h : leafSymbols cs = [x]) : PrefixFree (tableOf cs) := by
  have hx : ∀ y, codeAt (tableOf cs) y ≠ [] → y = x := fun y hy => by
    by_contra hne
    exact hy (by rw [codeAt_tableOf_of_single h, if_neg hne])
  exact fun y z hyz hy hz => absurd ((hx y hy).trans (hx z hz).symm) hyz

theorem sum_codeShare_of_single {cs : Counts} {x : Byte} (h : leafSymbols cs = [x]) :
    ∑ y : Byte, codeShare (tableOf cs) y = 2 ^ 254 := by
  have hcode := codeAt_tableOf_of_single h
  rw [Finset.sum_eq_single x (fun y _ hyx => codeShare_eq_zero (by rw [hcode, if_neg hyx])) (by simp),
    codeShare_of_codeAt (by rw [hcode, if_pos rfl]) (List.cons_ne_nil _ _), List.length_singleton]

/-! ### The statements -/

/-- Settles O28: for two or more symbols the codes are the leaf paths, and the sum is that below the root; one symbol has
the code "0". -/
theorem tableIsPrefixFreeAndComplete : Obligations.TableIsPrefixFreeAndComplete := by
  intro cs h0
  obtain h1 | h2 : numSyms cs = 1 ∨ 2 ≤ numSyms cs := by omega
  · obtain ⟨x, hx⟩ := leafSymbols_of_single h1
    refine ⟨prefixFree_of_single hx, fun y => ?_, by omega, fun _ => sum_codeShare_of_single hx⟩
    rw [codeAt_tableOf_of_single hx, ← mem_leafSymbols, hx, List.mem_singleton]
    simp
  · exact ⟨prefixFree_tableOf h2, fun y => codeAt_tableOf_ne_nil_iff h2, fun _ => sum_codeShare h2, by omega⟩

/-- Settles O29: the tree is one leaf, the root. -/
theorem singleSymbolGetsZero : Obligations.SingleSymbolGetsZero := by
  intro cs x h1 hx
  obtain ⟨y, hy⟩ := leafSymbols_of_single h1
  obtain rfl : x = y := List.mem_singleton.1 (hy ▸ (mem_leafSymbols cs x).2 hx)
  exact ⟨by rw [codeAt_tableOf_of_single hy, if_pos rfl], fun z hz => by rw [codeAt_tableOf_of_single hy, if_neg hz]⟩

end Sys2Proof.Machine

/-! ## 43_encoding_unit.md: ENCODE -/

namespace Sys2Proof.Machine

/-- R201: the concatenated codes are as long as the codes together. -/
theorem length_codesOf (t : Codes) (syms : List Byte) : (codesOf t syms).length = (syms.map (codeLen t)).sum :=
  List.length_flatMap

/-- R85: the bytes after a written bit sequence are as before. -/
theorem Memory.read_writeBitSeq_of_le (m : Memory) {x : List Bool} {off : Nat} (h : (x.length + 7) / 8 ≤ off) :
    Memory.read (Memory.writeBitSeq m x) off = Memory.read m off := by
  rw [Memory.writeBitSeq, Memory.read_writeBytes, if_neg (by rw [length_bitsToBytes]; omega)]

/-- R85: the tail of the last byte of a written bit sequence is 0. -/
theorem Memory.bitRead_writeBitSeq_tail (m : Memory) {x : List Bool} {i : Nat} (hx : x.length ≤ i)
    (h : i < 8 * ((x.length + 7) / 8)) : Memory.bitRead (Memory.writeBitSeq m x) i = some false := by
  rw [Memory.bitRead_writeBitSeq m x i h, List.getD_eq_default _ _ hx]

/-- With legal parameters, BIT_LEN holds the length of every bit sequence that fits BITBUF. -/
theorem toNat_bitLen_putBits {s : State} {x : List Bool} (hp : s.par.wf = true) (hx : x.length ≤ s.par.bitCap) :
    (putBits x s).bitLen.toNat = x.length := by
  obtain ⟨-, -, -, -, hcap, -, -⟩ := params_bounds s.par hp
  rw [putBits_bitLen, BitVec.toNat_ofNat, Nat.mod_eq_of_lt (by omega)]

/-- R200: what ENCODE does, and then the end of the engine's step. -/
theorem exec_encode (s : State) : exec .encode s = (perfEncode s).finish := rfl

/-- R200: ENCODE of written symbols that have entries and fit completes with their codes in BITBUF. -/
theorem exec_encode_of_fit {s : State} {syms : List Byte} (hv : s.tableValid = true) (hw : Written (symInput s) syms)
    (hc : AllCoded s.code syms) (hfit : (codesOf s.code syms).length ≤ s.par.bitCap) :
    exec .encode s = .next (complete (putBits (codesOf s.code syms) s)) := by
  have hdone : perfEncode s = .done (putBits (codesOf s.code syms) s) := by
    rw [perfEncode, if_pos hv, hw, encodeFrom_all s.code s.par.bitCap syms hc hfit]
  rw [exec_encode, hdone, Perf.finish]

/-- Settles O30: the loop concatenates the codes, and BITBUF holds them as R85 stores a bit sequence. -/
theorem encodeConcatenatesCodes : Obligations.EncodeConcatenatesCodes := by
  rintro s syms x hp hv hw hc rfl hfit
  have hlen := toNat_bitLen_putBits hp hfit
  refine ⟨_, _, exec_encode_of_fit hv hw hc hfit, hlen.trans (length_codesOf ..), ?_, ?_, ?_⟩
  · rw [hlen]
    exact Memory.readBits_writeBitSeq s.bitbuf _
  · exact fun i => Memory.bitRead_writeBitSeq_tail s.bitbuf
  · exact fun off => Memory.read_writeBitSeq_of_le s.bitbuf

end Sys2Proof.Machine

/-! ## 44_bit_packer.md: PACK and UNPACK -/

namespace Sys2Proof.Machine

/-! ### Whole bytes of a bit sequence -/

theorem firstEight_of_le {x : List Bool} (h : 8 ≤ x.length) : firstEight x = x.take 8 := by
  rw [firstEight, Nat.sub_eq_zero_of_le h, zeros, List.replicate_zero, List.append_nil]

/-- R85: eight written bits from a byte boundary on are the byte there. -/
theorem Memory.read_eq_byteOf {m : Memory} {j : Nat} {y : List Bool} (hy : y.length = 8)
    (h : ∀ i < 8, Memory.bitRead m (8 * j + i) = y[i]?) : Memory.read m j = some (byteOf y) := by
  have hbit (i : Nat) (hi : i < 8) : (Memory.read m j).map (fun b => b.getLsbD (7 - i)) = y[i]? := by
    rw [← h i hi, Memory.bitRead, show (8 * j + i) / 8 = j by omega, show (8 * j + i) % 8 = i by omega]
  obtain ⟨b, hb, -⟩ := Option.map_eq_some_iff.1 ((hbit 0 (by omega)).trans (List.getElem?_eq_getElem (by omega)))
  have hbits : bits8 b = y := List.ext_getElem? fun i => by
    by_cases hi : i < 8
    · rw [getElem?_bits8 b i hi, ← hbit i hi, hb]; rfl
    · rw [List.getElem?_eq_none (by rw [length_bits8]; omega), List.getElem?_eq_none (by omega)]
  rw [hb, ← hbits, byteOf_bits8]

theorem length_of_written_bitInput {s : State} {x : List Bool} (h : Written (bitInput s) x) : x.length = s.bitLen.toNat :=
  ((Memory.readBits_eq_map_some ..).1 h).1

/-- R85: a whole byte of BITBUF holds eight bits of the sequence in it. -/
theorem read_bitbuf_of_written {s : State} {x : List Bool} (h : Written (bitInput s) x) {j : Nat} (hj : j < x.length / 8) :
    Memory.read s.bitbuf j = some (byteOf ((x.drop (8 * j)).take 8)) := by
  obtain ⟨hlen, hbit⟩ := (Memory.readBits_eq_map_some ..).1 h
  refine Memory.read_eq_byteOf (by rw [List.length_take, List.length_drop]; omega) fun i hi => ?_
  rw [hbit _ (by omega), List.getElem?_take, if_pos hi, List.getElem?_drop]

/-! ### The packed stream -/

/-- R212: a whole byte of the payload holds eight bits of the sequence. -/
theorem packedStream_whole_byte (x : List Bool) {j : Nat} (hj : j < x.length / 8) :
    (packedStream x)[1 + j]? = some (byteOf ((x.drop (8 * j)).take 8)) := by
  have hdrop : 8 ≤ (x.drop (8 * j)).length := by rw [List.length_drop]; omega
  rw [getElem?_packedStream x j (by rw [packedLen_eq]; omega), List.drop_append_of_le_length (by omega),
    firstEight_of_le (by rw [List.length_append]; omega), List.take_append_of_le_length hdrop]

/-- R212: the last byte of the payload holds the remaining bits and the zero padding. -/
theorem packedStream_last_byte (x : List Bool) :
    ∃ b, (packedStream x)[x.length / 8 + 1]? = some b ∧
      bits8 b = x.drop (8 * (x.length / 8)) ++ zeros (padCount x.length) := by
  have hlen : (x.drop (8 * (x.length / 8)) ++ zeros (padCount x.length)).length = 8 := by
    rw [List.length_append, List.length_drop, length_zeros, padCount]; omega
  refine ⟨_, ?_, bits8_byteOf _ hlen⟩
  rw [Nat.add_comm, getElem?_packedStream x _ (by rw [packedLen_eq]; omega), List.drop_append_of_le_length (by omega),
    firstEight_of_le hlen.ge, List.take_of_length_le hlen.le]

theorem toNat_ofNat_padCount {w : Nat} (hw : 4 ≤ w) (n : Nat) : (BitVec.ofNat w (padCount n)).toNat = padCount n := by
  have hpow : 2 ^ 4 ≤ 2 ^ w := Nat.pow_le_pow_right (by decide) hw
  have hpad := padCount_pos n
  rw [BitVec.toNat_ofNat, Nat.mod_eq_of_lt (by omega)]

/-- With legal parameters, PK_LEN holds the length of the stream of every bit sequence that fits BITBUF. -/
theorem toNat_pkLen_putPacked {s : State} {x : List Bool} (hp : s.par.wf = true) (hx : x.length ≤ s.par.bitCap) :
    (putPacked x s).pkLen.toNat = packedLen x.length := by
  obtain ⟨-, -, -, -, hcap, -, -⟩ := params_bounds s.par hp
  rw [putPacked_pkLen, packedLen_eq, BitVec.toNat_ofNat, Nat.mod_eq_of_lt (by omega)]

/-- R212: PKBUF from its first byte on is the packed stream. -/
theorem read_pkbuf_putPacked (s : State) (x : List Bool) {off : Nat} (h : off < packedLen x.length) :
    Memory.read (putPacked x s).pkbuf off = (packedStream x)[off]? := by
  rw [putPacked_pkbuf, Memory.read_writeBytes, if_pos (by rw [length_packedStream]; omega), Nat.sub_zero]

/-- R212: the bytes of PKBUF after the packed stream are as before. -/
theorem read_pkbuf_putPacked_of_le (s : State) (x : List Bool) {off : Nat} (h : packedLen x.length ≤ off) :
    Memory.read (putPacked x s).pkbuf off = Memory.read s.pkbuf off := by
  rw [putPacked_pkbuf, Memory.read_writeBytes_of_lt _ _ _ _ (by rw [length_packedStream]; omega)]

/-- R212: PKBUF holds the packed stream. -/
theorem written_pkbuf_putPacked (s : State) (x : List Bool) :
    Written (Memory.readBytes (putPacked x s).pkbuf 0 (packedLen x.length)) (packedStream x) := by
  rw [Written, Memory.readBytes_eq_map_some]
  refine ⟨length_packedStream x, fun i hi => ?_⟩
  rw [Nat.zero_add, read_pkbuf_putPacked s x hi]

/-! ### PACK -/

/-- R212: what PACK does, and then the end of the engine's step. -/
theorem exec_pack (s : State) : exec .pack s = (perfPack s).finish := rfl

/-- R212: PACK of a stream beyond PK_CAP. -/
theorem perfPack_of_overflow {s : State} (h : s.par.pkCap < packedLen s.bitLen.toNat) :
    perfPack s = .raised .resource (BitVec.ofNat 32 (packedLen s.bitLen.toNat)) [.pkbuf] s := by
  rw [perfPack, if_pos h]

/-- R212: PACK of written bits whose stream fits PKBUF. -/
theorem perfPack_of_fit {s : State} {x : List Bool} (hw : Written (bitInput s) x)
    (hfit : packedLen s.bitLen.toNat ≤ s.par.pkCap) : perfPack s = .done (putPacked x s) := by
  rw [perfPack, if_neg (by omega), (gather_eq_ok ..).2 hw]

/-- R5: with legal parameters, the stream of every bit sequence that fits BITBUF fits PKBUF. -/
theorem packedLen_le_pkCap {p : Params} (hp : p.wf = true) {n : Nat} (hn : n ≤ p.bitCap) : packedLen n ≤ p.pkCap := by
  obtain ⟨-, -, -, -, -, hcap, -⟩ := params_bounds p hp
  rw [packedLen_eq]; omega

/-- R212: with legal parameters, PACK of written bits completes. -/
theorem exec_pack_of_written {s : State} {x : List Bool} (hp : s.par.wf = true) (hcap : s.bitLen.toNat ≤ s.par.bitCap)
    (hw : Written (bitInput s) x) : exec .pack s = .next (complete (putPacked x s)) := by
  rw [exec_pack, perfPack_of_fit hw (packedLen_le_pkCap hp hcap), Perf.finish]

/-- Settles O32: the stream that PACK writes, byte by byte: the header, the whole bytes, the last byte, and what is after it. -/
theorem packWritesStream : Obligations.PackWritesStream := by
  refine ⟨fun s h => ?_, fun s x hp hcap hw => ?_⟩
  · rw [← packedLen_eq] at h ⊢
    rw [exec_pack, perfPack_of_overflow h, Perf.finish]
  · have hlen := length_of_written_bitInput hw
    refine ⟨_, _, _, exec_pack_of_written hp hcap hw, ?_⟩
    rw [← hlen] at hcap ⊢
    have hread {off : Nat} (h : off < x.length / 8 + 2) := read_pkbuf_putPacked s x (packedLen_eq x.length ▸ h)
    refine ⟨(toNat_pkLen_putPacked hp hcap).trans (packedLen_eq _), toNat_ofNat_padCount le_rfl _,
      ⟨_, hread (by omega), toNat_ofNat_padCount (by decide) _⟩, fun j hj => ?_, ?_, fun off h => ?_⟩
    · exact (hread (by omega)).trans ((packedStream_whole_byte x hj).trans (read_bitbuf_of_written hw hj).symm)
    · obtain ⟨b, hb, hbits⟩ := packedStream_last_byte x
      exact ⟨b, (hread (by omega)).trans hb, hbits⟩
    · exact read_pkbuf_putPacked_of_le s x (by rwa [packedLen_eq])

/-! ### UNPACK -/

/-- R215: what UNPACK does, and then the end of the engine's step. -/
theorem exec_unpack (s : State) : exec .unpack s = (perfUnpack s).finish := rfl

/-- R214: the first check of UNPACK. -/
theorem perfUnpack_of_empty {s : State} (h : s.pkLen = 0#32) :
    perfUnpack s = .raised .malformedStream 0#32 [.bitbuf] s := by
  rw [perfUnpack, if_pos (by rw [h]; rfl), unpackError]

/-- R214: UNPACK of a stream with a written header goes on with that header. -/
theorem perfUnpack_of_header {s : State} {p : Byte} (hne : s.pkLen ≠ 0#32) (hr : Memory.read s.pkbuf 0 = some p) :
    perfUnpack s = unpackWith p s := by
  have h0 : s.pkLen.toNat ≠ 0 := fun h => hne (BitVec.eq_of_toNat_eq h)
  rw [perfUnpack, if_neg h0, hr]

/-- R214: the checks of the header, above 8 or above the payload bits. -/
theorem unpackWith_of_malformed {s : State} {p : Byte} (h : 8 < p.toNat ∨ 8 * (s.pkLen.toNat - 1) < p.toNat) :
    unpackWith p s = .raised .malformedStream (p.setWidth 32) [.bitbuf] s := by
  rw [unpackWith, ← ite_or, if_pos h, unpackError, BitVec.ofNat_toNat]

/-- R215: an accepted stream of more bits than BIT_CAP. -/
theorem unpackWith_of_overflow {s : State} {p : Byte} (h8 : p.toNat ≤ 8) (hrem : p.toNat ≤ 8 * (s.pkLen.toNat - 1))
    (hcap : s.par.bitCap < 8 * (s.pkLen.toNat - 1) - p.toNat) :
    unpackWith p s = .raised .resource (BitVec.ofNat 32 (8 * (s.pkLen.toNat - 1) - p.toNat)) [.bitbuf] s := by
  rw [unpackWith, if_neg (by omega), if_neg (by omega), if_pos hcap, unpackError]

/-- R215: an accepted stream with a written payload whose bits fit BITBUF. -/
theorem unpackWith_of_fit {s : State} {p : Byte} {payload : List Byte} (h8 : p.toNat ≤ 8)
    (hrem : p.toNat ≤ 8 * (s.pkLen.toNat - 1)) (hcap : 8 * (s.pkLen.toNat - 1) - p.toNat ≤ s.par.bitCap)
    (hw : Written (payloadInput s) payload) :
    unpackWith p s = .done (putUnpacked p (8 * (s.pkLen.toNat - 1) - p.toNat) payload s) := by
  rw [unpackWith, if_neg (by omega), if_neg (by omega), if_neg (by omega), (gather_eq_ok ..).2 hw]

/-- Settles O33: an empty stream stops UNPACK before the header is read; the two checks of the header are one case. -/
theorem unpackRejectsMalformed : Obligations.UnpackRejectsMalformed := by
  intro s p
  have hheader (hne : s.pkLen ≠ 0#32) (hr : Memory.read s.pkbuf 0 = some p)
      (h : 8 < p.toNat ∨ 8 * (s.pkLen.toNat - 1) < p.toNat) :
      exec .unpack s = .next (raiseError .malformedStream (p.setWidth 32) [.bitbuf] s) := by
    rw [exec_unpack, perfUnpack_of_header hne hr, unpackWith_of_malformed h, Perf.finish]
  refine ⟨fun h => ?_, fun hne hr h => hheader hne hr (.inl h), fun hne hr _ h => hheader hne hr (.inr h)⟩
  rw [exec_unpack, perfUnpack_of_empty h, Perf.finish]

theorem length_of_written_payloadInput {s : State} {payload : List Byte} (h : Written (payloadInput s) payload) :
    payload.length = s.pkLen.toNat - 1 :=
  ((Memory.readBytes_eq_map_some ..).1 h).1

theorem length_take_flatMap_bits8 {l : List Byte} {n : Nat} (h : n ≤ 8 * l.length) :
    ((l.flatMap bits8).take n).length = n :=
  List.length_take_of_le (by rwa [length_flatMap_bits8])

/-- With legal parameters, BIT_LEN holds the number of bits that UNPACK keeps. -/
theorem toNat_bitLen_putUnpacked {s : State} {p : Byte} {payload : List Byte} {n : Nat} (hp : s.par.wf = true)
    (hn : n ≤ 8 * payload.length) (hcap : n ≤ s.par.bitCap) : (putUnpacked p n payload s).bitLen.toNat = n :=
  have hbits := length_take_flatMap_bits8 hn
  (toNat_bitLen_putBits hp (hbits.le.trans hcap)).trans hbits

/-- Settles O34: the payload's first bits become the content of BITBUF, whatever the bits after them. -/
theorem unpackDropsPadding : Obligations.UnpackDropsPadding := by
  intro s p payload hp _ hne hr h8 hrem
  rw [exec_unpack, perfUnpack_of_header hne hr]
  refine ⟨fun hcap => by rw [unpackWith_of_overflow h8 hrem hcap, Perf.finish], fun hw hcap => ?_⟩
  have hexec := congrArg Perf.finish (unpackWith_of_fit h8 hrem hcap hw)
  have hn : 8 * (s.pkLen.toNat - 1) - p.toNat ≤ 8 * payload.length := by rw [length_of_written_payloadInput hw]; omega
  generalize 8 * (s.pkLen.toNat - 1) - p.toNat = n at hcap hexec hn ⊢
  have hbits := length_take_flatMap_bits8 hn
  have hlen := toNat_bitLen_putUnpacked (p := p) hp hn hcap
  refine ⟨_, _, _, hexec, hlen, ?_, ?_⟩
  · rw [putUnpacked_pad, BitVec.toNat_ofNat, Nat.mod_eq_of_lt (by omega)]
  rw [hlen, putUnpacked_bitbuf]
  refine ⟨?_, fun i hi ht => ?_, fun off h => ?_⟩
  · have hread := Memory.readBits_writeBitSeq s.bitbuf ((payload.flatMap bits8).take n)
    rwa [hbits] at hread
  · exact Memory.bitRead_writeBitSeq_tail s.bitbuf (hbits.le.trans hi) (by rwa [hbits])
  · exact Memory.read_writeBitSeq_of_le s.bitbuf (by rwa [hbits])

/-! ### The round trip -/

/-- R218: the first bits of the payload of a packed stream are the sequence, so that unpacking it puts the sequence into BITBUF. -/
theorem putUnpacked_packedStream (h : Byte) (x : List Bool) (s : State) :
    putUnpacked h x.length (packedStream x).tail s = { putBits x s with pad := BitVec.ofNat 4 h.toNat } := by
  rw [putUnpacked, flatMap_packedStream_tail, List.take_left]

/-- R218: UNPACK of the packed stream of a bit sequence that fits BITBUF gives the sequence and its padding count. -/
theorem perfUnpack_of_packedStream {s : State} {x : List Bool} (hlen : s.pkLen.toNat = packedLen x.length)
    (hw : Written (Memory.readBytes s.pkbuf 0 s.pkLen.toNat) (packedStream x)) (hcap : x.length ≤ s.par.bitCap) :
    perfUnpack s = .done { putBits x s with pad := BitVec.ofNat 4 (padCount x.length) } := by
  obtain ⟨-, hread⟩ := (Memory.readBytes_eq_map_some ..).1 hw
  have hn := packedLen_eq x.length
  have hpad := toNat_ofNat_padCount (w := 8) (by decide) x.length
  have hpos := padCount_pos x.length
  have hbits : 8 * (s.pkLen.toNat - 1) - padCount x.length = x.length := by rw [hlen, hn, padCount]; omega
  have hpayload : Written (payloadInput s) (packedStream x).tail := by
    refine (Memory.readBytes_eq_map_some ..).2 ⟨by rw [List.length_tail, length_packedStream, hlen], fun i hi => ?_⟩
    rw [List.getElem?_tail, ← hread (i + 1) (by omega), Nat.zero_add, Nat.add_comm]
  have hne : s.pkLen ≠ 0#32 := fun h => by rw [h, hn, BitVec.toNat_ofNat] at hlen; omega
  rw [perfUnpack_of_header hne (hread 0 (by omega)), unpackWith_of_fit (by omega) (by omega) (by omega) hpayload, hpad, hbits,
    putUnpacked_packedStream, hpad]

/-- Settles O35: PACK leaves the packed stream of the bits in PKBUF, and UNPACK takes it apart. -/
theorem packUnpackRoundTrip : Obligations.PackUnpackRoundTrip := by
  intro s x hp hcap hw
  have hlen := length_of_written_bitInput hw
  have hx : x.length ≤ s.par.bitCap := hlen ▸ hcap
  have hpk := toNat_pkLen_putPacked hp hx
  have hunpack := congrArg Perf.finish (perfUnpack_of_packedStream (s := complete (putPacked x s)) hpk
    (hpk ▸ written_pkbuf_putPacked s x) hx)
  have hlenU := toNat_bitLen_putBits hp hx
  refine ⟨_, _, exec_pack_of_written hp hcap hw, hunpack, BitVec.eq_of_toNat_eq (hlenU.trans hlen), ?_,
    toNat_ofNat_padCount le_rfl _, rfl⟩
  have hread := Memory.readBits_writeBitSeq s.bitbuf x
  rwa [← hlenU] at hread

end Sys2Proof.Machine

/-! ## 45_sequencer.md: command issue, and COMPRESS followed by DECOMPRESS -/

namespace Sys2Proof.Machine

/-! ### Command issue -/

/-- R231: with no error recorded every word is put in flight, and CLEAR's word always is. -/
theorem issue_of_accepted {w : Word} {s : State} (h : s.err = false ∨ w = clearWord) :
    issue w s = { s with pending := w, lastCmd := w, busy := true } :=
  if_neg fun ⟨herr, hne⟩ => h.elim (fun h => Bool.false_ne_true (h.symm.trans herr)) hne

/-- R231: while an error is recorded, a word other than CLEAR's only sets OVF. -/
theorem issue_of_dropped {w : Word} {s : State} (herr : s.err = true) (hne : w ≠ clearWord) :
    issue w s = { s with ovf := true } :=
  if_pos ⟨herr, hne⟩

/-- Settles O47: a write of CMD that is performed is an issue, which looks at the recorded error and at CLEAR's word only. -/
theorem commandIssue : Obligations.CommandIssue := by
  intro s w hr hb
  have hwrite := hostWrite_reg .cmd w s hr (.inl hb)
  refine ⟨fun h => hwrite.trans ?_, fun herr hne => hwrite.trans ?_⟩
  · rw [writeReg, issue_of_accepted h]; rfl
  · rw [writeReg, issue_of_dropped herr hne]; rfl

/-! ### The steps of COMPRESS -/

/-- R146: FC_CLEAR and FC_SCAN leave a map that counts the text. -/
theorem fcClear_andThen_fcScan {s : State} {syms : List Byte} (hw : Written (symInput s) syms) :
    ∃ cs, Counted cs syms ∧ (perfFcClear s).andThen perfFcScan = .done { s with count := cs } := by
  have hlen : syms.length < 2 ^ 32 := length_of_written_symInput hw ▸ s.symLen.isLt
  obtain ⟨cs, hadd, hloop⟩ := countSymbols_fit noCounts 0 syms (countsFit_noCounts hlen)
  refine ⟨cs, counted_of_added_to_noCounts hadd, ?_⟩
  show perfCount (symInput s) { s with count := noCounts } = _
  rw [hw, perfCount, hloop]

/-- R200: the loop over written symbols concatenates their codes, all of which are entries, or stops with an error. -/
theorem encodeFrom_map_some (t : Codes) (cap pos : Nat) (out : List Bool) (syms : List Byte) :
    (AllCoded t syms ∧ encodeFrom t cap pos out (syms.map some) = .ok (out ++ codesOf t syms)) ∨
    ∃ e v, encodeFrom t cap pos out (syms.map some) = .error (.raise e v) := by
  induction syms generalizing pos out with
  | nil =>
    rw [codesOf_nil, List.append_nil]
    exact .inl ⟨List.forall_mem_nil _, rfl⟩
  | cons x xs ih =>
    rw [List.map_cons, encodeFrom]
    split_ifs with hx
    · exact .inr ⟨_, _, rfl⟩
    · exact .inr ⟨_, _, rfl⟩
    · rw [codesOf_cons, ← List.append_assoc]
      refine (ih (pos + 1) (out ++ codeAt t x)).imp_left fun ⟨hc, hok⟩ => ⟨List.forall_mem_cons.2 ⟨fun h => hx ?_, hc⟩, hok⟩
      rw [codeLen, h, List.length_nil]

/-- R200: ENCODE of written symbols with a table. -/
theorem perfEncode_of_written {s : State} {syms : List Byte} (hv : s.tableValid = true) (hw : Written (symInput s) syms) :
    (AllCoded s.code syms ∧ (codesOf s.code syms).length ≤ s.par.bitCap ∧
      perfEncode s = .done (putBits (codesOf s.code syms) s)) ∨
    ∃ e v, perfEncode s = .raised e v [.bitbuf] s := by
  rw [perfEncode, if_pos hv, hw]
  rcases encodeFrom_map_some s.code s.par.bitCap 0 [] syms with ⟨hc, hok⟩ | ⟨e, v, herr⟩
  · exact .inl ⟨hc, encodeFrom_length_le _ _ _ _ _ _ (Nat.zero_le _) hok, by rw [hok]; rfl⟩
  · exact .inr ⟨e, v, by rw [herr]; rfl⟩

/-- R85: the bit sequence that a command put into BITBUF is the input of the next one. -/
theorem written_bitInput_putBits {s : State} {x : List Bool} (hp : s.par.wf = true) (hx : x.length ≤ s.par.bitCap) :
    Written (bitInput (putBits x s)) x := by
  rw [Written, bitInput, toNat_bitLen_putBits hp hx, putBits_bitbuf]
  exact Memory.readBits_writeBitSeq s.bitbuf x

/-- R236: the state that the first four steps of COMPRESS leave, with the tree and the table of the map `cs`. -/
def compressTables (cs : Counts) (s : State) : State := installTable (installTree cs (clearTables { s with count := cs }))

/-- R182: that table is the table of the map. -/
theorem compressTables_code (cs : Counts) (s : State) : (compressTables cs s).code = tableOf cs := rfl

/-- R236: with a map that is not empty, TB_BUILD and CT_GEN are done. -/
theorem tbBuild_andThen_ctGen {cs : Counts} (h0 : numSyms cs ≠ 0) (s : State) :
    ((Perf.done { s with count := cs }).andThen perfTbBuild).andThen perfCtGen = .done (compressTables cs s) := by
  rw [Perf.andThen, perfTbBuild, if_neg h0, Perf.andThen, perfCtGen, if_pos (installTree_treeValid ..), compressTables]

/-- R236, R237: what COMPRESS of a written text can come to: EMPTY_HISTOGRAM, an error of ENCODE, or done with the packed codes. -/
theorem perfCompress_cases {s : State} {syms : List Byte} (hp : s.par.wf = true) (hw : Written (symInput s) syms) :
    ∃ cs, Counted cs syms ∧
      ((numSyms cs = 0 ∧
          perfCompress s = .raised .emptyHistogram 0#32 [.pkbuf] (clearTables { s with count := cs })) ∨
       (numSyms cs ≠ 0 ∧ ∃ e v, perfCompress s = .raised e v [.bitbuf, .pkbuf] (compressTables cs s)) ∨
       (numSyms cs ≠ 0 ∧ AllCoded (tableOf cs) syms ∧ (codesOf (tableOf cs) syms).length ≤ s.par.bitCap ∧
          perfCompress s = .done (putPacked (codesOf (tableOf cs) syms)
            (putBits (codesOf (tableOf cs) syms) (compressTables cs s))))) := by
  obtain ⟨cs, hcounted, hcount⟩ := fcClear_andThen_fcScan hw
  refine ⟨cs, hcounted, ?_⟩
  rw [perfCompress, compressSteps, hcount]
  by_cases h0 : numSyms cs = 0
  · exact .inl ⟨h0, by rw [Perf.andThen, perfTbBuild, if_pos h0]; rfl⟩
  rw [tbBuild_andThen_ctGen h0, Perf.andThen]
  rcases perfEncode_of_written (s := compressTables cs s) rfl hw with ⟨hc, hfit, hencode⟩ | ⟨e, v, hencode⟩
  · have hpack := perfPack_of_fit (written_bitInput_putBits (s := compressTables cs s) hp hfit)
      (packedLen_le_pkCap hp ((toNat_bitLen_putBits hp hfit).trans_le hfit))
    exact .inr (.inr ⟨h0, hc, hfit, by rw [hencode, Perf.andThen, ← compressTables_code cs s, hpack]; rfl⟩)
  · exact .inr (.inl ⟨h0, e, v, by rw [hencode]; rfl⟩)

/-- R280: an error raised by a command does not set DONE. -/
theorem getLsbD_intStat_raiseError (e : ErrCode) (v : Word) (outs : List Buf) (s : State) :
    (raiseError e v outs s).intStat.getLsbD 0 = s.intStat.getLsbD 0 := by
  rw [raiseError_intStat, recordError_intStat]
  split_ifs
  · rfl
  · exact getLsbD_setErri_zero _

/-- R212: PKBUF and PK_LEN hold the packed stream of a bit sequence. -/
def HoldsPacked (s : State) (x : List Bool) : Prop :=
  s.pkLen.toNat = packedLen x.length ∧ Written (Memory.readBytes s.pkbuf 0 s.pkLen.toNat) (packedStream x)

/-- R212: PACK leaves the packed stream. -/
theorem holdsPacked_putPacked {s : State} {x : List Bool} (hp : s.par.wf = true) (hx : x.length ≤ s.par.bitCap) :
    HoldsPacked (putPacked x s) x := by
  have hlen := toNat_pkLen_putPacked hp hx
  exact ⟨hlen, hlen ▸ written_pkbuf_putPacked s x⟩

/-- R239: the packed stream is in PKBUF below PK_LEN. -/
theorem HoldsPacked.of_bufRead_eq {s t : State} {x : List Bool} (h : HoldsPacked s x) (hlen : t.pkLen = s.pkLen)
    (hread : ∀ off < s.pkLen.toNat, bufRead t .pkbuf off = bufRead s .pkbuf off) : HoldsPacked t x := by
  have hbytes : Memory.readBytes t.pkbuf 0 s.pkLen.toNat = Memory.readBytes s.pkbuf 0 s.pkLen.toNat :=
    List.map_congr_left fun i hi => by rw [Nat.zero_add]; exact hread i (List.mem_range.1 hi)
  rwa [HoldsPacked, hlen, hbytes]

/-- R236: COMPRESS of a written text that sets DONE leaves the packed codes of the text, by a prefix-free table with all its
symbols. -/
theorem compress_of_done {s t : State} {syms : List Byte} (hp : s.par.wf = true) (hw : Written (symInput s) syms)
    (h0 : s.intStat.getLsbD 0 = false) (hexec : exec .compress s = .next t) (h1 : t.intStat.getLsbD 0 = true) :
    PrefixFree t.code ∧ AllCoded t.code syms ∧ (codesOf t.code syms).length ≤ s.par.bitCap ∧
      HoldsPacked t (codesOf t.code syms) := by
  have hraised {e v outs u} (h : perfCompress s = .raised e v outs u) (hu : u.intStat = s.intStat) : False := by
    have ht : exec .compress s = .next (raiseError e v outs u) := congrArg Perf.finish h
    cases hexec.symm.trans ht
    rw [getLsbD_intStat_raiseError, hu, h0] at h1
    cases h1
  obtain ⟨cs, -, ⟨-, h⟩ | ⟨-, e, v, h⟩ | ⟨hne, hc, hfit, h⟩⟩ := perfCompress_cases hp hw
  · exact (hraised h rfl).elim
  · exact (hraised h rfl).elim
  · have ht : exec .compress s = .next (complete _) := congrArg Perf.finish h
    cases hexec.symm.trans ht
    exact ⟨(tableIsPrefixFreeAndComplete cs hne).1, hc, hfit,
      holdsPacked_putPacked (s := putBits (codesOf (tableOf cs) syms) (compressTables cs s)) hp hfit⟩

/-! ### DECOMPRESS of a packed stream -/

/-- R254: DECODE of the codes of symbols that fit SYMBUF is done with the symbols. -/
theorem perfDecode_of_codes {s : State} {syms : List Byte} (hv : s.tableValid = true) (hpre : PrefixFree s.code)
    (hc : AllCoded s.code syms) (hw : Written (bitInput s) (codesOf s.code syms)) (hfit : syms.length ≤ s.par.symCap) :
    perfDecode s = .done (putSymbols syms s) := by
  obtain ⟨start, hloop⟩ := decodeFrom_codes s.code s.par.symCap 0 0 [] [] hpre syms hc (by rwa [List.length_nil, Nat.zero_add])
  rw [List.append_nil, List.nil_append, decodeFrom, if_pos rfl] at hloop
  rw [perfDecode, if_pos hv, hw, hloop]

/-- R250: the symbols that DECODE put into SYMBUF are the input of a later command. -/
theorem written_symInput_putSymbols (s : State) {syms : List Byte} (h : syms.length < 2 ^ 32) :
    Written (symInput (putSymbols syms s)) syms := by
  have hlen : syms.length = (putSymbols syms s).symLen.toNat := by
    rw [putSymbols_symLen, BitVec.toNat_ofNat, Nat.mod_eq_of_lt h]
  refine (Memory.readBytes_eq_map_some ..).2 ⟨hlen, fun i hi => ?_⟩
  rw [putSymbols_symbuf, Memory.read_writeBytes, if_pos (by omega), Nat.zero_add, Nat.sub_zero]

/-- R238: DECOMPRESS of the packed stream of the codes of symbols completes with the symbols, and with the codes in BITBUF. -/
theorem exec_decompress_of_holdsPacked {s : State} {syms : List Byte} {x : List Bool} (hp : s.par.wf = true)
    (hv : s.tableValid = true) (hpre : PrefixFree s.code) (hc : AllCoded s.code syms) (hx : x = codesOf s.code syms)
    (hpacked : HoldsPacked s x) (hbits : x.length ≤ s.par.bitCap) (hsyms : syms.length ≤ s.par.symCap) :
    exec .decompress s =
      .next (complete (putSymbols syms { putBits x s with pad := BitVec.ofNat 4 (padCount x.length) })) := by
  obtain ⟨hlen, hw⟩ := hpacked
  have hperf : perfDecompress s = .done (putSymbols syms { putBits x s with pad := BitVec.ofNat 4 (padCount x.length) }) := by
    rw [perfDecompress, if_pos hv, Perf.withFinalOutput_eq_done, decompressSteps, perfUnpack_of_packedStream hlen hw hbits]
    exact perfDecode_of_codes hv hpre hc (hx ▸ written_bitInput_putBits hp hbits) hsyms
  exact congrArg Perf.finish hperf

/-! ### The round trip -/

/-- Settles O42: COMPRESS that completes leaves the packed codes of the text, and DECOMPRESS looks at nothing but the table and
the stream. -/
theorem compressDecompressRoundTrip : Obligations.CompressDecompressRoundTrip := by
  intro s t u syms hp hcap hw h0 hexec h1 hpar hv hcode hpk hbuf
  obtain ⟨hpre, hc, hbits, hpacked⟩ := compress_of_done hp hw h0 hexec h1
  have hsyms := length_of_written_symInput hw
  rw [← hcode] at hpre hc hbits hpacked
  rw [← hpar] at hp hbits hcap
  have hdecompress := exec_decompress_of_holdsPacked hp hv hpre hc rfl (hpacked.of_bufRead_eq hpk hbuf) hbits
    (hsyms.trans_le hcap)
  refine ⟨_, hdecompress, getLsbD_setDone_zero _, ?_, written_symInput_putSymbols _ (hsyms ▸ s.symLen.isLt)⟩
  rw [complete_symLen, putSymbols_symLen, hsyms, BitVec.ofNat_toNat, BitVec.setWidth_eq]

end Sys2Proof.Machine

/-! ## 46_decoding_unit.md: DECODE -/

namespace Sys2Proof.Machine

/-- With legal parameters, SYM_LEN holds the number of symbols that fit SYMBUF. -/
theorem toNat_symLen_putSymbols {s : State} {syms : List Byte} (hp : s.par.wf = true) (hfit : syms.length ≤ s.par.symCap) :
    (putSymbols syms s).symLen.toNat = syms.length := by
  obtain ⟨-, hcap, -⟩ := params_bounds s.par hp
  rw [putSymbols_symLen, BitVec.toNat_ofNat, Nat.mod_eq_of_lt (by omega)]

/-- R254: DECODE of the codes of symbols that fit SYMBUF completes with the symbols. -/
theorem exec_decode_of_codes {s : State} {syms : List Byte} (hv : s.tableValid = true) (hpre : PrefixFree s.code)
    (hc : AllCoded s.code syms) (hw : Written (bitInput s) (codesOf s.code syms)) (hfit : syms.length ≤ s.par.symCap) :
    exec .decode s = .next (complete (putSymbols syms s)) :=
  congrArg Perf.finish (perfDecode_of_codes hv hpre hc hw hfit)

/-- Settles O36: no code begins another, so the loop cuts the bits where the codes end, and SYMBUF holds the symbols from byte 0. -/
theorem decodeRecoversSymbols : Obligations.DecodeRecoversSymbols := by
  intro s syms hp hv hpre hc hw hfit
  refine ⟨_, _, exec_decode_of_codes hv hpre hc hw hfit, toNat_symLen_putSymbols hp hfit, fun i hi => ?_, fun off hoff => ?_⟩
  · rw [putSymbols_symbuf, Memory.read_writeBytes, if_pos (by omega), Nat.sub_zero]
  · exact Memory.read_writeBytes_of_lt s.symbuf 0 off syms (.inr (by omega))

end Sys2Proof.Machine

/-! ## 60_exceptions.md: a word that is not legal -/

namespace Sys2Proof.Machine

/-- R116, R117: the words that are not legal are those that decode to no command. -/
theorem decode_eq_none_iff (w : Word) : decode w = none ↔ legalWord w = false := by
  have hlegal : legalWord w = true ↔ ∃ i, decode w = some i := by
    simp only [legalWord_iff_exists_encode, decode_eq_some_iff]
  rw [Option.eq_none_iff_forall_ne_some, ← Bool.not_eq_true, hlegal, not_exists]

/-- R9: a step at the engine's turn is the engine's, in the state without that turn. -/
theorem step_of_engine_turn {s : State} (h : s.inputs = [] ∨ s.inputs.head? = some .engine) :
    step s = engineStep { s with inputs := s.inputs.tail } := by
  have hturn : nextTurn s = (.engine, s.inputs.tail) := by
    rw [nextTurn]
    rcases h with h | h
    · rw [h]; rfl
    · obtain ⟨rest, h⟩ := List.head?_eq_some_iff.1 h
      rw [h]; rfl
  rw [step, hturn, runTurn]

/-- R230: the word the engine performs is PENDING while BUSY = 1 and the reset input is released. -/
theorem fetch_of_busy {s : State} (hb : s.busy = true) (hr : s.resetPin = false) : fetch s = some s.pending :=
  if_pos ⟨hb, hr⟩

/-- R276: the engine's step for a fetched word that decodes to no command raises ILLEGAL_COMMAND, with no output to clear. -/
theorem engineStep_of_decode_eq_none {s : State} {w : Word} (hf : fetch s = some w) (hd : decode w = none) :
    engineStep s = .next (raiseError .illegalCommand w [] s) := by
  simp only [engineStep, hf, hd]
  rfl

/-- Settles O4: the word in flight decodes to no command, and a raise that clears no output only records the error and ends the
command. -/
theorem illegalWordRecordsItself : Obligations.IllegalWordRecordsItself := by
  refine ⟨rfl, fun s hb hr hturn hw => ?_⟩
  rw [step_of_engine_turn hturn]
  exact engineStep_of_decode_eq_none (fetch_of_busy hb hr) ((decode_eq_none_iff _).2 hw)

end Sys2Proof.Machine

/-! ## Every command: what it comes to, and the parts of the state it works on -/

namespace Sys2Proof.Machine

/-! ### A command as a performance -/

/-- R230: what performing a command comes to, before the end of the engine's step. -/
def perform (i : Instr) (s : State) : Perf :=
  match i with
  | .nop => .done s
  | .clear => .done (cleared s)
  | .fcClear => perfFcClear s
  | .fcAdd1 s0 => perfCount (lanes [s0]) s
  | .fcAdd2 s0 s1 => perfCount (lanes [s0, s1]) s
  | .fcAdd3 s0 s1 s2 => perfCount (lanes [s0, s1, s2]) s
  | .fcScan => perfFcScan s
  | .tbBuild => perfTbBuild s
  | .ctGen => perfCtGen s
  | .encode => perfEncode s
  | .pack => perfPack s
  | .unpack => perfUnpack s
  | .decode => perfDecode s
  | .compress => perfCompress s
  | .decompress => perfDecompress s

theorem exec_eq_finish (i : Instr) (s : State) : exec i s = (perform i s).finish := by cases i <;> rfl

/-! ### How a performance ends -/

/-- R8: a performance that is done is so in a state with `D`; one that raises has `R` of its error, its outputs and the state it
has reached; a stop at an unwritten byte leaves nothing to say. -/
def Perf.Ends (D : State → Prop) (R : ErrCode → List Buf → State → Prop) : Perf → Prop
  | .done s => D s
  | .raised e _ outs s => R e outs s
  | .unwritten _ _ => True

section

variable {D D' : State → Prop} {R R' : ErrCode → List Buf → State → Prop} {p : Perf} {s : State}

/-- R235: a pipeline's step runs in a state in which the steps before it were done. -/
theorem Perf.Ends.andThen {f : State → Perf} (hp : p.Ends D R) (hf : ∀ s, D s → (f s).Ends D' R) :
    (p.andThen f).Ends D' R := by
  cases p with
  | done s => exact hf s hp
  | raised e v outs s => exact hp
  | unwritten b off => trivial

theorem Perf.Ends.withFinalOutput {b : Buf} (hp : p.Ends D R) (hR : ∀ e outs s, R e outs s → R' e (outs ++ [b]) s) :
    (p.withFinalOutput b).Ends D R' := by
  cases p with
  | done s => exact hp
  | raised e v outs s => exact hR e outs s hp
  | unwritten b off => trivial

theorem Perf.Ends.mono (hp : p.Ends D R) (hD : ∀ s, D s → D' s) (hR : ∀ e outs s, R e outs s → R' e outs s) :
    p.Ends D' R' := by
  cases p with
  | done s => exact hD s hp
  | raised e v outs s => exact hR e outs s hp
  | unwritten b off => trivial

/-- R230, R280: a command that answers a next state completed, or raised an error. -/
theorem Perf.Ends.finish {t : State} (hp : p.Ends D R) (h : p.finish = .next t) :
    (∃ u, D u ∧ t = complete u) ∨ ∃ e v outs u, R e outs u ∧ t = raiseError e v outs u := by
  obtain ⟨u, rfl, rfl⟩ | ⟨e, v, outs, u, rfl, rfl⟩ := p.finish_eq_next t h
  · exact .inl ⟨u, hp, rfl⟩
  · exact .inr ⟨e, v, outs, u, hp, rfl⟩

/-! ### What each unit can end in -/

/-- R141: the counting loop raises no error but COUNT_OVERFLOW. -/
theorem stop_of_countSymbols {cs : Counts} {pos : Nat} {l : List (Option Byte)} {st : Stop}
    (h : (countSymbols cs pos l).2 = some st) :
    (∃ v, st = .raise .countOverflow v) ∨ ∃ off, st = .unwritten .symbuf off := by
  induction l generalizing cs pos with
  | nil => cases h
  | cons a l ih =>
    cases a with
    | none => cases h; exact .inr ⟨_, rfl⟩
    | some x =>
      rw [countSymbols] at h
      split_ifs at h
      · cases h; exact .inl ⟨_, rfl⟩
      · exact ih h

theorem perfCount_ends {l : List (Option Byte)} (hdone : D { s with count := (countSymbols s.count 0 l).1 })
    (hraise : R .countOverflow [] { s with count := (countSymbols s.count 0 l).1 }) : (perfCount l s).Ends D R := by
  rcases hloop : countSymbols s.count 0 l with ⟨cs, _ | st⟩ <;> rw [hloop] at hdone hraise <;> rw [perfCount, hloop]
  · exact hdone
  · obtain ⟨v, rfl⟩ | ⟨off, rfl⟩ := stop_of_countSymbols (congrArg Prod.snd hloop)
    · exact hraise
    · trivial

theorem perfTbBuild_ends (hdone : numSyms s.count ≠ 0 → D (installTree s.count (clearTables s)))
    (hraise : R .emptyHistogram [] (clearTables s)) : (perfTbBuild s).Ends D R := by
  obtain ⟨h, -⟩ | ⟨h, h0⟩ := perfTbBuild_cases s <;> rw [h]
  · exact hraise
  · exact hdone h0

theorem perfCtGen_ends (hdone : s.treeValid = true → D (installTable s)) (hraise : R .sequence [] s) :
    (perfCtGen s).Ends D R := by
  obtain ⟨h, hv⟩ | ⟨h, -⟩ := perfCtGen_cases s <;> rw [h]
  · exact hdone hv
  · exact hraise

theorem perfEncode_ends (hdone : ∀ x : List Bool, x.length ≤ s.par.bitCap → D (putBits x s))
    (hraise : ∀ e, e ≠ .noError → R e [.bitbuf] s) : (perfEncode s).Ends D R := by
  obtain ⟨x, h, -, hx⟩ | ⟨h, -⟩ | ⟨e, v, h, -, he⟩ | ⟨off, h⟩ := perfEncode_cases s <;> rw [h]
  · exact hdone x hx
  · exact hraise _ nofun
  · exact hraise e (by rintro rfl; simp at he)
  · trivial

theorem perfPack_ends (hdone : ∀ x : List Bool, packedLen x.length ≤ s.par.pkCap → D (putPacked x s))
    (hraise : R .resource [.pkbuf] s) : (perfPack s).Ends D R := by
  obtain ⟨x, h, -, -, hx⟩ | ⟨v, h, -⟩ | ⟨off, h⟩ := perfPack_cases s <;> rw [h]
  · exact hdone x hx
  · exact hraise
  · trivial

theorem perfUnpack_ends
    (hdone : ∀ (p : Byte) (n : Nat) (payload : List Byte), p.toNat ≤ 8 → n ≤ s.par.bitCap →
      D (putUnpacked p n payload s))
    (hraise : ∀ e, e ≠ .noError → R e [.bitbuf] s) : (perfUnpack s).Ends D R := by
  obtain ⟨p, payload, h, h8, -, hcap, -⟩ | ⟨e, v, h, he⟩ | ⟨off, h⟩ := perfUnpack_cases s <;> rw [h]
  · exact hdone p _ payload h8 hcap
  · exact hraise e (by rintro rfl; simp at he)
  · trivial

theorem perfDecode_ends (hdone : ∀ xs : List Byte, xs.length ≤ s.par.symCap → D (putSymbols xs s))
    (hraise : ∀ e, e ≠ .noError → R e [.symbuf] s) : (perfDecode s).Ends D R := by
  obtain ⟨xs, h, -, hxs⟩ | ⟨h, -⟩ | ⟨e, v, h, -, he⟩ | ⟨off, h⟩ := perfDecode_cases s <;> rw [h]
  · exact hdone xs hxs
  · exact hraise _ nofun
  · exact hraise e (by rintro rfl; simp at he)
  · trivial

/-- R238: DECOMPRESS raises SEQUENCE in the state as it was, or is its two steps. -/
theorem perfDecompress_ends (hsteps : ((decompressSteps s).withFinalOutput .symbuf).Ends D R)
    (hraise : R .sequence [] s) : (perfDecompress s).Ends D R := by
  rw [perfDecompress]
  split_ifs
  · exact hsteps
  · exact hraise

end

end Sys2Proof.Machine

/-! ## 10_state.md section 6: the invariant -/

namespace Sys2Proof.Machine

section

variable {s : State}

/-- R300: the state after reset meets the invariant, for all legal parameters. -/
theorem stateInv_resetOf {p : Params} (hp : p.wf = true) : StateInv (State.resetOf p) where
  params := hp
  symLenFits := Nat.zero_le _
  bitLenFits := Nat.zero_le _
  pkLenFits := Nat.zero_le _
  bufWf b := by cases b <;> rfl
  bufBelow b := by cases b <;> rfl
  padRange := Nat.zero_le _
  noTree _ := ⟨rfl, rfl, nodeAt_noNodes⟩
  tree := nofun
  noTable _ := ⟨codeAt_noCodes, rfl⟩
  table := nofun
  noError _ := ⟨rfl, rfl, rfl⟩
  errorNamed := nofun
  pendingHeld := nofun
  idleInReset _ := rfl

/-- Settles O6: the default parameters are legal. -/
theorem resetMeetsInvariant : Obligations.ResetMeetsInvariant := stateInv_resetOf (by decide)

/-! ### Errors and the end of a command -/

theorem StateInv.recordError (h : StateInv s) {e : ErrCode} (he : e ≠ .noError) (v : Word) :
    StateInv (recordError e v s) := by
  rw [Machine.recordError]
  split_ifs with herr
  · exact { h with noError := fun h0 => absurd herr (by rw [h0]; decide) }
  · exact { h with noError := nofun, errorNamed := fun _ => he }

theorem StateInv.complete (h : StateInv s) : StateInv (complete s) :=
  { h with pendingHeld := nofun, idleInReset := fun _ => rfl }

theorem StateInv.ackError (h : StateInv s) : StateInv (ackError s) :=
  { h with noError := fun _ => ⟨rfl, rfl, rfl⟩, errorNamed := nofun }

/-! ### Buffers and lengths -/

theorem content_put (s : State) (m : Memory) (b c : Buf) : c.content (b.put s m) = if c = b then m else c.content s := by
  cases b <;> cases c <;> rfl

theorem StateInv.put (h : StateInv s) (b : Buf) {m : Memory} (hwf : Memory.wf m = true)
    (hbelow : Memory.below (b.capacity s.par) m = true) : StateInv (b.put s m) := by
  have hw (c : Buf) : Memory.wf (c.content (b.put s m)) = true := by
    rw [content_put]
    split_ifs
    · exact hwf
    · exact h.bufWf c
  have hb (c : Buf) : Memory.below (c.capacity s.par) (c.content (b.put s m)) = true := by
    rw [content_put]
    split_ifs with hc
    · exact hc ▸ hbelow
    · exact h.bufBelow c
  cases b <;> exact { h with bufWf := hw, bufBelow := hb }

/-- R51, R100: a write of bytes that ends within the buffer's capacity. -/
theorem StateInv.putBytes (h : StateInv s) (b : Buf) {k : Nat} {bs : List Byte} (hk : k + bs.length ≤ b.capacity s.par) :
    StateInv (b.put s (Memory.writeBytes (b.content s) k bs)) :=
  h.put b (Memory.wf_writeBytes _ k bs (h.bufWf b)) (Memory.below_writeBytes _ _ k bs hk (h.bufBelow b))

theorem StateInv.clearOutput (h : StateInv s) (b : Buf) : StateInv (clearOutput b s) := by
  have hput := h.put b (m := []) rfl rfl
  cases b with
  | symbuf => exact { hput with symLenFits := Nat.zero_le _ }
  | bitbuf => exact { hput with bitLenFits := Nat.zero_le _ }
  | pkbuf => exact { hput with pkLenFits := Nat.zero_le _ }

theorem StateInv.clearOutputs (h : StateInv s) (bs : List Buf) : StateInv (clearOutputs bs s) := by
  induction bs generalizing s with
  | nil => exact h
  | cons b bs ih => exact ih (h.clearOutput b)

theorem StateInv.raiseError (h : StateInv s) {e : ErrCode} (he : e ≠ .noError) (v : Word) (outs : List Buf) :
    StateInv (raiseError e v outs s) :=
  { (h.recordError he v).clearOutputs outs with pendingHeld := nofun, idleInReset := fun _ => rfl }

/-- R85, R31: a bit sequence that fits BITBUF. -/
theorem StateInv.putBits (h : StateInv s) {x : List Bool} (hx : x.length ≤ s.par.bitCap) : StateInv (putBits x s) := by
  obtain ⟨-, -, h8, -⟩ := params_bounds s.par h.params
  have hbytes : 0 + (bitsToBytes x).length ≤ Buf.bitbuf.capacity s.par := by
    rw [length_bitsToBytes, Buf.capacity]
    omega
  exact { h.putBytes .bitbuf hbytes with bitLenFits := (toNat_bitLen_putBits h.params hx).trans_le hx }

/-- R212, R32, R39: a packed stream that fits PKBUF. -/
theorem StateInv.putPacked (h : StateInv s) {x : List Bool} (hx : packedLen x.length ≤ s.par.pkCap) :
    StateInv (putPacked x s) := by
  have hbytes : 0 + (packedStream x).length ≤ Buf.pkbuf.capacity s.par := by rwa [Nat.zero_add, length_packedStream]
  exact { h.putBytes .pkbuf hbytes with
    pkLenFits := (Nat.mod_le _ _).trans hx
    padRange := (toNat_ofNat_padCount le_rfl _).trans_le (padCount_pos _).2 }

/-- R215, R39: unpacked bits that fit BITBUF, and an accepted header as PAD. -/
theorem StateInv.putUnpacked (h : StateInv s) {p : Byte} {n : Nat} (payload : List Byte) (hp : p.toNat ≤ 8)
    (hn : n ≤ s.par.bitCap) : StateInv (putUnpacked p n payload s) :=
  { h.putBits ((List.length_take_le n _).trans hn) with padRange := (Nat.mod_le _ _).trans hp }

/-- R250, R30: symbols that fit SYMBUF. -/
theorem StateInv.putSymbols (h : StateInv s) {xs : List Byte} (hx : xs.length ≤ s.par.symCap) : StateInv (putSymbols xs s) :=
  { h.putBytes .symbuf ((Nat.zero_add _).trans_le hx) with
    symLenFits := (toNat_symLen_putSymbols h.params hx).trans_le hx }

/-! ### The tree and the table -/

theorem StateInv.clearTables (h : StateInv s) : StateInv (clearTables s) :=
  { h with
    noTree := fun _ => ⟨rfl, rfl, nodeAt_noNodes⟩
    tree := nofun
    noTable := fun _ => ⟨codeAt_noCodes, rfl⟩
    table := nofun }

/-- R161: TB_BUILD of a map that is not empty leaves its tree, and no table. -/
theorem StateInv.installTree (h : StateInv s) {cs : Counts} (h0 : numSyms cs ≠ 0) :
    StateInv (installTree cs (Machine.clearTables s)) :=
  { h.clearTables with noTree := nofun, tree := fun _ => ⟨cs, h0, rfl, rfl, rfl⟩, table := nofun }

theorem StateInv.installTable (h : StateInv s) (hv : s.treeValid = true) : StateInv (installTable s) :=
  { h with noTable := nofun, table := fun _ => ⟨hv, rfl, rfl⟩ }

/-- R234: CLEAR leaves the parameters and the buffers, which the invariant restricts, and empties the rest. -/
theorem StateInv.cleared (h : StateInv s) : StateInv (cleared s) :=
  { stateInv_resetOf h.params with
    bufWf := h.bufWf, bufBelow := h.bufBelow, pendingHeld := nofun, idleInReset := fun _ => rfl }

/-! ### The commands -/

/-- The invariant holds wherever a performance ends, and its error has a name. -/
abbrev Perf.KeepsInv (p : Perf) : Prop := p.Ends StateInv fun e _ t => e ≠ .noError ∧ StateInv t

theorem perfCount_keepsInv (h : StateInv s) (l : List (Option Byte)) : (perfCount l s).KeepsInv :=
  perfCount_ends { h with } ⟨nofun, { h with }⟩

theorem perfTbBuild_keepsInv (h : StateInv s) : (perfTbBuild s).KeepsInv :=
  perfTbBuild_ends h.installTree ⟨nofun, h.clearTables⟩

theorem perfCtGen_keepsInv (h : StateInv s) : (perfCtGen s).KeepsInv := perfCtGen_ends h.installTable ⟨nofun, h⟩

theorem perfEncode_keepsInv (h : StateInv s) : (perfEncode s).KeepsInv :=
  perfEncode_ends (fun _ => h.putBits) fun _ he => ⟨he, h⟩

theorem perfPack_keepsInv (h : StateInv s) : (perfPack s).KeepsInv := perfPack_ends (fun _ => h.putPacked) ⟨nofun, h⟩

theorem perfUnpack_keepsInv (h : StateInv s) : (perfUnpack s).KeepsInv :=
  perfUnpack_ends (fun _ _ payload => h.putUnpacked payload) fun _ he => ⟨he, h⟩

theorem perfDecode_keepsInv (h : StateInv s) : (perfDecode s).KeepsInv :=
  perfDecode_ends (fun _ => h.putSymbols) fun _ he => ⟨he, h⟩

theorem perform_keepsInv (i : Instr) (h : StateInv s) : (perform i s).KeepsInv := by
  cases i with
  | nop => exact h
  | clear => exact h.cleared
  | fcClear => exact { h with }
  | fcAdd1 | fcAdd2 | fcAdd3 | fcScan => exact perfCount_keepsInv h _
  | tbBuild => exact perfTbBuild_keepsInv h
  | ctGen => exact perfCtGen_keepsInv h
  | encode => exact perfEncode_keepsInv h
  | pack => exact perfPack_keepsInv h
  | unpack => exact perfUnpack_keepsInv h
  | decode => exact perfDecode_keepsInv h
  | compress =>
    have hclear : (perfFcClear s).KeepsInv := { h with }
    exact (((((hclear.andThen fun _ h => perfCount_keepsInv h _).andThen fun _ => perfTbBuild_keepsInv).andThen
      fun _ => perfCtGen_keepsInv).andThen fun _ => perfEncode_keepsInv).andThen
      fun _ => perfPack_keepsInv).withFinalOutput fun _ _ _ => id
  | decompress =>
    exact perfDecompress_ends
      (((perfUnpack_keepsInv h).andThen fun _ => perfDecode_keepsInv).withFinalOutput fun _ _ _ => id) ⟨nofun, h⟩

theorem StateInv.exec {i : Instr} {t : State} (h : StateInv s) (ht : exec i s = .next t) : StateInv t := by
  rw [exec_eq_finish] at ht
  obtain ⟨u, hu, rfl⟩ | ⟨e, v, outs, u, ⟨he, hu⟩, rfl⟩ := (perform_keepsInv i h).finish ht
  · exact hu.complete
  · exact hu.raiseError he v outs

/-! ### The host's accesses -/

theorem StateInv.answer (h : StateInv s) (r : BusResponse) : StateInv (answer r s) := { h with }

theorem StateInv.protocolError (h : StateInv s) (off : Offset) : StateInv (protocolError off s) := 
  h.recordError (e := .protocol) nofun _

theorem StateInv.hostRead {off : Offset} {w : Width} {t : State} (h : StateInv s) (ht : hostRead off w s = .next t) :
    StateInv t := by
  obtain ⟨-, ⟨-, rfl⟩ | ⟨g, -, -, -, rfl⟩ | ⟨g, v, -, -, -, rfl⟩⟩ := hostRead_cases off w s t ht
  · exact h.answer _
  · exact { h.protocolError off with }
  · exact h.answer _

/-- R33: a length is written only within its capacity. -/
theorem StateInv.writeLen (h : StateInv s) {cap : Nat} {v : Word} {t : State} (ht : v.toNat ≤ cap → StateInv t) :
    StateInv (writeLen cap v s t) := by
  rw [Machine.writeLen]
  split_ifs with hv
  · exact ht hv
  · exact h.recordError (e := .resource) nofun v

/-- R231: an issue puts the word in PENDING and LAST_CMD alike, and happens only with the reset input released. -/
theorem StateInv.issue (h : StateInv s) (hr : s.resetPin = false) (v : Word) : StateInv (issue v s) := by
  rw [Machine.issue]
  split_ifs with herr
  · exact { h with noError := fun h0 => absurd herr.1 (by rw [h0]; decide) }
  · exact { h with pendingHeld := fun _ => rfl, idleInReset := fun h1 => absurd (hr.symm.trans h1) (by decide) }

theorem StateInv.writeReg (h : StateInv s) (hr : s.resetPin = false) (v : Word) (r : Reg) : StateInv (writeReg v s r) := by
  cases r with
  | cmd => exact h.issue hr v
  | errAck =>
    rw [Machine.writeReg]
    split_ifs
    · exact h.ackError
    · exact h
  | intEn | intStat => exact { h with }
  | symLen => exact h.writeLen fun hv => { h with symLenFits := hv }
  | bitLen => exact h.writeLen fun hv => { h with bitLenFits := hv }
  | pkLen => exact h.writeLen fun hv => { h with pkLenFits := hv }
  | _ => exact h

theorem length_leBytes (n : Nat) (v : Word) : (leBytes n v).length = n := by
  rw [leBytes, List.length_map, List.length_range]

theorem StateInv.writeTarget (h : StateInv s) (hr : s.resetPin = false) {off : Offset} {w : Width} (v : Word) {g : Target}
    (hg : target s.par off w = some g) : StateInv (writeTarget w v s g) := by
  cases g with
  | reg r => exact h.writeReg hr v r
  | count x => exact { h with }
  | code x k | node i k | reserved => exact h
  | buffer b idx =>
    obtain ⟨hfit, -⟩ := target_eq_buffer _ _ _ _ _ hg
    exact h.putBytes b (by rwa [length_leBytes])

theorem StateInv.hostWrite {off : Offset} {w : Width} {v : Word} {t : State} (h : StateInv s)
    (ht : hostWrite off w v s = .next t) : StateInv t := by
  obtain ⟨hr, ⟨-, rfl⟩ | ⟨g, -, -, -, rfl⟩ | ⟨g, hg, -, rfl⟩⟩ := hostWrite_cases off w v s t ht
  · exact h.answer _
  · exact (h.protocolError off).answer _
  · exact (h.writeTarget hr v hg).answer _

/-! ### The reset input -/

theorem StateInv.assertReset (h : StateInv s) : StateInv (assertReset s) :=
  { stateInv_resetOf h.params with idleInReset := fun _ => rfl }

theorem StateInv.releaseReset (h : StateInv s) : StateInv (releaseReset s) := { h with idleInReset := nofun }

end

/-- Settles O5: the parts of the state that the invariant speaks of are kept by each unit's own lemma above; an access, a command
and a change of the reset input are made of those. -/
theorem stepKeepsInvariant : Obligations.StepKeepsInvariant := by
  intro s t h ht
  obtain ⟨s', rfl, hcases⟩ := step_cases s t ht
  have h' : StateInv { s with inputs := (nextTurn s).2 } := { h with }
  rcases hcases with ⟨off, w, hread⟩ | ⟨off, w, v, hwrite⟩ | ⟨-, rfl⟩ | ⟨w, i, -, -, hexec⟩ | ⟨w, -, -, rfl⟩ | rfl | rfl
  · exact h'.hostRead hread
  · exact h'.hostWrite hwrite
  · exact h'
  · exact h'.exec hexec
  · exact h'.raiseError (e := .illegalCommand) nofun w []
  · exact h'.assertReset
  · exact h'.releaseReset

end Sys2Proof.Machine

/-! ## Frames: the parts of the state that a command does not work on stay -/

namespace Sys2Proof.Machine

/-! ### Parts of the state -/

/-- The parts of the state, by the commands that work on them. BUSY and INT_STAT, which every command ends by changing, are in
none. -/
inductive Part where
  | host
  | issued
  | record
  | count
  | tree
  | table
  | pad
  | buffer (b : Buf)
  deriving DecidableEq

/-- A part of the state is the same in two states; a buffer goes with its length. -/
def Part.Same (s t : State) : Part → Prop
  | .host => (t.par, t.intEn, t.pending, t.resetPin, t.inputs, t.bus, t.freeCtr) =
      (s.par, s.intEn, s.pending, s.resetPin, s.inputs, s.bus, s.freeCtr)
  | .issued => t.lastCmd = s.lastCmd
  | .record => (t.err, t.ovf, t.errCode, t.errInfo) = (s.err, s.ovf, s.errCode, s.errInfo)
  | .count => t.count = s.count
  | .tree => (t.node, t.nodeCount, t.treeRoot, t.treeValid) = (s.node, s.nodeCount, s.treeRoot, s.treeValid)
  | .table => (t.code, t.maxCodeLen, t.tableValid) = (s.code, s.maxCodeLen, s.tableValid)
  | .pad => t.pad = s.pad
  | .buffer b => (bufLen t b, bufRead t b) = (bufLen s b, bufRead s b)

theorem Part.same_refl (s : State) (c : Part) : c.Same s s := by cases c <;> rfl

theorem Part.Same.trans {s t u : State} {c : Part} (h : c.Same s t) (h' : c.Same t u) : c.Same s u := by
  cases c <;> exact Eq.trans h' h

/-- Every part of the state but those listed is the same. -/
def ChangesOnly (cs : List Part) (s t : State) : Prop := ∀ c, c ∉ cs → c.Same s t

section

variable {cs ds : List Part} {s t u : State}

theorem changesOnly_refl (cs : List Part) (s : State) : ChangesOnly cs s s := fun c _ => c.same_refl s

theorem ChangesOnly.trans (h : ChangesOnly cs s t) (h' : ChangesOnly cs t u) : ChangesOnly cs s u :=
  fun c hc => (h c hc).trans (h' c hc)

theorem ChangesOnly.mono (h : ChangesOnly cs s t) (hsub : ∀ c ∈ cs, c ∈ ds) : ChangesOnly ds s t :=
  fun c hc => h c fun hcs => hc (hsub c hcs)

/-! ### What each update works on -/

theorem changesOnly_count (s : State) (m : Counts) : ChangesOnly [.count] s { s with count := m }
  | .count, h => absurd (List.mem_singleton_self _) h
  | .host, _ | .issued, _ | .record, _ | .tree, _ | .table, _ | .pad, _ => rfl
  | .buffer .symbuf, _ | .buffer .bitbuf, _ | .buffer .pkbuf, _ => rfl

theorem changesOnly_clearTables (s : State) : ChangesOnly [.tree, .table] s (clearTables s)
  | .tree, h | .table, h => absurd (by decide) h
  | .host, _ | .issued, _ | .record, _ | .count, _ | .pad, _ => rfl
  | .buffer .symbuf, _ | .buffer .bitbuf, _ | .buffer .pkbuf, _ => rfl

theorem changesOnly_installTree (m : Counts) (s : State) : ChangesOnly [.tree] s (installTree m s)
  | .tree, h => absurd (by decide) h
  | .host, _ | .issued, _ | .record, _ | .count, _ | .table, _ | .pad, _ => rfl
  | .buffer .symbuf, _ | .buffer .bitbuf, _ | .buffer .pkbuf, _ => rfl

theorem changesOnly_installTable (s : State) : ChangesOnly [.table] s (installTable s)
  | .table, h => absurd (by decide) h
  | .host, _ | .issued, _ | .record, _ | .count, _ | .tree, _ | .pad, _ => rfl
  | .buffer .symbuf, _ | .buffer .bitbuf, _ | .buffer .pkbuf, _ => rfl

theorem changesOnly_putBits (x : List Bool) (s : State) : ChangesOnly [.buffer .bitbuf] s (putBits x s)
  | .buffer .bitbuf, h => absurd (by decide) h
  | .host, _ | .issued, _ | .record, _ | .count, _ | .tree, _ | .table, _ | .pad, _ => rfl
  | .buffer .symbuf, _ | .buffer .pkbuf, _ => rfl

theorem changesOnly_putPacked (x : List Bool) (s : State) : ChangesOnly [.pad, .buffer .pkbuf] s (putPacked x s)
  | .pad, h | .buffer .pkbuf, h => absurd (by decide) h
  | .host, _ | .issued, _ | .record, _ | .count, _ | .tree, _ | .table, _ => rfl
  | .buffer .symbuf, _ | .buffer .bitbuf, _ => rfl

theorem changesOnly_putUnpacked (p : Byte) (n : Nat) (payload : List Byte) (s : State) :
    ChangesOnly [.pad, .buffer .bitbuf] s (putUnpacked p n payload s)
  | .pad, h | .buffer .bitbuf, h => absurd (by decide) h
  | .host, _ | .issued, _ | .record, _ | .count, _ | .tree, _ | .table, _ => rfl
  | .buffer .symbuf, _ | .buffer .pkbuf, _ => rfl

theorem changesOnly_putSymbols (xs : List Byte) (s : State) : ChangesOnly [.buffer .symbuf] s (putSymbols xs s)
  | .buffer .symbuf, h => absurd (by decide) h
  | .host, _ | .issued, _ | .record, _ | .count, _ | .tree, _ | .table, _ | .pad, _ => rfl
  | .buffer .bitbuf, _ | .buffer .pkbuf, _ => rfl

theorem changesOnly_complete (s : State) : ChangesOnly [] s (complete s)
  | .host, _ | .issued, _ | .record, _ | .count, _ | .tree, _ | .table, _ | .pad, _ => rfl
  | .buffer .symbuf, _ | .buffer .bitbuf, _ | .buffer .pkbuf, _ => rfl

/-- R280: a raise changes the error record and the outputs named. -/
theorem changesOnly_raiseError (e : ErrCode) (v : Word) (outs : List Buf) (s : State) :
    ChangesOnly (.record :: outs.map .buffer) s (raiseError e v outs s) := by
  intro c hc
  cases c with
  | record => exact absurd List.mem_cons_self hc
  | buffer b =>
    have hb : b ∉ outs := fun hb => hc (List.mem_cons_of_mem _ (List.mem_map_of_mem hb))
    simp [Part.Same, funext_iff, bufLen_raiseError, bufRead_raiseError, hb]
  | _ => simp [Part.Same]

/-! ### What each command works on -/

/-- The parts of the state that a command works on; a raise changes the error record besides. -/
def footprint : Instr → List Part
  | .nop => []
  | .clear => [.issued, .record, .count, .tree, .table, .pad, .buffer .symbuf, .buffer .bitbuf, .buffer .pkbuf]
  | .fcClear | .fcAdd1 _ | .fcAdd2 _ _ | .fcAdd3 _ _ _ | .fcScan => [.count]
  | .tbBuild => [.tree, .table]
  | .ctGen => [.table]
  | .encode => [.buffer .bitbuf]
  | .pack => [.pad, .buffer .pkbuf]
  | .unpack => [.pad, .buffer .bitbuf]
  | .decode => [.buffer .symbuf]
  | .compress => [.count, .tree, .table, .pad, .buffer .bitbuf, .buffer .pkbuf]
  | .decompress => [.pad, .buffer .bitbuf, .buffer .symbuf]

/-- A performance changes only the parts listed, also where it raises an error, and its outputs are among them. -/
abbrev Perf.Within (cs : List Part) (s : State) (p : Perf) : Prop :=
  p.Ends (ChangesOnly cs s) fun _ outs t => ChangesOnly cs s t ∧ ∀ b ∈ outs, Part.buffer b ∈ cs

/-- A performance in a state reached by changes of the parts listed. -/
theorem Perf.Within.from {p : Perf} (hp : p.Within ds t) (h : ChangesOnly cs s t) (hsub : ∀ c ∈ ds, c ∈ cs) :
    p.Within cs s :=
  Perf.Ends.mono hp (fun _ hu => h.trans (hu.mono hsub))
    fun _ _ _ ⟨hu, houts⟩ => ⟨h.trans (hu.mono hsub), fun b hb => hsub _ (houts b hb)⟩

theorem Perf.Within.andThen {p : Perf} {f : State → Perf} (hp : p.Within cs s) (hf : ∀ t, (f t).Within ds t)
    (hsub : ∀ c ∈ ds, c ∈ cs) : (p.andThen f).Within cs s :=
  Perf.Ends.andThen hp fun t ht => (hf t).from ht hsub

theorem Perf.Within.withFinalOutput {p : Perf} {b : Buf} (hp : p.Within cs s) (hb : Part.buffer b ∈ cs) :
    (p.withFinalOutput b).Within cs s :=
  Perf.Ends.withFinalOutput hp fun _ _ _ ⟨ht, houts⟩ =>
    ⟨ht, List.forall_mem_append.2 ⟨houts, List.forall_mem_singleton.2 hb⟩⟩

theorem perfCount_within (l : List (Option Byte)) (s : State) : (perfCount l s).Within [.count] s :=
  perfCount_ends (changesOnly_count s _) ⟨changesOnly_count s _, nofun⟩

theorem perfTbBuild_within (s : State) : (perfTbBuild s).Within [.tree, .table] s :=
  have hclear := changesOnly_clearTables s
  perfTbBuild_ends (fun _ => hclear.trans ((changesOnly_installTree _ _).mono (by decide))) ⟨hclear, nofun⟩

theorem perfCtGen_within (s : State) : (perfCtGen s).Within [.table] s :=
  perfCtGen_ends (fun _ => changesOnly_installTable s) ⟨changesOnly_refl _ s, nofun⟩

theorem perfEncode_within (s : State) : (perfEncode s).Within [.buffer .bitbuf] s :=
  perfEncode_ends (fun x _ => changesOnly_putBits x s) fun _ _ => ⟨changesOnly_refl _ s, by decide⟩

theorem perfPack_within (s : State) : (perfPack s).Within [.pad, .buffer .pkbuf] s :=
  perfPack_ends (fun x _ => changesOnly_putPacked x s) ⟨changesOnly_refl _ s, by decide⟩

theorem perfUnpack_within (s : State) : (perfUnpack s).Within [.pad, .buffer .bitbuf] s :=
  perfUnpack_ends (fun p n payload _ _ => changesOnly_putUnpacked p n payload s)
    fun _ _ => ⟨changesOnly_refl _ s, by decide⟩

theorem perfDecode_within (s : State) : (perfDecode s).Within [.buffer .symbuf] s :=
  perfDecode_ends (fun xs _ => changesOnly_putSymbols xs s) fun _ _ => ⟨changesOnly_refl _ s, by decide⟩

/-- R234: CLEAR leaves nothing but the host side and the buffers' bytes. -/
theorem changesOnly_cleared (s : State) : ChangesOnly (footprint .clear) s (cleared s)
  | .host, _ => rfl
  | .issued, h | .record, h | .count, h | .tree, h | .table, h | .pad, h => absurd (by decide) h
  | .buffer .symbuf, h | .buffer .bitbuf, h | .buffer .pkbuf, h => absurd (by decide) h

/-- Each unit's work is in the unit's lemma; a pipeline's is that of its steps and its final output. -/
theorem perform_within (i : Instr) (s : State) : (perform i s).Within (footprint i) s := by
  cases i with
  | nop => exact changesOnly_refl _ s
  | clear => exact changesOnly_cleared s
  | fcClear => exact changesOnly_count s noCounts
  | fcAdd1 | fcAdd2 | fcAdd3 | fcScan => exact perfCount_within _ s
  | tbBuild => exact perfTbBuild_within s
  | ctGen => exact perfCtGen_within s
  | encode => exact perfEncode_within s
  | pack => exact perfPack_within s
  | unpack => exact perfUnpack_within s
  | decode => exact perfDecode_within s
  | compress =>
    have hclear : (perfFcClear s).Within (footprint .compress) s := (changesOnly_count s noCounts).mono (by decide)
    exact (((((hclear.andThen (fun t => perfCount_within (symInput t) t) (by decide)).andThen perfTbBuild_within
      (by decide)).andThen perfCtGen_within (by decide)).andThen perfEncode_within (by decide)).andThen perfPack_within
      (by decide)).withFinalOutput (by decide)
  | decompress =>
    have hunpack : (perfUnpack s).Within (footprint .decompress) s :=
      (perfUnpack_within s).from (changesOnly_refl _ s) (by decide)
    exact perfDecompress_ends ((hunpack.andThen perfDecode_within (by decide)).withFinalOutput (by decide))
      ⟨changesOnly_refl _ s, nofun⟩

variable {i : Instr}

/-- R230, R280: the two ways in which a command that answers a next state ends. -/
theorem exec_cases (h : exec i s = .next t) :
    (∃ u, ChangesOnly (footprint i) s u ∧ t = complete u) ∨
    ∃ e v outs u, (ChangesOnly (footprint i) s u ∧ ∀ b ∈ outs, Part.buffer b ∈ footprint i) ∧
      t = raiseError e v outs u :=
  (perform_within i s).finish ((exec_eq_finish i s).symm.trans h)

/-- R280: a command changes the parts it works on, and the error record where it raises. -/
theorem exec_changesOnly (h : exec i s = .next t) : ChangesOnly (.record :: footprint i) s t := by
  obtain ⟨u, hu, rfl⟩ | ⟨e, v, outs, u, ⟨hu, houts⟩, rfl⟩ := exec_cases h
  · exact (hu.mono fun c => List.mem_cons_of_mem _).trans ((changesOnly_complete u).mono nofun)
  · refine (hu.mono fun c => List.mem_cons_of_mem _).trans ((changesOnly_raiseError e v outs u).mono ?_)
    exact List.forall_mem_cons.2 ⟨List.mem_cons_self, List.forall_mem_map.2 fun b hb => List.mem_cons_of_mem _ (houts b hb)⟩

/-- R230: every command that answers a next state ends with BUSY = 0. -/
theorem exec_busy (h : exec i s = .next t) : t.busy = false := by
  obtain ⟨u, -, rfl⟩ | ⟨e, v, outs, u, -, rfl⟩ := exec_cases h <;> rfl

/-- A buffer that a command does not work on stays, with its length. -/
theorem ChangesOnly.buffer (h : ChangesOnly cs s t) {b : Buf} (hb : Part.buffer b ∉ cs) :
    bufLen t b = bufLen s b ∧ ∀ off, bufRead t b off = bufRead s b off := by
  obtain ⟨hlen, hread⟩ := Prod.mk.inj (h _ hb)
  exact ⟨hlen, congrFun hread⟩

theorem ChangesOnly.host (h : ChangesOnly cs s t) (hc : Part.host ∉ cs) :
    t.par = s.par ∧ t.intEn = s.intEn ∧ t.pending = s.pending ∧ t.resetPin = s.resetPin ∧ t.inputs = s.inputs ∧
      t.bus = s.bus ∧ t.freeCtr = s.freeCtr := by
  simpa [Part.Same] using h _ hc

theorem ChangesOnly.tree (h : ChangesOnly cs s t) (hc : Part.tree ∉ cs) :
    t.node = s.node ∧ t.nodeCount = s.nodeCount ∧ t.treeRoot = s.treeRoot ∧ t.treeValid = s.treeValid := by
  simpa [Part.Same] using h _ hc

theorem ChangesOnly.table (h : ChangesOnly cs s t) (hc : Part.table ∉ cs) :
    t.code = s.code ∧ t.maxCodeLen = s.maxCodeLen ∧ t.tableValid = s.tableValid := by
  simpa [Part.Same] using h _ hc

end

/-! ### What no command changes -/

theorem host_notMem_footprint (i : Instr) : Part.host ∉ .record :: footprint i := by cases i <;> simp [footprint]

theorem issued_notMem_footprint {i : Instr} (h : i ≠ .clear) : Part.issued ∉ .record :: footprint i := by
  cases i <;> simp [footprint] at h ⊢

theorem record_notMem_footprint {i : Instr} (h : i ≠ .clear) : Part.record ∉ footprint i := by
  cases i <;> simp [footprint] at h ⊢

/-- Settles O43: the host side is in no command's footprint, and LAST_CMD in CLEAR's only. -/
theorem commandsKeepHostSide : Obligations.CommandsKeepHostSide := by
  intro i s t h
  have hc := exec_changesOnly h
  obtain ⟨hpar, hen, hpend, hpin, hin, hbus, hfree⟩ := hc.host (host_notMem_footprint i)
  exact ⟨hpar, hen, hpend, hpin, hin, hbus, hfree, exec_busy h, fun hne => hc .issued (issued_notMem_footprint hne)⟩

/-- Settles O13: no command but CLEAR works on the error record, and a raise does not replace an error. -/
theorem onlyClearForgetsError : Obligations.OnlyClearForgetsError := by
  intro i s t hne herr h
  have hsame {u : State} (hu : ChangesOnly (footprint i) s u) :
      u.err = true ∧ u.errCode = s.errCode ∧ u.errInfo = s.errInfo := by
    have hrec := hu .record (record_notMem_footprint hne)
    simp only [Part.Same, Prod.mk.injEq] at hrec
    obtain ⟨he, -, hcode, hinfo⟩ := hrec
    exact ⟨he.trans herr, hcode, hinfo⟩
  obtain ⟨u, hu, rfl⟩ | ⟨e, v, outs, u, ⟨hu, -⟩, rfl⟩ := exec_cases h
  · exact hsame hu
  · obtain ⟨he, hcode, hinfo⟩ := hsame hu
    simp [he, hcode, hinfo]

/-! ### The commands without an output -/

/-- R142: FC_ADD counts no symbol but those of its lanes. -/
theorem countAt_of_exec_fcAdd {i : Instr} {syms : List Byte} {s t : State} {x : Byte} (hi : addedSymbols i = some syms)
    (hx : x ∉ syms) (h : exec i s = .next t) : countAt t.count x = countAt s.count x := by
  rw [exec_fcAdd i syms s hi] at h
  have hkeep := countAt_countSymbols s.count 0 (lanes syms) x (by simpa [lanes] using hx)
  have hends : (perfCount (lanes syms) s).Ends (fun u => countAt u.count x = countAt s.count x)
      fun _ _ u => countAt u.count x = countAt s.count x := perfCount_ends hkeep hkeep
  obtain ⟨u, hu, rfl⟩ | ⟨e, v, outs, u, hu, rfl⟩ := hends.finish h
  · exact hu
  · rwa [raiseError_count, recordError_count]

/-- Settles O44: no buffer, no length and not PAD is in the footprint of these commands, and of COUNT, the tree and the table only
what is named. -/
theorem registerCommandsKeepBuffers : Obligations.RegisterCommandsKeepBuffers := by
  intro i s t hi h
  have hc := exec_changesOnly h
  have hbuf (b : Buf) : Part.buffer b ∉ .record :: footprint i := by
    cases i <;> simp [footprint, addedSymbols] at hi ⊢
  have hpad : Part.pad ∉ .record :: footprint i := by cases i <;> simp [footprint, addedSymbols] at hi ⊢
  refine ⟨fun b => (hc.buffer (hbuf b)).2, fun b => (hc.buffer (hbuf b)).1, hc .pad hpad, fun hcount => hc .count ?_,
    fun syms hadd x hx => countAt_of_exec_fcAdd hadd hx h, fun hne => hc.tree ?_, fun hne => hc.table ?_⟩
  · rcases hcount with rfl | rfl | rfl <;> decide
  · cases i <;> simp [footprint, addedSymbols] at hi hne ⊢
  · cases i <;> simp [footprint, addedSymbols] at hi hne ⊢

/-! ### The commands that read the table -/

/-- These commands work on their outputs, and on PAD, which ENCODE and DECODE leave. -/
theorem codec_footprint : ∀ q ∈ [(Instr.encode, [Buf.bitbuf]), (.unpack, [.bitbuf]), (.pack, [.pkbuf]), (.decode, [.symbuf]),
      (.decompress, [.bitbuf, .symbuf])], (∀ c ∈ footprint q.1, c ∈ Part.pad :: q.2.map .buffer) ∧
    ((q.1 = .encode ∨ q.1 = .decode) → Part.pad ∉ footprint q.1) := by decide

/-- Settles O45: by the footprints; SYMBUF is not in that of COMPRESS. -/
theorem codecCommandsKeepTables : Obligations.CodecCommandsKeepTables := by
  intro i outs s t hi h
  obtain ⟨hsub, hpad⟩ := codec_footprint _ hi
  have hc : ChangesOnly (.record :: .pad :: outs.map .buffer) s t :=
    (exec_changesOnly h).mono (List.forall_mem_cons.2
      ⟨List.mem_cons_self, fun c hmem => List.mem_cons_of_mem _ (hsub c hmem)⟩)
  obtain ⟨hnode, hcount, hroot, htree⟩ := hc.tree (by simp)
  obtain ⟨hcode, hmax, htable⟩ := hc.table (by simp)
  refine ⟨hc .count (by simp), hnode, hcount, hroot, htree, hcode, hmax, htable, fun b hb => hc.buffer (by simp [hb]),
    fun hor => exec_changesOnly h .pad (by simp [hpad hor]), fun u hu => ?_⟩
  exact (exec_changesOnly hu).buffer (b := .symbuf) (by decide)

/-! ### Failing commands -/

/-- R280, R235: a command raises every error with its output among those that the raise clears. -/
theorem perform_clears_output {i : Instr} {b : Buf} {s : State}
    (hi : (i, b) ∈ [(Instr.encode, Buf.bitbuf), (.pack, .pkbuf), (.unpack, .bitbuf), (.decode, .symbuf), (.compress, .pkbuf),
      (.decompress, .symbuf)]) (hv : i = .decompress → s.tableValid = true) :
    (perform i s).Ends (fun _ => True) fun _ outs _ => b ∈ outs := by
  have hfinal (p : Perf) (c : Buf) : (p.withFinalOutput c).Ends (fun _ => True) fun _ outs _ => c ∈ outs := by
    cases p <;> simp [Perf.withFinalOutput, Perf.Ends]
  simp only [List.mem_cons, Prod.mk.injEq, List.not_mem_nil, or_false] at hi
  rcases hi with ⟨rfl, rfl⟩ | ⟨rfl, rfl⟩ | ⟨rfl, rfl⟩ | ⟨rfl, rfl⟩ | ⟨rfl, rfl⟩ | ⟨rfl, rfl⟩
  · exact perfEncode_ends (fun _ _ => trivial) fun _ _ => List.mem_singleton_self _
  · exact perfPack_ends (fun _ _ => trivial) (List.mem_singleton_self _)
  · exact perfUnpack_ends (fun _ _ _ _ _ => trivial) fun _ _ => List.mem_singleton_self _
  · exact perfDecode_ends (fun _ _ => trivial) fun _ _ => List.mem_singleton_self _
  · exact hfinal (compressSteps s) .pkbuf
  · rw [perform, perfDecompress, if_pos (hv rfl)]
    exact hfinal (decompressSteps s) .symbuf

/-- Settles O14: a command that completes sets DONE, so that this one raised an error, which clears its output. -/
theorem failedCommandKeepsNoOutput : Obligations.FailedCommandKeepsNoOutput := by
  intro i b s t hi hv _ h hdone
  rw [exec_eq_finish] at h
  obtain ⟨u, -, rfl⟩ | ⟨e, v, outs, u, hb, rfl⟩ := (perform_clears_output hi hv).finish h
  · rw [complete_intStat, getLsbD_setDone_zero] at hdone
    cases hdone
  · exact ⟨rfl, by rw [raiseError_err, recordError_err], by rw [bufLen_raiseError, if_pos hb],
      fun off => by rw [bufRead_raiseError, if_pos hb]⟩

/-! ### Raising an error -/

/-- Settles O9: the two branches of recording an error. -/
theorem firstErrorWins : Obligations.FirstErrorWins := by
  intro e v s
  refine ⟨fun h => ?_, fun h => ?_⟩
  · rw [recordError, if_neg (by simp [h])]; rfl
  · rw [recordError, if_pos h]

/-- Settles O10: recording the error and ending the command touch no buffer, and clearing the outputs nothing else. -/
theorem raiseClearsOutput : Obligations.RaiseClearsOutput := by
  intro e v outs s
  have hc := changesOnly_raiseError e v outs s
  obtain ⟨hpar, hen, hpend, hpin, hin, hbus, hfree⟩ := hc.host (by simp)
  obtain ⟨hnode, hcount, hroot, htree⟩ := hc.tree (by simp)
  obtain ⟨hcode, hmax, htable⟩ := hc.table (by simp)
  refine ⟨_, _, rfl, rfl, rfl, by simp, getLsbD_intStat_raiseError e v outs s, raiseError_err .., raiseError_errCode ..,
    raiseError_errInfo .., raiseError_ovf .., raiseError_intStat .., fun b hb => ?_, fun b hb => hc.buffer (by simp [hb]),
    hc .count (by simp), hnode, hcode, htree, htable, hroot, hcount, hmax, hc .pad (by simp), hc .issued (by simp), hpend, hen,
    hpar, hin, hpin, hbus, hfree⟩
  exact ⟨by rw [bufLen_raiseError, if_pos hb], fun off => by rw [bufRead_raiseError, if_pos hb]⟩

/-- Settles O11: without its tree or its table a command raises SEQUENCE before anything else; CT_GEN and DECOMPRESS name no
output for the raise to clear. -/
theorem missingStateRaisesSequence : Obligations.MissingStateRaisesSequence := by
  refine ⟨rfl, fun s => ⟨fun htree => ?_, fun htable => ⟨?_, ?_, ?_⟩⟩⟩ <;> rw [exec_eq_finish, perform]
  · rw [perfCtGen, htree]; rfl
  · rw [perfEncode, htable]; rfl
  · rw [perfDecode, htable]; rfl
  · rw [perfDecompress, htable]; rfl

/-! ### NOP and CLEAR -/

/-- Settles O15: NOP is done in the state it finds. -/
theorem nopCompletes : Obligations.NopCompletes := fun _ => rfl

/-- Settles O16: DONE is set in the INT_STAT that CLEAR leaves, which is 0. -/
theorem clearRestoresResetValues : Obligations.ClearRestoresResetValues := by
  intro s
  have hdone : setDone 0#2 = 1#2 := by decide
  rw [← hdone]
  rfl

end Sys2Proof.Machine

/-! ## 30_encoding.md: words written out -/

namespace Sys2Proof

/-- Settles O2: each word is a closed case of the decoder. -/
theorem sampleWordsDecode : Obligations.SampleWordsDecode := by
  unfold Obligations.SampleWordsDecode
  decide

end Sys2Proof

/-! ## 70_reset_and_hazards.md: steps and reset -/

namespace Sys2Proof.Machine

/-! ### The turn listed first -/

theorem step_of_turn {s : State} {i : Input} {rest : List Input} (h : s.inputs = i :: rest) :
    step s = runTurn i { s with inputs := rest } := by
  rw [step, nextTurn, h]

theorem engineStep_of_decode_eq_some {s : State} {w : Word} {i : Instr} (hf : fetch s = some w) (hd : decode w = some i) :
    engineStep s = exec i s := by
  simp only [engineStep, hf, hd]

theorem engineStep_of_idle {s : State} (hb : s.busy = false) : engineStep s = .next s := by
  have hf : fetch s = none := if_neg (by simp [hb])
  simp only [engineStep, hf]

/-- Settles O3: the turn listed first says whose the step is; the engine's is the decoded command's, or none. -/
theorem stepRunsNextTurn : Obligations.StepRunsNextTurn := by
  refine ⟨fun s i hturn => ?_, fun s rest => ⟨fun off w => step_of_turn, fun off w v => step_of_turn, step_of_turn⟩⟩
  rw [step_of_engine_turn hturn]
  exact ⟨fun hb hr hd => engineStep_of_decode_eq_some (fetch_of_busy hb hr) hd, fun hb => engineStep_of_idle hb⟩

/-! ### Reset -/

/-- R50: no interrupt while none is pending. -/
theorem irq_of_intStat_zero {s : State} (h : s.intStat = 0#2) : irq s = false := by
  rw [irq, h, BitVec.zero_and]; rfl

theorem statusWord_assertReset (s : State) : statusWord (assertReset s) = 0#32 := by
  simp only [statusWord, assertReset_errCode, assertReset_tableValid, assertReset_treeValid, assertReset_ovf, assertReset_err,
    assertReset_busy]
  decide

/-- Settles O7: the reset state of the same parameters, in which everything derived from the state reads 0. -/
theorem assertedResetClearsEverything : Obligations.AssertedResetClearsEverything := by
  intro s rest h
  exact ⟨_, step_of_turn h, rfl, statusWord_assertReset _, rfl, rfl, rfl, rfl, rfl, rfl, rfl, rfl, rfl, rfl, rfl, rfl,
    countAt_noCounts, codeAt_noCodes, nodeAt_noNodes, fun b _ => by cases b <;> rfl, numSyms_noCounts, fcTotal_noCounts,
    irq_of_intStat_zero rfl, rfl, rfl, rfl, rfl, rfl, rfl⟩

/-- Settles O8: the reset input is looked at first. -/
theorem accessDuringResetStops : Obligations.AccessDuringResetStops :=
  fun _ _ _ _ hr => ⟨if_pos hr, if_pos hr⟩

end Sys2Proof.Machine

/-! ## 20_memory.md: host accesses -/

namespace Sys2Proof.Machine

/-! ### The interrupt registers and STATUS -/

/-- Settles O56: both registers are busy-safe for writes (R91). -/
theorem interruptRegisterWrites : Obligations.InterruptRegisterWrites := by
  intro s v hr
  have hlow : v.extractLsb' 0 2 = v.setWidth 2 := (BitVec.setWidth_eq_extractLsb' (by decide)).symm
  rw [← hlow]
  exact ⟨hostWrite_reg .intStat v s hr (.inr rfl), hostWrite_reg .intEn v s hr (.inr rfl)⟩

/-- R25: the fields of STATUS at their bits. -/
theorem statusWord_fields (s : State) :
    (statusWord s).getLsbD 0 = s.busy ∧ (statusWord s).getLsbD 1 = s.err ∧ (statusWord s).getLsbD 2 = s.ovf ∧
    (statusWord s).getLsbD 3 = s.treeValid ∧ (statusWord s).getLsbD 4 = s.tableValid ∧
    (statusWord s).extractLsb' 5 3 = 0#3 ∧ (statusWord s).extractLsb' 8 4 = s.errCode.code ∧
    (statusWord s).extractLsb' 12 20 = 0#20 := by
  unfold statusWord
  generalize s.busy = b0, s.err = b1, s.ovf = b2, s.treeValid = b3, s.tableValid = b4, s.errCode.code = c
  revert b0 b1 b2 b3 b4 c
  decide

/-! ### FC_TOTAL in two registers -/

theorem toNat_fcTotalHi (s : State) : (readReg s .fcTotalHi).toNat = fcTotal s.count / 2 ^ 32 := by
  have h := fcTotal_lt s.count
  rw [readReg, BitVec.toNat_ofNat, Nat.mod_eq_of_lt h, Nat.mod_eq_of_lt (by omega)]

/-- Settles O21: NUM_SYMS counts among 256 symbols, and FC_TOTAL, below 2^40, is its two halves. -/
theorem totalsFitTheirRegisters : Obligations.TotalsFitTheirRegisters := by
  intro s
  have hn := numSyms_le s.count
  refine ⟨hn, fcTotal_lt s.count, ?_, ?_⟩
  · rw [toNat_fcTotalHi, readReg, BitVec.toNat_ofNat]
    omega
  · rw [readReg, BitVec.toNat_ofNat, Nat.mod_eq_of_lt (by omega)]

/-! ### Register reads -/

/-- Settles O60: each pair is a register's offset and value. -/
theorem registerReadsShowState : Obligations.RegisterReadsShowState := by
  intro s hr
  refine ⟨⟨_, hostRead_reg .status s hr (.inr rfl), statusWord_fields s⟩, fun off v h => ?_⟩
  have hlo : BitVec.ofNat 32 (fcTotal s.count % 2 ^ 32) = readReg s .fcTotalLo :=
    BitVec.eq_of_toNat_eq (Nat.mod_mod _ _)
  have hhi : BitVec.ofNat 32 (fcTotal s.count / 2 ^ 32) = readReg s .fcTotalHi := by
    rw [← toNat_fcTotalHi, BitVec.ofNat_toNat, BitVec.setWidth_eq]
  have hsafe : ∀ r ∈ [Reg.id, .symCapR, .bitCapR, .pkCapR, .cmd, .errInfo, .intEn, .intStat],
    busySafeRead (.reg r) = true := by decide
  obtain ⟨r, hserved, hreg⟩ : ∃ r, (s.busy = false ∨ busySafeRead (.reg r) = true) ∧
      (off, v) = (r.offset, readReg s r) := by
    rcases h with h | ⟨hb, h⟩
    · have hmem : (off, v) ∈ [Reg.id, .symCapR, .bitCapR, .pkCapR, .cmd, .errInfo, .intEn, .intStat].map
        fun r => (r.offset, readReg s r) := h
      obtain ⟨r, hrmem, heq⟩ := List.mem_map.1 hmem
      exact ⟨r, .inr (hsafe r hrmem), heq.symm⟩
    · rw [hlo, hhi] at h
      have hmem : (off, v) ∈ [Reg.symLen, .bitLen, .pkLen, .numSyms, .fcTotalLo, .fcTotalHi, .treeRoot, .nodeCount, .maxCodeLen,
        .pad].map fun r => (r.offset, readReg s r) := h
      obtain ⟨r, -, heq⟩ := List.mem_map.1 hmem
      exact ⟨r, .inl hb, heq.symm⟩
  cases hreg
  exact hostRead_reg r s hr hserved

end Sys2Proof.Machine

/-! ## 20_memory.md: the windows and the buffers -/

namespace Sys2Proof.Machine

/-! ### Reads change nothing -/

/-- Settles O50: a read that is performed, or reaches nothing, changes the answer on the bus only. -/
theorem readsHaveNoSideEffects : Obligations.ReadsHaveNoSideEffects := by
  intro s t off w h hserved
  obtain ⟨-, ⟨-, rfl⟩ | ⟨g, hg, hb, hsafe, -⟩ | ⟨g, v, -, -, -, rfl⟩⟩ := hostRead_cases off w s t h
  · rfl
  · rcases hserved with hidle | hsafe'
    · exact absurd (hidle.symm.trans hb) (by decide)
    · exact absurd (hsafe.symm.trans (hsafe' g hg)) (by decide)
  · rfl

/-! ### What the host cannot change -/

/-- R35 to R43: the state that no host access changes. -/
def SameReadOnly (s t : State) : Prop :=
  Part.tree.Same s t ∧ Part.table.Same s t ∧ t.pad = s.pad ∧ t.par = s.par

theorem sameReadOnly_refl (s : State) : SameReadOnly s s := ⟨rfl, rfl, rfl, rfl⟩

theorem sameReadOnly_recordError (e : ErrCode) (v : Word) (s : State) : SameReadOnly s (recordError e v s) := by
  simp [SameReadOnly, Part.Same]

theorem sameReadOnly_writeLen {cap : Nat} {v : Word} {s t : State} (h : SameReadOnly s t) :
    SameReadOnly s (writeLen cap v s t) := by
  rw [writeLen]
  split_ifs
  · exact h
  · exact sameReadOnly_recordError ..

theorem sameReadOnly_writeReg (v : Word) (s : State) (r : Reg) : SameReadOnly s (writeReg v s r) := by
  cases r with
  | cmd => rw [writeReg, issue]; split_ifs <;> exact sameReadOnly_refl s
  | errAck => rw [writeReg]; split_ifs <;> exact sameReadOnly_refl s
  | symLen | bitLen | pkLen => exact sameReadOnly_writeLen (sameReadOnly_refl s)
  | _ => exact sameReadOnly_refl s

theorem sameReadOnly_writeTarget (w : Width) (v : Word) (s : State) (g : Target) :
    SameReadOnly s (writeTarget w v s g) := by
  cases g with
  | reg r => exact sameReadOnly_writeReg v s r
  | buffer b idx => cases b <;> exact sameReadOnly_refl s
  | _ => exact sameReadOnly_refl s

theorem sameReadOnly_of_access {off : Offset} {w : Width} {v : Word} {s t : State}
    (h : hostRead off w s = .next t ∨ hostWrite off w v s = .next t) : SameReadOnly s t := by
  rcases h with h | h
  · obtain ⟨-, ⟨-, rfl⟩ | ⟨g, -, -, -, rfl⟩ | ⟨g, v, -, -, -, rfl⟩⟩ := hostRead_cases off w s t h
    · exact sameReadOnly_refl s
    · exact sameReadOnly_recordError .protocol _ s
    · exact sameReadOnly_refl s
  · obtain ⟨-, ⟨-, rfl⟩ | ⟨g, -, -, -, rfl⟩ | ⟨g, -, -, rfl⟩⟩ := hostWrite_cases off w v s t h
    · exact sameReadOnly_refl s
    · exact sameReadOnly_recordError .protocol _ s
    · exact sameReadOnly_writeTarget w v s g

/-! ### The map below 0x10000 -/

theorem lowTarget_reg_offset (r : Reg) : lowTarget r.offset.toNat = .reg r := by cases r <;> rfl

theorem reg_offset_lt (r : Reg) : r.offset.toNat < 0x50 := by cases r <;> decide

/-- R21: every aligned offset below 0x50 is a register's. -/
theorem exists_reg_of_lt {off : Nat} (ha : off % 4 = 0) (hl : off < 0x50) : ∃ r : Reg, off = r.offset.toNat := by
  have hall : ∀ k < 20, ∃ r ∈ regMap.map Prod.snd, 4 * k = r.offset.toNat := by decide
  obtain ⟨r, -, hr⟩ := hall (off / 4) (by omega)
  exact ⟨r, by omega⟩

theorem lowTarget_count {off : Nat} (hl : 0x400 ≤ off) (hh : off < 0x800) :
    lowTarget off = .count (BitVec.ofNat 8 ((off - 0x400) / 4)) := by
  rw [lowTarget, if_neg (by omega), if_neg (by omega), if_pos hh]

theorem lowTarget_code {off : Nat} (hl : 0x1000 ≤ off) (hh : off < 0x5000) :
    lowTarget off = .code (BitVec.ofNat 8 ((off - 0x1000) / 64)) (off / 4 % 16) := by
  rw [lowTarget, if_neg (by omega), if_neg (by omega), if_neg (by omega), if_neg (by omega), if_pos hh]

theorem lowTarget_node {off : Nat} (hl : 0x8000 ≤ off) (hh : off < 0x9FF0) :
    lowTarget off = .node (BitVec.ofNat 9 ((off - 0x8000) / 16)) (off / 4 % 4) := by
  rw [lowTarget, if_neg (by omega), if_neg (by omega), if_neg (by omega), if_neg (by omega), if_neg (by omega),
    if_neg (by omega), if_pos hh]

/-- R81: an aligned offset below 0x10000 is a register's, lies in one of the three windows, or is reserved. -/
theorem low_offset_cases {off : Nat} (ha : off % 4 = 0) (hl : off < 0x10000) :
    (∃ r : Reg, off = r.offset.toNat) ∨ (0x400 ≤ off ∧ off < 0x800) ∨ (0x1000 ≤ off ∧ off < 0x5000) ∨
      (0x8000 ≤ off ∧ off < 0x9FF0) ∨ ReservedOffset off := by
  by_cases h : off < 0x50
  · exact .inl (exists_reg_of_lt ha h)
  · rw [ReservedOffset]
    omega

/-! ### Read-only registers, the windows of the tree and the table, and reserved offsets -/

theorem hostWrite_ignored {off : Offset} {w : Width} {v : Word} {s : State} {g : Target} (hr : s.resetPin = false)
    (hg : target s.par off w = some g) (hb : s.busy = false ∨ busySafeWrite g = true) (hw : writeTarget w v s g = s) :
    hostWrite off w v s = .next (answer writeAnswer s) := by
  rw [hostWrite_performed off w v s g hr hg hb, hw]

/-- R89: a read-only register ignores its write. -/
theorem writeReg_readOnly (v : Word) (s : State) : ∀ r ∈ [Reg.id, .symCapR, .bitCapR, .pkCapR, .status, .errInfo, .numSyms,
    .fcTotalLo, .fcTotalHi, .treeRoot, .nodeCount, .maxCodeLen, .pad], writeReg v s r = s := by
  intro r hr
  fin_cases hr <;> rfl

/-- Settles O46: the writes of registers name neither the tree nor the table, and each of the offsets reaches something that
ignores its write. -/
theorem hostCannotWriteReadOnlyState : Obligations.HostCannotWriteReadOnlyState := by
  refine ⟨fun off w v s t h => ?_, fun s off v hr ha => ⟨fun hb hoff => ?_, fun hres => ?_⟩⟩
  · obtain ⟨htree, htable, hpad, hpar⟩ := sameReadOnly_of_access h
    simp only [Part.Same, Prod.mk.injEq] at htree htable
    obtain ⟨hnode, hcount, hroot, hvalid⟩ := htree
    obtain ⟨hcode, hmax, htab⟩ := htable
    exact ⟨hnode, hcode, hcount, hroot, hmax, hvalid, htab, hpad, hpar⟩
  · rcases hoff with hmem | ⟨hl, hh⟩ | ⟨hl, hh⟩
    · obtain ⟨r, hro, heq⟩ := List.mem_map.1 (show off.toNat ∈ [Reg.id, .symCapR, .bitCapR, .pkCapR, .status, .errInfo,
        .numSyms, .fcTotalLo, .fcTotalHi, .treeRoot, .nodeCount, .maxCodeLen, .pad].map fun r => r.offset.toNat from hmem)
      obtain rfl := BitVec.eq_of_toNat_eq heq
      exact hostWrite_ignored hr (target_reg_offset _ r) (.inl hb) (writeReg_readOnly v s r hro)
    · exact hostWrite_ignored hr (target_word_low _ off ha (by omega)) (.inl hb) (by rw [lowTarget_code hl hh, writeTarget])
    · exact hostWrite_ignored hr (target_word_low _ off ha (by omega)) (.inl hb) (by rw [lowTarget_node hl hh, writeTarget])
  · have hl : off.toNat < 0x10000 := by rw [ReservedOffset] at hres; omega
    have hg := (target_word_low s.par off ha hl).trans (congrArg some (lowTarget_reserved _ hres))
    exact ⟨hostRead_performed off .word s _ _ hr hg (.inr rfl) rfl, hostWrite_ignored hr hg (.inr rfl) rfl⟩

/-! ### The busy-safe set -/

theorem not_reserved_of_lt {off : Nat} (h : off < 0x50) : ¬ ReservedOffset off := by
  rw [ReservedOffset]; omega

theorem busySafeRead_reg (r : Reg) : busySafeRead (.reg r) = true ↔
    r.offset.toNat ∈ [0x000, 0x004, 0x008, 0x00C, 0x010, 0x014, 0x018, 0x020, 0x024] := by
  cases r <;> decide

theorem busySafeWrite_reg (r : Reg) : busySafeWrite (.reg r) = true ↔ r.offset.toNat ∈ [0x01C, 0x020, 0x024] := by
  cases r <;> decide

/-- R91: nothing in a window or a buffer is busy-safe. -/
theorem busySafe_of_window {p : Params} {off : Offset} {w : Width} {g : Target} (hg : target p off w = some g)
    (hl : 0x50 ≤ off.toNat) (hres : ¬ ReservedOffset off.toNat) : busySafeRead g = false ∧ busySafeWrite g = false := by
  rcases Nat.lt_or_ge off.toNat 0x10000 with hlow | hhigh
  · obtain ⟨-, ha, rfl⟩ := target_low p off w g hlow hg
    obtain ⟨r, hr⟩ | ⟨h1, h2⟩ | ⟨h1, h2⟩ | ⟨h1, h2⟩ | h := low_offset_cases ha hlow
    · exact absurd (reg_offset_lt r) (by omega)
    · rw [lowTarget_count h1 h2]; exact ⟨rfl, rfl⟩
    · rw [lowTarget_code h1 h2]; exact ⟨rfl, rfl⟩
    · rw [lowTarget_node h1 h2]; exact ⟨rfl, rfl⟩
    · exact absurd h hres
  · obtain ⟨b, idx, rfl⟩ := target_high p off w g hhigh hg
    exact ⟨rfl, rfl⟩

/-- R91: the busy-safe set, by the offset of the access. -/
theorem busySafe_iff {p : Params} {off : Offset} {w : Width} {g : Target} (hg : target p off w = some g) :
    (busySafeRead g = true ↔
      off.toNat ∈ [0x000, 0x004, 0x008, 0x00C, 0x010, 0x014, 0x018, 0x020, 0x024] ∨ ReservedOffset off.toNat) ∧
    (busySafeWrite g = true ↔ off.toNat ∈ [0x01C, 0x020, 0x024] ∨ ReservedOffset off.toNat) := by
  by_cases hlt : off.toNat < 0x50
  · obtain ⟨-, ha, rfl⟩ := target_low p off w g (by omega) hg
    obtain ⟨r, hr⟩ := exists_reg_of_lt ha hlt
    rw [hr, lowTarget_reg_offset, busySafeRead_reg, busySafeWrite_reg]
    simp only [not_reserved_of_lt (reg_offset_lt r), or_false, iff_self, and_self]
  · have hmem : ∀ l : List Nat, (∀ o ∈ l, o < 0x50) → off.toNat ∉ l := fun l hall h => hlt (hall _ h)
    rw [or_iff_right (hmem _ (by decide)), or_iff_right (hmem _ (by decide))]
    by_cases hres : ReservedOffset off.toNat
    · obtain ⟨-, -, rfl⟩ := target_low p off w g (by rw [ReservedOffset] at hres; omega) hg
      rw [lowTarget_reserved _ hres]
      exact ⟨⟨fun _ => hres, fun _ => rfl⟩, ⟨fun _ => hres, fun _ => rfl⟩⟩
    · obtain ⟨hread, hwrite⟩ := busySafe_of_window hg (by omega) hres
      simp only [hread, hwrite, hres, Bool.false_eq_true, iff_self, and_self]

/-- R90 case 2: a write outside the busy-safe set while BUSY = 1. -/
theorem hostWrite_dropped {off : Offset} {w : Width} {v : Word} {s : State} {g : Target} (hr : s.resetPin = false)
    (hb : s.busy = true) (hg : target s.par off w = some g) (hsafe : busySafeWrite g = false) :
    hostWrite off w v s = .next (answer writeAnswer (protocolError off s)) := by
  simp only [hostWrite, hr, hg, hb, hsafe, and_self, if_true, Bool.false_eq_true, if_false]

/-- R90 case 2: a read outside the busy-safe set while BUSY = 1. -/
theorem hostRead_free {off : Offset} {w : Width} {s : State} {g : Target} (hr : s.resetPin = false)
    (hb : s.busy = true) (hg : target s.par off w = some g) (hsafe : busySafeRead g = false) :
    hostRead off w s = .next (answer (readAnswer (Config.freeWord s.freeCtr))
      { protocolError off s with freeCtr := s.freeCtr + 1 }) := by
  simp only [hostRead, hr, hg, hb, hsafe, and_self, if_true, Bool.false_eq_true, if_false]

/-- Settles O48: the busy-safe set by offsets, and case 2 of R90 for both kinds of access. -/
theorem busyAccessRecordsProtocol : Obligations.BusyAccessRecordsProtocol := by
  refine ⟨rfl, fun s off w v g hr hb hg => ?_⟩
  obtain ⟨hread, hwrite⟩ := busySafe_iff hg
  refine ⟨hread, hwrite, hostWrite_dropped hr hb hg, fun hsafe => ⟨_, hostRead_free hr hb hg hsafe⟩, ?_⟩
  rintro rfl
  obtain ⟨-, -, rfl⟩ := target_low _ _ w g (by decide) hg
  rfl

/-! ### The COUNT window -/

/-- R81: an aligned word access in the COUNT window reaches the counter that its offset names. -/
theorem target_countOffset (p : Params) (x : Byte) : target p (countOffset x) .word = some (.count x) := by
  have hx := x.isLt
  have ho : (countOffset x).toNat = 0x400 + 4 * x.toNat := by rw [countOffset, BitVec.toNat_ofNat]; omega
  rw [target_word_low p _ (by omega) (by omega), ho, lowTarget_count (by omega) (by omega),
    show (0x400 + 4 * x.toNat - 0x400) / 4 = x.toNat by omega, BitVec.ofNat_toNat, BitVec.setWidth_eq]

/-- Settles O52: the write puts the counter of the symbol, and the read answers it. -/
theorem countWindowReadsBack : Obligations.CountWindowReadsBack := by
  intro s x v hr hb
  have ht := target_countOffset s.par x
  have hself : countAt (countPut s.count x v) x = v := by rw [countAt_countPut, if_pos rfl]
  refine ⟨countPut s.count x v, hostWrite_performed _ _ v s _ hr ht (.inl hb), hself,
    fun y hy => by rw [countAt_countPut, if_neg hy], ?_⟩
  exact hostRead_performed _ _ { s with count := countPut s.count x v } _ _ hr ht (.inl hb) (congrArg Except.ok hself)

/-! ### The NODE window -/

/-- R42, R81: an aligned word access in the NODE window reaches the word of the entry that its offset names. -/
theorem target_nodeOffset (p : Params) {i : NodeIdx} {k : Nat} (hi : i.toNat < 511) (hk : k < 4) :
    target p (nodeOffset i k) .word = some (.node i k) := by
  have ho : (nodeOffset i k).toNat = 0x8000 + 16 * i.toNat + 4 * k := by rw [nodeOffset, BitVec.toNat_ofNat]; omega
  rw [target_word_low p _ (by omega) (by omega), ho, lowTarget_node (by omega) (by omega),
    show (0x8000 + 16 * i.toNat + 4 * k - 0x8000) / 16 = i.toNat by omega,
    show (0x8000 + 16 * i.toNat + 4 * k) / 4 % 4 = k by omega, BitVec.ofNat_toNat, BitVec.setWidth_eq]

/-- R42: word 1 of an entry: INUSE, INTERNAL, zeros, and the high bits of FREQ. -/
def nodeFlagsWord (inUse internal : Bool) (f : Freq) : Word :=
  BitVec.ofBool inUse ++ BitVec.ofBool internal ++ 0#22 ++ f.extractLsb' 32 8

theorem getLsbD_nodeFlagsWord_inUse (a b : Bool) (f : Freq) : (nodeFlagsWord a b f).getLsbD 31 = a := by
  cases a <;> simp only [nodeFlagsWord, BitVec.getLsbD_append] <;> rfl

theorem getLsbD_nodeFlagsWord_internal (a b : Bool) (f : Freq) : (nodeFlagsWord a b f).getLsbD 30 = b := by
  cases b <;> simp only [nodeFlagsWord, BitVec.getLsbD_append] <;> rfl

theorem toNat_append_eq {m n : Nat} (x : BitVec m) (y : BitVec n) : (x ++ y).toNat = x.toNat * 2 ^ n + y.toNat := by
  rw [BitVec.toNat_append, ← Nat.shiftLeft_add_eq_or_of_lt y.isLt, Nat.shiftLeft_eq]

/-- R42: below the two flags are the bits of FREQ from bit 32 on. -/
theorem toNat_nodeFlagsWord_mod (a b : Bool) (f : Freq) : (nodeFlagsWord a b f).toNat % 2 ^ 30 = f.toNat / 2 ^ 32 := by
  have hf := f.isLt
  have hhigh : (f.extractLsb' 32 8).toNat = f.toNat / 2 ^ 32 := by
    rw [BitVec.extractLsb'_toNat, Nat.shiftRight_eq_div_pow]; omega
  rw [nodeFlagsWord, toNat_append_eq, toNat_append_eq, toNat_append_eq, hhigh, BitVec.toNat_zero]
  omega

/-- R42: the four words of an entry in use. -/
theorem nodeWord_some (inUse : Bool) (n : Node) :
    nodeWord inUse (some n) 0 = n.freq.extractLsb' 0 32 ∧
    nodeWord inUse (some n) 1 = nodeFlagsWord inUse (n.children ≠ []) n.freq := by
  cases n <;> exact ⟨rfl, rfl⟩

/-- Settles O59: the access reaches word `k` of the entry, whose value is `nodeWord`. -/
theorem nodeWindowShowsEntry : Obligations.NodeWindowShowsEntry := by
  intro s i k hr hb hi hk
  refine ⟨nodeWord (i.ult s.nodeCount) (nodeAt s.node i) k,
    hostRead_performed _ _ s _ _ hr (target_nodeOffset s.par hi hk) (.inl hb) rfl, fun hn => by rw [hn, nodeWord],
    fun n hn => ?_, fun sym f hn => ?_, fun f l r hn => ?_⟩ <;> rw [hn]
  · obtain ⟨h0, h1⟩ := nodeWord_some (i.ult s.nodeCount) n
    refine ⟨?_, ?_⟩
    · rintro rfl
      rw [h0, BitVec.extractLsb'_toNat, Nat.shiftRight_zero]
    · rintro rfl
      rw [h1, toNat_nodeFlagsWord_mod, getLsbD_nodeFlagsWord_internal, getLsbD_nodeFlagsWord_inUse, decide_eq_true_iff,
        BitVec.ult_iff_lt, BitVec.lt_def]
      exact ⟨rfl, Iff.rfl, Iff.rfl⟩
  · exact ⟨by rintro rfl; exact BitVec.toNat_setWidth_of_le (show 8 ≤ 32 by decide), by rintro rfl; rfl⟩
  · have hidx (j : NodeIdx) : (j.setWidth 32).toNat = j.toNat := BitVec.toNat_setWidth_of_le (by decide)
    exact ⟨by rintro rfl; exact hidx l, by rintro rfl; exact hidx r⟩

/-! ### The buffers -/

/-- R45 to R47: with legal parameters a buffer lies within its 16 MiB. -/
theorem capacity_le {p : Params} (hp : p.wf = true) (b : Buf) : b.capacity p ≤ 0x1000000 := by
  obtain ⟨-, hsym, -, -, hbit, -, hpk⟩ := params_bounds p hp
  cases b <;> simp only [Buf.capacity] <;> omega

/-- R81: an aligned access within a buffer reaches it at its byte index. -/
theorem target_bufOffset {p : Params} (hp : p.wf = true) {b : Buf} {idx : Nat} {w : Width} (ha : idx % w.bytes = 0)
    (hfit : idx + w.bytes ≤ b.capacity p) : target p (bufOffset b idx) w = some (.buffer b idx) := by
  have hcap := capacity_le hp b
  have hw := w.bytes_pos
  have hbase : 0x1000000 ≤ b.base ∧ b.base ≤ 0x3000000 := by cases b <;> decide
  have ho : (bufOffset b idx).toNat = b.base + idx := by rw [bufOffset, BitVec.toNat_ofNat]; omega
  obtain ⟨-, hblock, hidx⟩ := blockBuf_of_base_le b (b.base + idx) (by omega) (by omega)
  have halign : (b.base + idx) % w.bytes = 0 := by
    cases w <;> cases b <;> simp only [Width.bytes, Buf.base] at ha ⊢ <;> omega
  rw [target, ho, if_neg (not_not.2 halign), if_neg (by omega), hblock, show (b.base + idx) % 0x1000000 = idx by omega]
  exact if_pos hfit

/-- `gather` stops at the first missing input, by its position. -/
theorem gather_of_first_none {α : Type} {pos i : Nat} {l : List (Option α)} (hi : l[i]? = some none)
    (hbefore : ∀ j < i, l[j]? ≠ some none) : gather pos l = .error (pos + i) := by
  induction l generalizing pos i with
  | nil => cases hi
  | cons a l ih =>
    cases i with
    | zero =>
      cases hi
      rfl
    | succ i =>
      cases a with
      | none => exact absurd rfl (hbefore 0 i.succ_pos)
      | some x =>
        rw [gather, ih (pos := pos + 1) (i := i) hi fun j hj => hbefore (j + 1) (Nat.succ_lt_succ hj), Nat.add_assoc,
          Nat.add_comm 1 i]

theorem gather_readBytes_of_unwritten {m : Memory} {k n i pos : Nat} (hi : i < n) (hnone : Memory.read m (k + i) = none)
    (hsome : ∀ j < i, Memory.read m (k + j) ≠ none) : gather pos (Memory.readBytes m k n) = .error (pos + i) := by
  refine gather_of_first_none ?_ fun j hj h => ?_
  · rw [Memory.getElem?_readBytes, if_pos hi, hnone]
  · rw [Memory.getElem?_readBytes, if_pos (by omega)] at h
    exact hsome j hj (Option.some.inj h)

/-- Settles O55: the read gathers the bytes in rising order of offset. -/
theorem unwrittenHostReadStops : Obligations.UnwrittenHostReadStops := by
  intro s b idx i w hp hr hb ha hfit hi hnone hsome
  have ht := target_bufOffset hp ha hfit
  have hread : readTarget s w (.buffer b idx) = .error (.unwrittenRead b (idx + i)) := by
    rw [readTarget, readBuf, gather_readBytes_of_unwritten hi hnone hsome]
  simp only [hostRead, hr, ht, hb, hread, Bool.false_eq_true, false_and, if_false]

/-- R84: the bytes of a value, from byte `k` on, spell its bits from `8 k` on. -/
theorem leNat_extract (v : Word) (k n : Nat) :
    leNat ((List.range' k n).map fun i => v.extractLsb' (8 * i) 8) = v.toNat / 2 ^ (8 * k) % 2 ^ (8 * n) := by
  induction n generalizing k with
  | zero => simp [leNat, Nat.mod_one]
  | succ n ih =>
    have hbyte : (v.extractLsb' (8 * k) 8).toNat = v.toNat / 2 ^ (8 * k) % 256 := by
      rw [BitVec.extractLsb'_toNat, Nat.shiftRight_eq_div_pow]
    have hpow : 2 ^ (8 * (n + 1)) = 256 * 2 ^ (8 * n) := by rw [Nat.mul_succ, Nat.pow_add, Nat.mul_comm]
    have hdiv : v.toNat / 2 ^ (8 * (k + 1)) = v.toNat / 2 ^ (8 * k) / 256 := by
      rw [Nat.div_div_eq_div_mul, Nat.mul_succ, Nat.pow_add]
    calc leNat ((List.range' k (n + 1)).map fun i => v.extractLsb' (8 * i) 8)
      _ = (v.extractLsb' (8 * k) 8).toNat +
          256 * leNat ((List.range' (k + 1) n).map fun i => v.extractLsb' (8 * i) 8) := by rw [List.range'_succ]; rfl
      _ = v.toNat / 2 ^ (8 * k) % 2 ^ (8 * (n + 1)) := by rw [ih, hbyte, hpow, hdiv, Nat.mod_mul]

theorem leNat_leBytes (n : Nat) (v : Word) : leNat (leBytes n v) = v.toNat % 2 ^ (8 * n) := by
  rw [leBytes, List.range_eq_range', leNat_extract, Nat.mul_zero, Nat.pow_zero, Nat.div_one]

theorem getElem?_leBytes {n i : Nat} (v : Word) (h : i < n) : (leBytes n v)[i]? = some (v.extractLsb' (8 * i) 8) := by
  rw [leBytes, List.getElem?_map, List.getElem?_range h]; rfl

theorem Memory.readBytes_writeBytes (m : Memory) (k : Nat) (bs : List Byte) :
    Memory.readBytes (Memory.writeBytes m k bs) k bs.length = bs.map some := by
  refine (Memory.readBytes_eq_map_some ..).2 ⟨rfl, fun i hi => ?_⟩
  rw [Memory.read_writeBytes, if_pos (by omega), Nat.add_sub_cancel_left]

/-- R84: the bytes of a value, written to a buffer, read back as its low bits. -/
theorem readBuf_of_leBytes {s : State} {b : Buf} {idx : Nat} {w : Width} {v : Word} {m : Memory}
    (h : b.content s = Memory.writeBytes m idx (leBytes w.bytes v)) :
    readBuf s b idx w = .ok (BitVec.ofNat 32 (v.toNat % 2 ^ (8 * w.bytes))) := by
  have hread := Memory.readBytes_writeBytes m idx (leBytes w.bytes v)
  rw [length_leBytes] at hread
  rw [readBuf, h, hread, gather_map_some, ← leNat_leBytes]

@[simp] theorem put_par (s : State) (m : Memory) (b : Buf) : (b.put s m).par = s.par := by cases b <;> rfl
@[simp] theorem put_resetPin (s : State) (m : Memory) (b : Buf) : (b.put s m).resetPin = s.resetPin := by cases b <;> rfl
@[simp] theorem put_busy (s : State) (m : Memory) (b : Buf) : (b.put s m).busy = s.busy := by cases b <;> rfl

theorem content_answer (r : BusResponse) (s : State) (b : Buf) : b.content (answer r s) = b.content s := by cases b <;> rfl

/-- Settles O53: the access reaches the buffer's bytes, which the write puts and the read gathers. -/
theorem bufferWritesReadBack : Obligations.BufferWritesReadBack := by
  intro s b idx w v hp hr hb ha hfit
  have ht := target_bufOffset hp ha hfit
  have hcontent : b.content (answer writeAnswer (writeTarget w v s (.buffer b idx))) =
      Memory.writeBytes (b.content s) idx (leBytes w.bytes v) := by
    rw [content_answer, writeTarget, content_put, if_pos rfl]
  have hlen := length_leBytes w.bytes v
  refine ⟨_, hostWrite_performed _ _ v s _ hr ht (.inl hb), by rw [hcontent]; rfl, fun i hi => ?_, fun off hoff => ?_, ?_⟩
  · rw [bufRead, hcontent, Memory.read_writeBytes, if_pos (by omega), Nat.add_sub_cancel_left, getElem?_leBytes v hi]
  · rw [bufRead, hcontent, Memory.read_writeBytes_of_lt _ _ _ _ (by omega), bufRead]
  · refine hostRead_performed _ _ _ (.buffer b idx) _ ?_ ?_ (.inl ?_) (readBuf_of_leBytes hcontent)
    · simpa [writeTarget] using hr
    · simpa [writeTarget] using ht
    · simpa [writeTarget] using hb

end Sys2Proof.Machine

/-! ## 40_frequency_counter.md and 42_code_table.md: FC_SCAN, CT_GEN and the codes it generates -/

namespace Sys2Proof.Machine

/-! ### FC_SCAN -/

/-- R286: counting stops at the first byte that is not written. -/
theorem perfCount_of_unwritten {s : State} {syms : List Byte} (rest : List (Option Byte)) (h : CountsFit s.count syms) :
    perfCount (syms.map some ++ none :: rest) s = .unwritten .symbuf syms.length := by
  obtain ⟨cs, -, hloop⟩ := countSymbols_append s.count 0 syms (none :: rest) h
  rw [perfCount, hloop, countSymbols, Nat.zero_add]; rfl

/-- Settles O19: FC_SCAN counts the bytes of SYMBUF in order, up to the first that does not fit or is not written. -/
theorem fcScanAddsEverySymbol : Obligations.FcScanAddsEverySymbol := by
  intro s syms hfit
  refine ⟨fun hw => exec_fcScan_of_fit s syms hw hfit, fun x rest hin hmax => ?_, fun rest hin => ?_⟩ <;>
    rw [exec_fcScan, hin]
  · exact finish_perfCount_of_overflow s syms x rest hfit hmax
  · rw [perfCount_of_unwritten rest hfit, Perf.finish]

/-! ### MAX_CODE_LEN -/

/-- R43: CODE lists the code of each symbol. -/
theorem toList_eq_map_codeAt (t : Codes) : t.toList = allSymbols.map (codeAt t) := by
  refine List.ext_getElem (by simp [allSymbols]) fun i _ _ => ?_
  simp [allSymbols, codeAt]

/-- R38: MAX_CODE_LEN's value is the maximum of 0 and the code lengths. -/
theorem maxLen_spec (t : Codes) : maxLen t ∈ 0 :: allSymbols.map (codeLen t) ∧
    ∀ n ∈ 0 :: allSymbols.map (codeLen t), n ≤ maxLen t := by
  have h : maxLen t = (allSymbols.map (codeLen t)).foldl max 0 := by
    rw [maxLen, toList_eq_map_codeAt, List.map_map]; rfl
  rw [h]
  exact List.max?_eq_some_iff.1 List.max?_cons'

theorem codeLen_le_maxLen (t : Codes) (x : Byte) : codeLen t x ≤ maxLen t :=
  (maxLen_spec t).2 _ (List.mem_cons_of_mem _ (List.mem_map_of_mem (mem_allSymbols x)))

/-- R38: some code has the largest length. -/
theorem exists_codeLen_eq_maxLen (t : Codes) : ∃ x, codeLen t x = maxLen t := by
  rcases List.mem_cons.1 (maxLen_spec t).1 with h0 | hmem
  · exact ⟨0#8, Nat.le_antisymm (codeLen_le_maxLen t _) (h0.trans_le (Nat.zero_le _))⟩
  · obtain ⟨x, -, hx⟩ := List.mem_map.1 hmem
    exact ⟨x, hx⟩

/-- R183: the walk of 256 levels leaves no code of more than 255 bits, whatever the arena. -/
theorem codeLen_codeTable_le (a : Arena) (root : NodeIdx) (x : Byte) : codeLen (codeTable a root) x ≤ 255 := by
  rw [codeLen, codeTable]
  split
  · rw [codeAt_codePut]
    split_ifs <;> simp
  · obtain h | ⟨p, j, f, hp, -, -, h⟩ := codeAt_walk a 256 root [] noCodes x
    · simp [h]
    · rw [h, List.nil_append]
      omega

/-- R182: MAX_CODE_LEN holds the largest length. -/
theorem toNat_maxCodeLen_installTable (s : State) :
    (installTable s).maxCodeLen.toNat = maxLen (installTable s).code := by
  obtain ⟨x, hx⟩ := exists_codeLen_eq_maxLen (installTable s).code
  have hle : maxLen (installTable s).code ≤ 255 := hx ▸ codeLen_codeTable_le _ _ x
  rw [installTable_maxCodeLen, BitVec.toNat_ofNat]
  exact Nat.mod_eq_of_lt (by rw [installTable_code] at hle; omega)

/-- R182, R38: MAX_CODE_LEN is the largest code length. -/
theorem maxCodeLen_installTable (s : State) :
    (∀ x, codeLen (installTable s).code x ≤ (installTable s).maxCodeLen.toNat) ∧
      ∃ x, codeLen (installTable s).code x = (installTable s).maxCodeLen.toNat := by
  rw [toNat_maxCodeLen_installTable]
  exact ⟨codeLen_le_maxLen _, exists_codeLen_eq_maxLen _⟩

/-- Settles O26: CT_GEN installs the table of the tree, whose codes are short enough for MAX_CODE_LEN. -/
theorem ctGenInstallsTable : Obligations.CtGenInstallsTable := by
  intro s hv
  have hexec : exec .ctGen s = .next (complete (installTable s)) := congrArg Perf.finish (if_pos hv)
  obtain ⟨hle, hex⟩ := maxCodeLen_installTable s
  exact ⟨_, hexec, rfl, hle, hex⟩

/-! ### The codes of two or more symbols -/

/-- Settles O27: the code is a leaf path of the built tree, which is not empty and no longer than the tree is deep. -/
theorem codesAreLeafPaths : Obligations.CodesAreLeafPaths := by
  intro cs x h2 hx
  have hb := builtTree_build (cs := cs) (by omega)
  have hne := (codeAt_tableOf_ne_nil_iff h2).2 hx
  have hpath := builtLeafPath_codeAt h2 hne
  have hlen := hb.leafPath_length_lt (by omega) hpath
  have hn := numSyms_le cs
  obtain ⟨i, f, hfollow, hleaf⟩ := hpath
  obtain ⟨-, rfl⟩ := hb.arena.leaf_symbol ((hb.nodeAt_arena i).symm.trans hleaf)
  exact ⟨List.length_pos_iff.2 hne, by rw [codeLen]; omega, i, hfollow, hleaf⟩

end Sys2Proof.Machine

/-! ## 43_encoding_unit.md and 46_decoding_unit.md: where ENCODE and DECODE stop -/

namespace Sys2Proof.Machine

/-! ### ENCODE -/

/-- R43: a symbol has no entry when its CODE_LEN is 0. -/
theorem codeLen_eq_zero_iff {t : Codes} {x : Byte} : codeLen t x = 0 ↔ codeAt t x = [] := List.length_eq_zero_iff

section

variable {s : State} {pre : List Byte} {x : Byte} {rest : List (Option Byte)}

/-- R200: past symbols that have entries and fit, the loop goes on with their codes. -/
theorem encodeFrom_prefix {t : Codes} {cap : Nat} (r : List (Option Byte)) (hc : AllCoded t pre)
    (hl : (codesOf t pre).length ≤ cap) :
    encodeFrom t cap 0 [] (pre.map some ++ r) = encodeFrom t cap pre.length (codesOf t pre) r := by
  rw [encodeFrom_append t cap 0 [] pre r hc (by rwa [List.length_nil, Nat.zero_add]), Nat.zero_add, List.nil_append]

theorem perfEncode_of_unknown (hv : s.tableValid = true) (hin : symInput s = pre.map some ++ some x :: rest)
    (hc : AllCoded s.code pre) (hl : (codesOf s.code pre).length ≤ s.par.bitCap) (hx : codeAt s.code x = []) :
    perfEncode s = .raised .unknownSymbol (BitVec.ofNat 32 pre.length) [.bitbuf] s := by
  rw [perfEncode, if_pos hv, hin, encodeFrom_prefix _ hc hl, encodeFrom, if_pos (codeLen_eq_zero_iff.2 hx)]; rfl

theorem perfEncode_of_overflow (hv : s.tableValid = true) (hin : symInput s = pre.map some ++ some x :: rest)
    (hc : AllCoded s.code pre) (hl : (codesOf s.code pre).length ≤ s.par.bitCap) (hx : codeAt s.code x ≠ [])
    (hover : s.par.bitCap < (codesOf s.code pre).length + codeLen s.code x) :
    perfEncode s = .raised .resource (BitVec.ofNat 32 pre.length) [.bitbuf] s := by
  rw [perfEncode, if_pos hv, hin, encodeFrom_prefix _ hc hl, encodeFrom, if_neg (mt codeLen_eq_zero_iff.1 hx),
    if_pos hover]; rfl

theorem perfEncode_of_unwritten (hv : s.tableValid = true) (hin : symInput s = pre.map some ++ none :: rest)
    (hc : AllCoded s.code pre) (hl : (codesOf s.code pre).length ≤ s.par.bitCap) :
    perfEncode s = .unwritten .symbuf pre.length := by
  rw [perfEncode, if_pos hv, hin, encodeFrom_prefix _ hc hl, encodeFrom]; rfl

end

/-- Settles O31: the two checks of the loop at the first symbol that fails one. -/
theorem encodeReportsFirstFailure : Obligations.EncodeReportsFirstFailure :=
  fun _ _ _ _ hv hin hc hl => ⟨fun hx => congrArg Perf.finish (perfEncode_of_unknown hv hin hc hl hx),
    fun hx hover => congrArg Perf.finish (perfEncode_of_overflow hv hin hc hl hx hover)⟩

/-! ### DECODE -/

/-- No code begins at the first bit of a sequence. -/
def NoCodeIn (t : Codes) (part : List Bool) : Prop := ∀ y, codeAt t y ≠ [] → ¬ codeAt t y <+: part

section

variable {s : State} {syms : List Byte} {part : List Bool} {x : Byte}

/-- R250: the start of a code is set at its first bit, so that the one before it does not matter. -/
theorem decodeFrom_start_irrelevant (t : Codes) (cap pos start : Nat) (out : List Byte) {l : List (Option Bool)} (hl : l ≠ []) :
    decodeFrom t cap pos start [] out l = decodeFrom t cap pos pos [] out l := by
  match l with
  | none :: _ | some _ :: _ => rfl

/-- R250: past complete codes and the beginning of another, the loop goes on with what follows. -/
theorem decodeFrom_codes_part {t : Codes} {cap : Nat} {r : List (Option Bool)} (hp : PrefixFree t) (hc : AllCoded t syms)
    (hfit : syms.length ≤ cap) (hpart : NoCodeIn t part) (hne : part.map some ++ r ≠ []) :
    decodeFrom t cap 0 0 [] [] ((codesOf t syms ++ part).map some ++ r) =
      decodeFrom t cap (codesOf t syms ++ part).length (codesOf t syms).length part syms r := by
  obtain ⟨start, hcodes⟩ := decodeFrom_codes t cap 0 0 [] (part.map some ++ r) hp syms hc
    (by rwa [List.length_nil, Nat.zero_add])
  rw [List.map_append, List.append_assoc, hcodes, decodeFrom_start_irrelevant _ _ _ _ _ hne, decodeFrom_part]
  · rw [Nat.zero_add, List.nil_append, List.nil_append, List.length_append]
  · exact fun _ => rfl
  · exact fun k _ _ => rev_eq_none _ _ fun y hy heq => hpart y hy (heq ▸ List.take_prefix k part)

theorem perfDecode_of_unfinished (hv : s.tableValid = true) (hp : PrefixFree s.code) (hc : AllCoded s.code syms)
    (hw : Written (bitInput s) (codesOf s.code syms ++ part)) (hfit : syms.length ≤ s.par.symCap) (hne : part ≠ [])
    (hpart : NoCodeIn s.code part) :
    perfDecode s = .raised .malformedStream (BitVec.ofNat 32 (codesOf s.code syms).length) [.symbuf] s := by
  have hloop := decodeFrom_codes_part (r := []) hp hc hfit hpart (by simpa using hne)
  rw [List.append_nil, decodeFrom, if_neg hne] at hloop
  rw [perfDecode, if_pos hv, hw, hloop]; rfl

theorem perfDecode_of_unwritten {rest : List (Option Bool)} (hv : s.tableValid = true) (hp : PrefixFree s.code)
    (hc : AllCoded s.code syms) (hin : bitInput s = (codesOf s.code syms ++ part).map some ++ none :: rest)
    (hfit : syms.length ≤ s.par.symCap) (hpart : NoCodeIn s.code part) :
    perfDecode s = .unwritten .bitbuf ((codesOf s.code syms ++ part).length / 8) := by
  rw [perfDecode, if_pos hv, hin, decodeFrom_codes_part hp hc hfit hpart (by simp), decodeFrom]; rfl

theorem perfDecode_of_overflow {rest : List (Option Bool)} (hv : s.tableValid = true) (hp : PrefixFree s.code)
    (hc : AllCoded s.code syms) (hx : codeAt s.code x ≠ [])
    (hin : bitInput s = (codesOf s.code (syms ++ [x])).map some ++ rest) (hfull : syms.length = s.par.symCap) :
    perfDecode s =
      .raised .resource (BitVec.ofNat 32 ((codesOf s.code (syms ++ [x])).length - 1)) [.symbuf] s := by
  have hcodes : codesOf s.code (syms ++ [x]) = codesOf s.code syms ++ codeAt s.code x := by
    rw [codesOf_append, codesOf_cons, codesOf_nil, List.append_nil]
  obtain ⟨start, hloop⟩ := decodeFrom_codes s.code s.par.symCap 0 0 [] ((codeAt s.code x).map some ++ rest) hp syms hc
    (by rw [List.length_nil, Nat.zero_add, hfull])
  rw [decodeFrom_code _ _ _ _ _ _ hp x hx, List.nil_append, if_pos hfull, Nat.zero_add, ← List.append_assoc,
    ← List.map_append, ← hcodes] at hloop
  rw [perfDecode, if_pos hv, hin, hloop, hcodes, List.length_append]; rfl

end

/-- Settles O37: the loop stops with the bits, in a code that began after the complete ones, or at a symbol too many. -/
theorem decodeReportsFailures : Obligations.DecodeReportsFailures :=
  fun _ _ hv hp hc =>
    ⟨fun _ hw hfit hne hpart => congrArg Perf.finish (perfDecode_of_unfinished hv hp hc hw hfit hne hpart),
      fun _ _ hx hin hfull => congrArg Perf.finish (perfDecode_of_overflow hv hp hc hx hin hfull)⟩

end Sys2Proof.Machine

/-! ## 45_sequencer.md section 3: what COMPRESS and DECOMPRESS leave, and where they stop -/

namespace Sys2Proof.Machine

/-! ### COMPRESS -/

section

variable {s : State} {syms : List Byte} {cs : Counts}

/-- R146: one map counts a text. -/
theorem counted_unique {cs' : Counts} (h : Counted cs syms) (h' : Counted cs' syms) : cs = cs' :=
  counts_ext _ _ fun x => BitVec.eq_of_toNat_eq ((h x).trans (h' x).symm)

theorem countAt_ne_zero_of_counted {x : Byte} (h : Counted cs syms) (hx : x ∈ syms) : countAt cs x ≠ 0#32 := by
  intro h0
  have hcount := h x
  rw [h0, BitVec.toNat_zero] at hcount
  exact List.count_eq_zero.1 hcount.symm hx

theorem numSyms_ne_zero_of_counted (h : Counted cs syms) (hne : syms ≠ []) : numSyms cs ≠ 0 := by
  rw [numSyms_of_counted h]
  exact Finset.card_ne_zero.2 (List.toFinset_nonempty_iff syms |>.2 hne)

/-- R185: every symbol of a text has an entry in the table of its map. -/
theorem allCoded_tableOf (h : Counted cs syms) (hne : syms ≠ []) : AllCoded (tableOf cs) syms :=
  fun x hx => ((tableIsPrefixFreeAndComplete cs (numSyms_ne_zero_of_counted h hne)).2.1 x).2
    (countAt_ne_zero_of_counted h hx)

/-- R236: COMPRESS of a text that is not empty comes to ENCODE and PACK with the tables of its map. -/
theorem perfCompress_of_written (hw : Written (symInput s) syms) (hne : syms ≠ []) (hc : Counted cs syms) :
    perfCompress s = ((perfEncode (compressTables cs s)).andThen perfPack).withFinalOutput .pkbuf := by
  obtain ⟨cs', hc', hcount⟩ := fcClear_andThen_fcScan hw
  obtain rfl := counted_unique hc hc'
  rw [perfCompress, compressSteps, hcount, tbBuild_andThen_ctGen (numSyms_ne_zero_of_counted hc hne), Perf.andThen]

/-- R200: ENCODE of written symbols that have entries and fit. -/
theorem perfEncode_of_fit (hv : s.tableValid = true) (hw : Written (symInput s) syms) (hc : AllCoded s.code syms)
    (hfit : (codesOf s.code syms).length ≤ s.par.bitCap) : perfEncode s = .done (putBits (codesOf s.code syms) s) := by
  rw [perfEncode, if_pos hv, hw, encodeFrom_all _ _ syms hc hfit]

/-- R236: COMPRESS of a text whose codes fit. -/
theorem perfCompress_of_fit {x : List Bool} (hp : s.par.wf = true) (hw : Written (symInput s) syms) (hne : syms ≠ [])
    (hc : Counted cs syms) (hx : x = codesOf (tableOf cs) syms) (hfit : x.length ≤ s.par.bitCap) :
    perfCompress s = .done (putPacked x (putBits x (compressTables cs s))) := by
  subst hx
  have hencode := perfEncode_of_fit (s := compressTables cs s) rfl hw (allCoded_tableOf hc hne) hfit
  have hpack := perfPack_of_fit (written_bitInput_putBits (s := compressTables cs s) hp hfit)
    (packedLen_le_pkCap hp ((toNat_bitLen_putBits hp hfit).trans_le hfit))
  rw [perfCompress_of_written hw hne hc, hencode, Perf.andThen, compressTables_code, hpack, Perf.withFinalOutput]

/-- R236, R237: COMPRESS with SYM_LEN = 0. -/
theorem perfCompress_of_empty (h : s.symLen = 0#32) :
    perfCompress s = .raised .emptyHistogram 0#32 [.pkbuf] (clearTables { s with count := noCounts }) := by
  have hin : Written (symInput s) [] := by rw [symInput, h]; rfl
  obtain ⟨cs, hc, hcount⟩ := fcClear_andThen_fcScan hin
  obtain rfl : noCounts = cs := counts_ext _ _ fun x => BitVec.eq_of_toNat_eq (by rw [hc x]; simp)
  rw [perfCompress, compressSteps, hcount, Perf.andThen, perfTbBuild, if_pos numSyms_noCounts]
  rfl

end

/-- R236: those tables are all that the first four steps of COMPRESS change. -/
theorem compressTables_eq (cs : Counts) (s : State) : compressTables cs s =
    { s with
      count := cs, node := arenaOf (build cs).1, nodeCount := BitVec.ofNat 9 (2 * numSyms cs - 1)
      treeRoot := BitVec.ofNat 9 (build cs).2, treeValid := true, code := tableOf cs, tableValid := true
      maxCodeLen := BitVec.ofNat 8 (maxLen (tableOf cs)) } := rfl

/-- R182: with the tables of a map, MAX_CODE_LEN is the largest code length. -/
theorem maxCodeLen_compressTables (cs : Counts) (s : State) :
    (∀ y, codeLen (tableOf cs) y ≤ (compressTables cs s).maxCodeLen.toNat) ∧
      ∃ y, codeLen (tableOf cs) y = (compressTables cs s).maxCodeLen.toNat := by
  rw [← compressTables_code cs s, compressTables]
  exact maxCodeLen_installTable _

/-- Settles O38: ENCODE and PACK complete with the tables of the text's map, and each leaves its output as on its own. -/
theorem compressPacksEncodedText : Obligations.CompressPacksEncodedText := by
  intro s syms cs x hp _ hw hne hc hx hfit
  have hexec : exec .compress s = .next (complete (putPacked x (putBits x (compressTables cs s)))) :=
    congrArg Perf.finish (perfCompress_of_fit hp hw hne hc hx hfit)
  obtain ⟨hmax, hex⟩ := maxCodeLen_compressTables cs s
  refine ⟨_, hexec, ?_, hmax, hex, written_bitInput_putBits (s := compressTables cs s) hp hfit, ?_,
    fun i => Memory.bitRead_writeBitSeq_tail s.bitbuf, fun off => Memory.read_writeBitSeq_of_le s.bitbuf, fun off hoff => ?_⟩
  · rw [← packedLen_eq]
    simp only [complete, putPacked, putBits, compressTables_eq]
    rfl
  · rw [← packedLen_eq]
    exact written_pkbuf_putPacked (putBits x (compressTables cs s)) x
  · exact read_pkbuf_putPacked_of_le (putBits x (compressTables cs s)) x (by rwa [packedLen_eq])

/-- Settles O40: ENCODE raises, with the tables of the text's map already in place, and the pipeline's output is cleared as well. -/
theorem compressTooLongKeepsTable : Obligations.CompressTooLongKeepsTable := by
  intro s pre post x cs hp _ hw hc hl hover
  have hne : pre ++ x :: post ≠ [] := by simp
  have hall := allCoded_tableOf hc hne
  have hin : symInput (compressTables cs s) = pre.map some ++ some x :: post.map some := by
    rw [← List.map_cons, ← List.map_append]; exact hw
  have hencode := perfEncode_of_overflow (s := compressTables cs s) rfl hin (fun y hy => hall y (List.mem_append_left _ hy)) hl
    (hall x (by simp)) hover
  have hperf : perfCompress s =
      .raised .resource (BitVec.ofNat 32 pre.length) [.bitbuf, .pkbuf] (compressTables cs s) := by
    rw [perfCompress_of_written hw hne hc, hencode]; rfl
  have hexec : exec .compress s = .next (raiseError .resource (BitVec.ofNat 32 pre.length) [.bitbuf, .pkbuf]
    (compressTables cs s)) := congrArg Perf.finish hperf
  obtain ⟨hmax, hex⟩ := maxCodeLen_compressTables cs s
  have hraise := changesOnly_raiseError .resource (BitVec.ofNat 32 pre.length) [.bitbuf, .pkbuf] (compressTables cs s)
  obtain ⟨hnode, hcount, hroot, htree⟩ := hraise.tree (by decide)
  obtain ⟨hcode, hkeep, htable⟩ := hraise.table (by decide)
  rw [← hkeep] at hmax hex
  refine ⟨_, _, hexec, rfl, by rw [hkeep]; rfl, hmax, hex, fun h0 => ?_, rfl, rfl, rfl, fun off => ⟨rfl, rfl⟩, ?_⟩
  · have h0 : (compressTables cs s).err = false := h0
    simp [h0]
  · exact ⟨hraise .count (by decide), hnode, hcount, hroot, hcode, htree, htable, recordError_symbuf _ _ _,
      recordError_symLen _ _ _, hraise .pad (by decide)⟩

/-! ### DECOMPRESS -/

section

variable {s : State} {p : Byte} {payload syms : List Byte} {x : List Bool}

/-- R215: the state that UNPACK leaves, with the bits `x` and the header as PAD. -/
def unpacked (p : Byte) (x : List Bool) (s : State) : State := { putBits x s with pad := BitVec.ofNat 4 p.toNat }

/-- R238, R235: what DECOMPRESS with a table does: its two steps, and then the end of the engine's step. -/
theorem exec_decompress_of_valid (hv : s.tableValid = true) :
    exec .decompress s = (((perfUnpack s).andThen perfDecode).withFinalOutput .symbuf).finish := by
  rw [exec_eq_finish, perform, perfDecompress, if_pos hv, decompressSteps]

/-- R215: UNPACK of an accepted stream whose bits fit BITBUF. -/
theorem perfUnpack_of_fit (hne : s.pkLen ≠ 0#32) (hr : Memory.read s.pkbuf 0 = some p) (h8 : p.toNat ≤ 8)
    (hrem : p.toNat ≤ 8 * (s.pkLen.toNat - 1)) (hw : Written (payloadInput s) payload)
    (hx : x = (payload.flatMap bits8).take (8 * (s.pkLen.toNat - 1) - p.toNat)) (hfit : x.length ≤ s.par.bitCap) :
    perfUnpack s = .done (unpacked p x s) := by
  have hlen : x.length = 8 * (s.pkLen.toNat - 1) - p.toNat := by
    rw [hx, length_take_flatMap_bits8 (by rw [length_of_written_payloadInput hw]; omega)]
  rw [perfUnpack_of_header hne hr, unpackWith_of_fit h8 hrem (hlen ▸ hfit) hw, putUnpacked, ← hx, unpacked]

end

/-- R217: what UNPACK leaves in BITBUF: the bits, a zero tail, and the bytes after them as before. -/
theorem unpacked_bitbuf {s : State} (p : Byte) {x : List Bool} (hp : s.par.wf = true) (hx : x.length ≤ s.par.bitCap) :
    Written (bitInput (unpacked p x s)) x ∧
    (∀ i, x.length ≤ i → i < 8 * ((x.length + 7) / 8) → Memory.bitRead (unpacked p x s).bitbuf i = some false) ∧
    ∀ off, (x.length + 7) / 8 ≤ off → Memory.read (unpacked p x s).bitbuf off = Memory.read s.bitbuf off :=
  ⟨written_bitInput_putBits hp hx, fun _ => Memory.bitRead_writeBitSeq_tail s.bitbuf,
    fun _ => Memory.read_writeBitSeq_of_le s.bitbuf⟩

/-- Settles O41: UNPACK gives the codes, and DECODE their symbols. -/
theorem decompressRecoversText : Obligations.DecompressRecoversText := by
  intro s p payload syms x hp _ hv hpre hc hne hr h8 hrem hw hcodes hx hbits hsyms
  obtain ⟨hwritten, htail, hafter⟩ := unpacked_bitbuf p hp hbits
  have hin : Written (bitInput (unpacked p x s)) (codesOf s.code syms) := by rw [← hcodes]; exact hwritten
  have hexec : exec .decompress s = .next (complete (putSymbols syms (unpacked p x s))) := by
    rw [exec_decompress_of_valid hv, perfUnpack_of_fit hne hr h8 hrem hw hx hbits, Perf.andThen,
      perfDecode_of_codes (s := unpacked p x s) hv hpre hc hin hsyms]
    rfl
  obtain ⟨-, hcap, -⟩ := params_bounds s.par hp
  refine ⟨_, hexec, rfl, written_symInput_putSymbols _ (by omega), hwritten, htail, fun off hoff => ?_, hafter⟩
  exact Memory.read_writeBytes_of_lt s.symbuf 0 off syms (.inr (by omega))

/-- R238: DECOMPRESS of a stream that UNPACK accepts raises what DECODE raises of its bits. -/
theorem exec_decompress_of_raised {s : State} {p : Byte} {x : List Bool} {e : ErrCode} {v : Word}
    (hv : s.tableValid = true) (hunpack : perfUnpack s = .done (unpacked p x s))
    (hdecode : perfDecode (unpacked p x s) = .raised e v [.symbuf] (unpacked p x s)) :
    exec .decompress s = .next (raiseError e v [.symbuf] (unpacked p x s)) := by
  rw [exec_decompress_of_valid hv, hunpack, Perf.andThen, hdecode]
  rfl

/-- Settles O39: COMPRESS of no text stops at the empty map; DECOMPRESS stops where UNPACK or DECODE does, with the
pipeline's output among those cleared. -/
theorem pipelinesReportFailures : Obligations.PipelinesReportFailures := by
  refine ⟨fun s h => ⟨_, congrArg Perf.finish (perfCompress_of_empty h), rfl⟩, fun s hv h => ?_,
    fun s p hv hne hr => ⟨fun h => ?_, fun h8 hover => ?_⟩, ?_⟩
  · rw [exec_decompress_of_valid hv, perfUnpack_of_empty h]; rfl
  · rw [exec_decompress_of_valid hv, perfUnpack_of_header hne hr, unpackWith_of_malformed h]; rfl
  · rw [exec_decompress_of_valid hv, perfUnpack_of_header hne hr, unpackWith_of_overflow h8 (by omega) hover]; rfl
  · intro s p payload syms x hp _ hv hpre hc hne hr h8 hrem hw hx hbits
    have hunpack := perfUnpack_of_fit hne hr h8 hrem hw hx hbits
    obtain ⟨hwritten, htail, hafter⟩ := unpacked_bitbuf p hp hbits
    refine ⟨unpacked p x s, rfl, hwritten, htail, hafter, fun part heq hfit hpne hpart => ?_, fun y rest hy heq hfull => ?_⟩
    · have hin : Written (bitInput (unpacked p x s)) (codesOf s.code syms ++ part) := by rw [← heq]; exact hwritten
      exact exec_decompress_of_raised hv hunpack (perfDecode_of_unfinished hv hpre hc hin hfit hpne hpart)
    · have hin : bitInput (unpacked p x s) = (codesOf s.code (syms ++ [y])).map some ++ rest.map some := by
        rw [← List.map_append, ← heq]; exact hwritten
      exact exec_decompress_of_raised hv hunpack (perfDecode_of_overflow hv hpre hc hy hin hfull)

/-! ### Unwritten bytes -/

/-- R286, R144: COMPRESS stops at the first symbol that is not written, as it counts the text. -/
theorem perfCompress_of_unwritten {s : State} {pre : List Byte} {rest : List (Option Byte)}
    (hin : symInput s = pre.map some ++ none :: rest) : perfCompress s = .unwritten .symbuf pre.length := by
  have hlen : pre.length < 2 ^ 32 := by
    have h := congrArg List.length hin
    have := s.symLen.isLt
    rw [symInput, Memory.length_readBytes, List.length_append, List.length_map] at h
    omega
  have hscan : perfFcScan { s with count := noCounts } = .unwritten .symbuf pre.length := by
    rw [perfFcScan, show symInput { s with count := noCounts } = _ from hin]
    exact perfCount_of_unwritten (s := { s with count := noCounts }) rest (countsFit_noCounts hlen)
  rw [perfCompress, compressSteps, perfFcClear, Perf.andThen, hscan]
  rfl

/-- R286, R212: PACK stops at the first byte of BITBUF that is not written. -/
theorem perfPack_of_unwritten {s : State} {i : Nat} (hfit : s.bitLen.toNat / 8 + 2 ≤ s.par.pkCap)
    (hi : i < (s.bitLen.toNat + 7) / 8) (hnone : Memory.read s.bitbuf i = none)
    (hsome : ∀ j < i, Memory.read s.bitbuf j ≠ none) : perfPack s = .unwritten .bitbuf i := by
  have hbit (k : Nat) : Memory.bitRead s.bitbuf k = none ↔ Memory.read s.bitbuf (k / 8) = none := by
    rw [Memory.bitRead, Option.map_eq_none_iff]
  have hgather : gather 0 (bitInput s) = .error (8 * i) := by
    rw [gather_of_first_none (pos := 0) (i := 8 * i) (l := bitInput s), Nat.zero_add]
    · rw [bitInput, Memory.getElem?_readBits, if_pos (by omega), (hbit _).2 (by rwa [Nat.mul_div_cancel_left i (by decide)])]
    · intro j hj h
      rw [bitInput, Memory.getElem?_readBits, if_pos (by omega)] at h
      exact hsome (j / 8) (by omega) ((hbit j).1 (Option.some.inj h))
  rw [perfPack, if_neg (by rw [packedLen_eq]; omega), hgather]
  show Perf.unwritten .bitbuf (8 * i / 8) = _
  rw [Nat.mul_div_cancel_left i (by decide)]

theorem perfUnpack_of_unwritten_header {s : State} (hne : s.pkLen ≠ 0#32) (hnone : Memory.read s.pkbuf 0 = none) :
    perfUnpack s = .unwritten .pkbuf 0 := by
  have h0 : s.pkLen.toNat ≠ 0 := fun h => hne (BitVec.eq_of_toNat_eq h)
  rw [perfUnpack, if_neg h0, hnone]

/-- R286, R215: UNPACK of an accepted stream stops at the first payload byte that is not written. -/
theorem perfUnpack_of_unwritten_payload {s : State} {p : Byte} {i : Nat} (hr : Memory.read s.pkbuf 0 = some p)
    (h8 : p.toNat ≤ 8) (hrem : p.toNat ≤ 8 * (s.pkLen.toNat - 1)) (hcap : 8 * (s.pkLen.toNat - 1) - p.toNat ≤ s.par.bitCap)
    (hi : i < s.pkLen.toNat) (hnone : Memory.read s.pkbuf i = none) (hsome : ∀ j < i, Memory.read s.pkbuf j ≠ none) :
    perfUnpack s = .unwritten .pkbuf i := by
  have hne : s.pkLen ≠ 0#32 := fun h => by rw [h] at hi; exact absurd hi (Nat.not_lt_zero i)
  obtain ⟨i, rfl⟩ : ∃ k, i = 1 + k := by
    refine ⟨i - 1, ?_⟩
    have : i ≠ 0 := by rintro rfl; rw [hr] at hnone; cases hnone
    omega
  have hgather : gather 1 (payloadInput s) = .error (1 + i) :=
    gather_readBytes_of_unwritten (by omega) hnone fun j hj => hsome (1 + j) (by omega)
  rw [perfUnpack_of_header hne hr, unpackWith, if_neg (by omega), if_neg (by omega), if_neg (by omega), hgather]

/-- R238, R286: an unwritten byte that stops UNPACK stops DECOMPRESS. -/
theorem exec_of_unpack_unwritten {s : State} {off : Nat} {c : Instr}
    (hc : c = .unpack ∨ (c = .decompress ∧ s.tableValid = true)) (h : perfUnpack s = .unwritten .pkbuf off) :
    exec c s = .fault (.unwrittenRead .pkbuf off) := by
  obtain rfl | ⟨rfl, hv⟩ := hc
  · rw [exec_unpack, h]; rfl
  · rw [exec_decompress_of_valid hv, h]; rfl

/-- Settles O54: each command reads its input in order, and stops at the first byte without a value. -/
theorem unwrittenCommandReadStops : Obligations.UnwrittenCommandReadStops := by
  intro s
  refine ⟨fun pre rest hin => ⟨congrArg Perf.finish (perfCompress_of_unwritten hin), fun hv hc hl =>
      congrArg Perf.finish (perfEncode_of_unwritten hv hin hc hl)⟩,
    fun i hfit hi hnone hsome => congrArg Perf.finish (perfPack_of_unwritten hfit hi hnone hsome),
    fun c hc => ⟨fun hne hnone => exec_of_unpack_unwritten hc (perfUnpack_of_unwritten_header hne hnone),
      fun p i hr h8 hrem hcap hi hnone hsome =>
        exec_of_unpack_unwritten hc (perfUnpack_of_unwritten_payload hr h8 hrem hcap hi hnone hsome)⟩,
    fun syms part rest hv hp hc hin hfit hpart =>
      congrArg Perf.finish (perfDecode_of_unwritten hv hp hc hin hfit hpart)⟩

end Sys2Proof.Machine
